-- ==== Sys2Proof/Word.lean ====
section
/-! DEFINITION. Words of the bit-packing engine and the plainest arithmetic of 00_scope.md R10. -/

namespace Sys2Proof

/-- A character or a data byte: every character is one byte (00_scope.md R7). -/
abbrev Byte := BitVec 8

/-- The 13-bit accumulator word, ACC_W of 00_scope.md R7. -/
abbrev Acc := BitVec 13

/-- `ceil(a / b)`, the exact quotient rounded up, for `b > 0` (R10, R140). -/
def ceilDiv (a b : Nat) : Nat := (a + b - 1) / b

/-- `roundup(a, b) = ceil(a / b) * b` (R10). -/
def roundUp (a b : Nat) : Nat := ceilDiv a b * b

end Sys2Proof
end

