-- ==== Sys2Proof/Config.lean ====
section
/-! DEFINITION. What is fixed for this hardware (00_scope.md R7, R8), the model's choice of an unlisted byte, and the
free value a reset during a command leaves. -/

namespace Sys2Proof.Config

/-- The value of the open parameter SIZE_W that `State.reset` takes: DESIGN CHOICE 32, the width the spec's vectors use
(00_scope.md R8). Unsafe if a claim rested on it; the statements hold for every width of at least 8 (log 1). -/
def sizeW : Nat := 32

/-- PAD_CHAR, the character `=` (00_scope.md R7). -/
def padChar : Byte := 0x3D

/-- INVALID, the reverse table's sentinel (00_scope.md R7). -/
def invalid : Byte := 0xFF

/-- What a byte of the host's storage that nothing has written reads as: DESIGN CHOICE 0x00 (log 4). Unsafe: the spec
gives such a byte no value. -/
def unlistedByte : Byte := 0x00

/-- The byte that stands at an index of OUT after a reset abandoned the command that could have written it: a free
value, one for each draw and index (70_reset_and_hazards.md R280, U18; log 8). Safe: nothing can be proved of it. -/
opaque abandonedByte : Nat → Nat → Byte

end Sys2Proof.Config
end

