-- ==== Sys2Proof/Syntax.lean ====
section
/-! DEFINITION. The commands of the engine: one constructor of `Instr` for each row of the opcode table
(30_encoding.md R96), its operands the descriptor fields that do not select the command (R91). -/

namespace Sys2Proof

/-- The operation selector (10_state.md R30). -/
inductive Op where
  | encSize | decSize | enc | dec
  deriving DecidableEq, Repr

/-- The base selector (10_state.md R31); the fourth code is reserved (30_encoding.md R99). -/
inductive Base where
  | b16 | b32 | b64
  deriving DecidableEq, Repr

/-- The fields of a descriptor beside `op`, `base` and `alt` (10_state.md R33 to R39): the rest of CMD and the three
operands of SIZE_W bits. Lengths are plain unsigned numbers (R91: no scaling); `Operands.reject` bounds them. -/
structure Operands where
  usePadding : Bool
  strict     : Bool
  nulTerm    : Bool
  leLen      : Nat
  inPresent  : Bool
  outPresent : Bool
  le0        : Byte
  le1        : Byte
  lineLength : Nat
  inLen      : Nat
  outCap     : Nat
  deriving DecidableEq, Repr

/-- The eighteen commands (30_encoding.md R96). `alt` selects the alphabet of ENC and DEC and is a plain, ignored operand
of the size commands (R100). -/
inductive Instr where
  | encSizeB16 (alt : Bool) (d : Operands)
  | encSizeB32 (alt : Bool) (d : Operands)
  | encSizeB64 (alt : Bool) (d : Operands)
  | decSizeB16 (alt : Bool) (d : Operands)
  | decSizeB32 (alt : Bool) (d : Operands)
  | decSizeB64 (alt : Bool) (d : Operands)
  | encB16 (d : Operands)
  | encB16L (d : Operands)
  | encB32 (d : Operands)
  | encB32Hex (d : Operands)
  | encB64 (d : Operands)
  | encB64Url (d : Operands)
  | decB16 (d : Operands)
  | decB16L (d : Operands)
  | decB32 (d : Operands)
  | decB32Hex (d : Operands)
  | decB64 (d : Operands)
  | decB64Url (d : Operands)
  deriving DecidableEq, Repr

namespace Instr

/-- The operands of a command. -/
def operands : Instr → Operands
  | .encSizeB16 _ d => d
  | .encSizeB32 _ d => d
  | .encSizeB64 _ d => d
  | .decSizeB16 _ d => d
  | .decSizeB32 _ d => d
  | .decSizeB64 _ d => d
  | .encB16 d => d
  | .encB16L d => d
  | .encB32 d => d
  | .encB32Hex d => d
  | .encB64 d => d
  | .encB64Url d => d
  | .decB16 d => d
  | .decB16L d => d
  | .decB32 d => d
  | .decB32Hex d => d
  | .decB64 d => d
  | .decB64Url d => d

end Instr

end Sys2Proof
end

