-- ==== Sys2Proof/WellFormed.lean ====
section
/-! DEFINITION. Which commands a descriptor of an engine with a given SIZE_W can carry. -/

namespace Sys2Proof

/-- `le_len` is 0, 1 or 2 (30_encoding.md R99: 3 is reserved) and each of the three operands has SIZE_W bits (R90). -/
def Operands.wellFormed (sizeW : Nat) (d : Operands) : Bool :=
  decide (d.leLen ≤ 2) && decide (d.lineLength < 2 ^ sizeW) && decide (d.inLen < 2 ^ sizeW)
    && decide (d.outCap < 2 ^ sizeW)

/-- A command is well formed when its operands are. -/
def Instr.wellFormed (sizeW : Nat) (i : Instr) : Bool := i.operands.wellFormed sizeW

end Sys2Proof
end

