-- ==== Sys2Proof/Decode.lean ====
section
/-! DEFINITION. The descriptor (30_encoding.md R90, R91), its decoder, total and rejecting by name, the encoder written
from the same table, and the spec's notation for descriptors (R102). -/

namespace Sys2Proof

/-- A raw descriptor as the host presents it: the command word and the operands LINE_LEN, IN_LEN, OUT_CAP (R90). -/
structure Descriptor where
  cmd     : BitVec 32
  lineLen : Nat
  inLen   : Nat
  outCap  : Nat
  deriving DecidableEq, Repr

/-- Why a descriptor has no meaning. The first three are the reserved descriptors of R99; the last cannot be presented
at all, the operand ports being SIZE_W bits wide (R90; log 9). -/
inductive DecodeError where
  | reservedBits
  | reservedBase
  | reservedLeLen
  | operandTooWide
  deriving DecidableEq, Repr

/-- The field of `w` of `n` bits whose least significant bit is bit `lo` (00_scope.md R10). -/
def bitField (w : BitVec 32) (lo n : Nat) : Nat := w.toNat / 2 ^ lo % 2 ^ n

/-- One bit of the command word. -/
def flagBit (w : BitVec 32) (i : Nat) : Bool := bitField w i 1 == 1

/-- A flag as the bit that stands for it. -/
def bitOf (b : Bool) : Nat := if b then 1 else 0

/-- The code of an operation, `CMD[1:0]` (10_state.md R30). -/
def Op.code : Op → Nat
  | .encSize => 0
  | .decSize => 1
  | .enc => 2
  | .dec => 3

/-- The operation a two-bit code names; all four are legal (10_state.md R30). -/
def Op.ofCode (n : Nat) : Op :=
  if n = 0 then .encSize else if n = 1 then .decSize else if n = 2 then .enc else .dec

/-- The code of a base, `CMD[3:2]` (10_state.md R31). -/
def Base.code : Base → Nat
  | .b16 => 0
  | .b32 => 1
  | .b64 => 2

/-- The base a two-bit code names; 3 is reserved (10_state.md R31, 30_encoding.md R99). -/
def Base.ofCode (n : Nat) : Option Base :=
  if n = 0 then some .b16 else if n = 1 then some .b32 else if n = 2 then some .b64 else none

/-- The command that `{alt, base, op}` selects (R96). For the size commands `alt` is carried as an operand (R100). -/
def Instr.ofSelector : Op → Base → Bool → Operands → Instr
  | .encSize, .b16, alt, d => .encSizeB16 alt d
  | .encSize, .b32, alt, d => .encSizeB32 alt d
  | .encSize, .b64, alt, d => .encSizeB64 alt d
  | .decSize, .b16, alt, d => .decSizeB16 alt d
  | .decSize, .b32, alt, d => .decSizeB32 alt d
  | .decSize, .b64, alt, d => .decSizeB64 alt d
  | .enc, .b16, false, d => .encB16 d
  | .enc, .b16, true, d => .encB16L d
  | .enc, .b32, false, d => .encB32 d
  | .enc, .b32, true, d => .encB32Hex d
  | .enc, .b64, false, d => .encB64 d
  | .enc, .b64, true, d => .encB64Url d
  | .dec, .b16, false, d => .decB16 d
  | .dec, .b16, true, d => .decB16L d
  | .dec, .b32, false, d => .decB32 d
  | .dec, .b32, true, d => .decB32Hex d
  | .dec, .b64, false, d => .decB64 d
  | .dec, .b64, true, d => .decB64Url d

/-- Why operands cannot be those of a command: `le_len = 3` is reserved (R99), an operand has SIZE_W bits (R90). -/
def Operands.reject (sizeW : Nat) (d : Operands) : Option DecodeError :=
  if 2 < d.leLen then some .reservedLeLen
  else if d.wellFormed sizeW then none
  else some .operandTooWide

/-- The operands a descriptor carries (R91). -/
def Descriptor.operands (r : Descriptor) : Operands where
  usePadding := flagBit r.cmd 5
  strict := flagBit r.cmd 6
  nulTerm := flagBit r.cmd 7
  leLen := bitField r.cmd 8 2
  inPresent := flagBit r.cmd 10
  outPresent := flagBit r.cmd 11
  le0 := BitVec.ofNat 8 (bitField r.cmd 16 8)
  le1 := BitVec.ofNat 8 (bitField r.cmd 24 8)
  lineLength := r.lineLen
  inLen := r.inLen
  outCap := r.outCap

/-- The decoder: the command a descriptor stands for, or the name of what makes it reserved (R91, R96, R99). -/
def decode (sizeW : Nat) (r : Descriptor) : Except DecodeError Instr :=
  if bitField r.cmd 12 4 ≠ 0 then .error .reservedBits
  else
    match Base.ofCode (bitField r.cmd 2 2) with
    | none => .error .reservedBase
    | some base =>
      match r.operands.reject sizeW with
      | some e => .error e
      | none => .ok (Instr.ofSelector (Op.ofCode (bitField r.cmd 0 2)) base (flagBit r.cmd 4) r.operands)

/-- The operation of a command (R96, column op). -/
def Instr.op : Instr → Op
  | .encSizeB16 _ _ => .encSize
  | .encSizeB32 _ _ => .encSize
  | .encSizeB64 _ _ => .encSize
  | .decSizeB16 _ _ => .decSize
  | .decSizeB32 _ _ => .decSize
  | .decSizeB64 _ _ => .decSize
  | .encB16 _ => .enc
  | .encB16L _ => .enc
  | .encB32 _ => .enc
  | .encB32Hex _ => .enc
  | .encB64 _ => .enc
  | .encB64Url _ => .enc
  | .decB16 _ => .dec
  | .decB16L _ => .dec
  | .decB32 _ => .dec
  | .decB32Hex _ => .dec
  | .decB64 _ => .dec
  | .decB64Url _ => .dec

/-- The base of a command (R96, column base). -/
def Instr.base : Instr → Base
  | .encSizeB16 _ _ => .b16
  | .encSizeB32 _ _ => .b32
  | .encSizeB64 _ _ => .b64
  | .decSizeB16 _ _ => .b16
  | .decSizeB32 _ _ => .b32
  | .decSizeB64 _ _ => .b64
  | .encB16 _ => .b16
  | .encB16L _ => .b16
  | .encB32 _ => .b32
  | .encB32Hex _ => .b32
  | .encB64 _ => .b64
  | .encB64Url _ => .b64
  | .decB16 _ => .b16
  | .decB16L _ => .b16
  | .decB32 _ => .b32
  | .decB32Hex _ => .b32
  | .decB64 _ => .b64
  | .decB64Url _ => .b64

/-- The alphabet bit of a command (R96, column alt). -/
def Instr.alt : Instr → Bool
  | .encSizeB16 alt _ => alt
  | .encSizeB32 alt _ => alt
  | .encSizeB64 alt _ => alt
  | .decSizeB16 alt _ => alt
  | .decSizeB32 alt _ => alt
  | .decSizeB64 alt _ => alt
  | .encB16 _ => false
  | .encB16L _ => true
  | .encB32 _ => false
  | .encB32Hex _ => true
  | .encB64 _ => false
  | .encB64Url _ => true
  | .decB16 _ => false
  | .decB16L _ => true
  | .decB32 _ => false
  | .decB32Hex _ => true
  | .decB64 _ => false
  | .decB64Url _ => true

/-- The command word of given selectors and operands (R91), each field at its place, bits 15:12 zero. -/
def commandWord (op : Op) (base : Base) (alt : Bool) (d : Operands) : BitVec 32 :=
  BitVec.ofNat 32
    (op.code + 2 ^ 2 * base.code + 2 ^ 4 * bitOf alt + 2 ^ 5 * bitOf d.usePadding + 2 ^ 6 * bitOf d.strict
      + 2 ^ 7 * bitOf d.nulTerm + 2 ^ 8 * d.leLen + 2 ^ 10 * bitOf d.inPresent + 2 ^ 11 * bitOf d.outPresent
      + 2 ^ 16 * d.le0.toNat + 2 ^ 24 * d.le1.toNat)

/-- The encoder: the descriptor of a command (R91, R96). -/
def encode (i : Instr) : Descriptor where
  cmd := commandWord i.op i.base i.alt i.operands
  lineLen := i.operands.lineLength
  inLen := i.operands.inLen
  outCap := i.operands.outCap

/-! The opcode table (R96). -/

/-- A row of the opcode table; a command word `w` matches it when `w &&& mask = pattern` (R96). -/
structure OpcodeRow where
  mnemonic : String
  pattern  : BitVec 32
  mask     : BitVec 32
  deriving DecidableEq, Repr

/-- A command word matches a row (R96). -/
def OpcodeRow.covers (r : OpcodeRow) (w : BitVec 32) : Bool := w &&& r.mask == r.pattern

/-- The row of a command. -/
def Instr.row : Instr → OpcodeRow
  | .encSizeB16 _ _ => ⟨"ENCSIZE.B16", 0x00000000, 0x0000F00F⟩
  | .encSizeB32 _ _ => ⟨"ENCSIZE.B32", 0x00000004, 0x0000F00F⟩
  | .encSizeB64 _ _ => ⟨"ENCSIZE.B64", 0x00000008, 0x0000F00F⟩
  | .decSizeB16 _ _ => ⟨"DECSIZE.B16", 0x00000001, 0x0000F00F⟩
  | .decSizeB32 _ _ => ⟨"DECSIZE.B32", 0x00000005, 0x0000F00F⟩
  | .decSizeB64 _ _ => ⟨"DECSIZE.B64", 0x00000009, 0x0000F00F⟩
  | .encB16 _ => ⟨"ENC.B16", 0x00000002, 0x0000F01F⟩
  | .encB16L _ => ⟨"ENC.B16L", 0x00000012, 0x0000F01F⟩
  | .encB32 _ => ⟨"ENC.B32", 0x00000006, 0x0000F01F⟩
  | .encB32Hex _ => ⟨"ENC.B32HEX", 0x00000016, 0x0000F01F⟩
  | .encB64 _ => ⟨"ENC.B64", 0x0000000A, 0x0000F01F⟩
  | .encB64Url _ => ⟨"ENC.B64URL", 0x0000001A, 0x0000F01F⟩
  | .decB16 _ => ⟨"DEC.B16", 0x00000003, 0x0000F01F⟩
  | .decB16L _ => ⟨"DEC.B16L", 0x00000013, 0x0000F01F⟩
  | .decB32 _ => ⟨"DEC.B32", 0x00000007, 0x0000F01F⟩
  | .decB32Hex _ => ⟨"DEC.B32HEX", 0x00000017, 0x0000F01F⟩
  | .decB64 _ => ⟨"DEC.B64", 0x0000000B, 0x0000F01F⟩
  | .decB64Url _ => ⟨"DEC.B64URL", 0x0000001B, 0x0000F01F⟩

/-- The descriptor whose bits are `w`: CMD in bits 31:0, then LINE_LEN, IN_LEN and OUT_CAP of `sizeW` bits each, in the
order R90 lists them. The spec serialises nothing; this order is DESIGN CHOICE (log 9). -/
def Descriptor.ofBits (sizeW w : Nat) : Descriptor where
  cmd := BitVec.ofNat 32 w
  lineLen := w / 2 ^ 32 % 2 ^ sizeW
  inLen := w / 2 ^ (32 + sizeW) % 2 ^ sizeW
  outCap := w / 2 ^ (32 + 2 * sizeW) % 2 ^ sizeW

/-- The command the decoder reads from the first `nbits` bits of `w`, every later bit of the descriptor zero. -/
def decodeTableWord (nbits w : Nat) : Option Instr :=
  (decode Config.sizeW (Descriptor.ofBits Config.sizeW (w % 2 ^ nbits))).toOption

/-! The notation of R102: a mnemonic, options over the defaults, the lengths. -/

/-- The mnemonic a command's line begins with (R96, R102). -/
def Instr.mnemonic (i : Instr) : String := i.row.mnemonic

/-- The operands of a line that gives no option: padding on, lenient, no null marker, line ending `"\n"`, 76 characters a
line, both buffers present (R102; 10_state.md R33 to R38). The spec gives `len` and `cap` no default (R39): that a line without
them, as R102 has it for `cap` of a size command, carries 0 is DESIGN CHOICE (log 14). -/
def Operands.default : Operands where
  usePadding := true
  strict := false
  nulTerm := false
  leLen := 1
  inPresent := true
  outPresent := true
  le0 := 0x0A
  le1 := 0x00
  lineLength := 76
  inLen := 0
  outCap := 0

/-- The opcode table, its rows in the spec's order (R96). -/
def opcodeTable : List OpcodeRow :=
  ([.encSizeB16 false Operands.default, .encSizeB32 false Operands.default, .encSizeB64 false Operands.default]
    ++ [.decSizeB16 false Operands.default, .decSizeB32 false Operands.default, .decSizeB64 false Operands.default]
    ++ [.encB16 Operands.default, .encB16L Operands.default, .encB32 Operands.default,
      .encB32Hex Operands.default, .encB64 Operands.default, .encB64Url Operands.default]
    ++ [.decB16 Operands.default, .decB16L Operands.default, .decB32 Operands.default,
      .decB32Hex Operands.default, .decB64 Operands.default, .decB64Url Operands.default] : List Instr).map Instr.row

/-- One option of a line: `pad=`, `strict=`, `nul=`, `ll=`, `le=`, `in=absent`, `out=absent`, `len=`, `cap=` (R102). -/
inductive LineOption where
  | pad (b : Bool)
  | strict (b : Bool)
  | nul (b : Bool)
  | ll (n : Nat)
  | leNone
  | leOne (c0 : Byte)
  | leTwo (c0 c1 : Byte)
  | inAbsent
  | outAbsent
  | len (n : Nat)
  | cap (n : Nat)
  deriving DecidableEq, Repr

/-- What one option does to the operands; the bytes of a shorter line ending are zero, as in the CMD words of R102. -/
def LineOption.apply : LineOption → Operands → Operands
  | .pad b, d => { d with usePadding := b }
  | .strict b, d => { d with strict := b }
  | .nul b, d => { d with nulTerm := b }
  | .ll n, d => { d with lineLength := n }
  | .leNone, d => { d with leLen := 0, le0 := 0, le1 := 0 }
  | .leOne c0, d => { d with leLen := 1, le0 := c0, le1 := 0 }
  | .leTwo c0 c1, d => { d with leLen := 2, le0 := c0, le1 := c1 }
  | .inAbsent, d => { d with inPresent := false }
  | .outAbsent, d => { d with outPresent := false }
  | .len n, d => { d with inLen := n }
  | .cap n, d => { d with outCap := n }

/-- The operands of a line with the given options, each omitted field at its default (R102). -/
def lineOperands (opts : List LineOption) : Operands :=
  opts.foldl (fun d o => o.apply d) Operands.default

end Sys2Proof
end

