-- ==== Sys2Proof/Machine/State.lean ====
section
/-! DEFINITION. All the state the spec gives the engine (10_state.md R20), the caller-owned storage it reaches, the host as
a list of moves, the reasons a step can stop, and the machine after power-on reset. -/

namespace Sys2Proof.Machine

/-- The caller-owned byte storage in which the buffers stand (20_memory.md R60, R62, R69): addresses strictly rising, no
entry equal to what an unlisted address reads as (`Memory.wf` in Ops). -/
abbrev Memory := List Host.Cell

/-- Where a buffer stands and how many bytes it really has. The spec leaves the placement to the platform (R69, D30). -/
structure Region where
  base : Nat
  size : Nat
  deriving DecidableEq, Repr

/-- What the host presents at an issue: the descriptor, and beside it the buffers the platform supplies (R69); `none` is
an absent buffer. -/
structure Launch where
  desc   : Descriptor
  inBuf  : Option Region
  outBuf : Option Region
  deriving DecidableEq, Repr

/-- A move of the host. It moves only while no command is in flight (70_reset_and_hazards.md R288). -/
inductive HostMove where
  /-- issue a command (10_state.md R40) -/
  | issue (l : Launch)
  /-- wait for `done = 1`, read `count`, provide an OUT buffer of that many bytes at the launch's region, issue with that
  capacity: the second half of the pseudo-commands of 30_encoding.md R102 -/
  | issueWithCount (l : Launch)
  /-- place one byte in the host's own storage (70_reset_and_hazards.md R283 step 4) -/
  | store (a : Nat) (b : Byte)
  /-- power-on reset while no command runs (70_reset_and_hazards.md R280) -/
  | reset
  /-- issue a command and reset the engine before it is done (70_reset_and_hazards.md R280, U18) -/
  | issueThenReset (l : Launch)
  deriving DecidableEq, Repr

/-- The sequencer's phase (10_state.md R27). -/
inductive Phase where
  | idle | check | body | tail | pad | term | done
  deriving DecidableEq, Repr

/-- The statuses a command can end with (60_exceptions.md R240); AllocationFailure is kept and never raised (R249). -/
inductive Status where
  | success
  | nullOrMissingArgument
  | bufferTooSmall
  | invalidCharacter
  | invalidPadding
  | invalidLength
  | inputTooLarge
  | allocationFailure
  | invalidInput
  deriving DecidableEq, Repr

/-- The latched descriptor, the control registers (10_state.md R30 to R39). -/
structure Latched extends Operands where
  op   : Op
  base : Base
  alt  : Bool
  deriving DecidableEq, Repr

/-- The working registers (10_state.md R21 to R28). Cursors and counts are numbers; their register widths are the bounds of
the invariant `Inv` (log 11). -/
structure Working where
  acc    : Acc
  nbits  : Nat
  inPos  : Nat
  outPos : Nat
  col    : Nat
  gpos   : Nat
  npad   : Nat
  deriving DecidableEq, Repr

/-- The machine. The fields `phase` to `done` are the engine's own state, in the classes of 10_state.md R20; `mem`, `inBuf`
and `outBuf` are the caller's storage and the buffers of the last launch; `sizeW` is the open parameter SIZE_W (log 1),
`host` the moves the host will make (log 6), `freeCtr` the index of the next free draw (log 8). -/
structure State where
  phase   : Phase
  desc    : Latched
  work    : Working
  count   : Nat
  status  : Status
  done    : Bool
  mem     : Memory
  inBuf   : Option Region
  outBuf  : Option Region
  sizeW   : Nat
  host    : List HostMove
  freeCtr : Nat
  deriving DecidableEq, Repr

/-- Why the model stops where a rule would do what the spec does not define. All are safe: the model stops, and no command
reaches one (log 13). -/
inductive Fault where
  /-- raised by `memReadIn`: an IN index at or past `in_len`, or no input buffer (20_memory.md R64); safe -/
  | readNotDefined
  /-- raised by `memWriteOut`: an OUT index at or past `out_cap`, or no output buffer (20_memory.md R65); safe -/
  | writeNotDefined
  /-- raised by `fwdRead`: a symbol value past the end of the FWD table (20_memory.md R60); safe -/
  | fwdIndexNotDefined
  /-- raised by `decTail`: a group position with no legal meaning at the Required lookup (30_encoding.md R111); safe -/
  | requiredNotDefined
  /-- raised by `tick`: a phase the latched command does not run through (10_state.md R27); safe -/
  | phaseNotOfCommand
  deriving DecidableEq, Repr

/-- What the model declines, each because the spec says to refuse it or calls it outside the spec. All are safe. -/
inductive Refusal where
  /-- raised by an arm of `exec` for a command that has no meaning yet; safe -/
  | notModelled (mnemonic : String)
  /-- raised by `step` and by every command on a reserved descriptor (30_encoding.md R99); safe -/
  | reservedDescriptor (e : DecodeError)
  /-- raised by ENC and DEC when a present flag is 1 with no buffer behind it (70_reset_and_hazards.md R286); safe -/
  | missingBuffer
  /-- raised by ENC and DEC when `in_len` or `out_cap` overstates the buffer (70_reset_and_hazards.md R287); safe -/
  | overstatedLength
  /-- raised by ENC and DEC when a byte of IN is a byte of OUT (70_reset_and_hazards.md R289, U15); safe -/
  | aliasedBuffers
  /-- raised by every command issued while another is in flight (10_state.md R40, 70_reset_and_hazards.md R288); safe -/
  | engineBusy
  deriving DecidableEq, Repr

/-- The descriptor registers after power-on, DESIGN CHOICE all zero codes (10_state.md R44 gives them no value; log 3). -/
def Latched.atReset : Latched where
  usePadding := false
  strict := false
  nulTerm := false
  leLen := 0
  inPresent := false
  outPresent := false
  le0 := 0
  le1 := 0
  lineLength := 0
  inLen := 0
  outCap := 0
  op := .encSize
  base := .b16
  alt := false

/-- The working registers after power-on, DESIGN CHOICE all zero (10_state.md R44 gives them no value; log 3). -/
def Working.atReset : Working where
  acc := 0
  nbits := 0
  inPos := 0
  outPos := 0
  col := 0
  gpos := 0
  npad := 0

/-- The machine right after power-on reset: `phase = IDLE` and `done = 0` (10_state.md R44, 70_reset_and_hazards.md R280);
every other register at the value log 3 names, nothing listed in storage, no buffer supplied, no host move. -/
def State.reset : State where
  phase := .idle
  desc := Latched.atReset
  work := Working.atReset
  count := 0
  status := .success
  done := false
  mem := []
  inBuf := none
  outBuf := none
  sizeW := Config.sizeW
  host := []
  freeCtr := 0

end Sys2Proof.Machine
end

