-- ==== Sys2Proof/Machine/Ops.lean ====
section
/-! DEFINITION. The named operations: the caller's storage, updates of the state, the two buffer primitives, issue, `raise`
(the taking of an exception, 60_exceptions.md R252) and beside it the normal end and the host's reading of the result. -/

namespace Sys2Proof.Machine

/-! The caller's storage. -/

/-- The byte at an address; an unlisted address reads as `Config.unlistedByte` (log 4). -/
def Memory.read : Memory → Nat → Byte
  | [], _ => Config.unlistedByte
  | (k, v) :: rest, a => if a = k then v else Memory.read rest a

/-- `b` in front of `m` at address `a`, unless it is what an unlisted address reads as. -/
def Memory.cons (a : Nat) (b : Byte) (m : Memory) : Memory :=
  if b = Config.unlistedByte then m else (a, b) :: m

/-- Byte `a` becomes `b` and no other byte changes (20_memory.md R65); the canonical form is kept. -/
def Memory.write : Memory → Nat → Byte → Memory
  | [], a, b => Memory.cons a b []
  | (k, v) :: rest, a, b =>
    if a < k then Memory.cons a b ((k, v) :: rest)
    else if a = k then Memory.cons a b rest
    else (k, v) :: Memory.write rest a b

/-- The bytes of a list at consecutive addresses from `a` on. -/
def Memory.writeList : Memory → Nat → List Byte → Memory
  | m, _, [] => m
  | m, a, b :: bs => Memory.writeList (Memory.write m a b) (a + 1) bs

/-- The `n` bytes from address `a` on. -/
def Memory.readList (m : Memory) (a n : Nat) : List Byte :=
  (List.range n).map fun i => Memory.read m (a + i)

/-- Every entry of `m` stands above `lo` (when there is a bound) and holds more than the unlisted byte, rising. -/
def Memory.risingFrom : Option Nat → Memory → Bool
  | _, [] => true
  | lo, (k, v) :: rest =>
    (match lo with
      | none => true
      | some l => decide (l < k)) && decide (v ≠ Config.unlistedByte) && Memory.risingFrom (some k) rest

/-- The canonical form: addresses strictly rising, no entry equal to the unlisted byte. -/
def Memory.wf (m : Memory) : Bool := Memory.risingFrom none m

/-! Updates of the state, one name each. -/

/-- `phase <- p` (00_scope.md R11). -/
def State.withPhase (p : Phase) (s : State) : State := { s with phase := p }

/-- New contents of the working registers. -/
def State.withWork (w : Working) (s : State) : State := { s with work := w }

/-- New contents of the caller's storage. -/
def State.withMem (m : Memory) (s : State) : State := { s with mem := m }

/-- The host's remaining moves. -/
def State.withHost (h : List HostMove) (s : State) : State := { s with host := h }

/-- The buffers of a launch, which the platform supplies beside the descriptor (20_memory.md R69). -/
def State.withBuffers (i o : Option Region) (s : State) : State := { s with inBuf := i, outBuf := o }

/-! Issue, raise, the normal end. -/

/-- The phases in which a command is in flight (70_reset_and_hazards.md R288). -/
def Phase.inFlight : Phase → Bool
  | .idle => false
  | .check => true
  | .body => true
  | .tail => true
  | .pad => true
  | .term => true
  | .done => false

/-- The latched form of a command's descriptor (10_state.md R40). -/
def latch (op : Op) (base : Base) (alt : Bool) (d : Operands) : Latched :=
  { d with op := op, base := base, alt := alt }

/-- Issue: the whole descriptor is latched in one step, `done` cleared, `phase <- CHECK` (10_state.md R40). `count`,
`status` and the working registers hold no value a rule reads until they are written (R44); they keep what they held. -/
def issue (op : Op) (base : Base) (alt : Bool) (d : Operands) (s : State) : State :=
  { s with desc := latch op base alt d, done := false, phase := .check }

/-- `raise st`: status st, `count <- 0`, `done <- 1`, `phase <- DONE`, nothing else changes (60_exceptions.md R252). -/
def raise (st : Status) (s : State) : State :=
  { s with status := st, count := 0, done := true, phase := .done }

/-- The normal end of a command: `count <- n; status <- Success; done <- 1; phase <- DONE` (R143, R158, R198). -/
def finish (n : Nat) (s : State) : State :=
  { s with status := .success, count := n, done := true, phase := .done }

/-- The return from a status: the host's reading of `count` and `status`, which it may do when `done = 1`
(10_state.md R29, 60_exceptions.md R255). -/
def readResult (s : State) : Option (Nat × Status) :=
  if s.done then some (s.count, s.status) else none

/-! The two access primitives. -/

/-- `MemRead(IN:i, 1)`, defined for `i < in_len` with the input buffer present (20_memory.md R64). -/
def memReadIn (s : State) (i : Nat) : Except Fault Byte :=
  match s.inBuf with
  | none => .error .readNotDefined
  | some r =>
    if s.desc.inPresent ∧ i < s.desc.inLen then .ok (Memory.read s.mem (r.base + i))
    else .error .readNotDefined

/-- `MemWrite(OUT:i, 1, v)`, defined for `i < out_cap` with the output buffer present (20_memory.md R65). -/
def memWriteOut (i : Nat) (v : Byte) (s : State) : Except Fault State :=
  match s.outBuf with
  | none => .error .writeNotDefined
  | some r =>
    if s.desc.outPresent ∧ i < s.desc.outCap then .ok (s.withMem (Memory.write s.mem (r.base + i) v))
    else .error .writeNotDefined

/-- One output byte: `MemWrite(OUT:out_pos, 1, v); out_pos <- out_pos + 1` (20_memory.md R76). -/
def putOut (v : Byte) (s : State) : Except Fault State := do
  let t ← memWriteOut s.work.outPos v s
  .ok (t.withWork { t.work with outPos := t.work.outPos + 1 })

/-- The bytes of a list, each an output byte. -/
def putAll : List Byte → State → Except Fault State
  | [], s => .ok s
  | v :: vs, s => do
    let t ← putOut v s
    putAll vs t

/-- The lowest `n` bits set: `mask(n) = 2^n - 1` as an accumulator word (00_scope.md R10). -/
def accMask (n : Nat) : Acc := BitVec.ofNat 13 (2 ^ n - 1)

end Sys2Proof.Machine
end

