-- ==== Sys2Proof/Machine/Operands.lean ====
section
/-! DEFINITION. What the operands of a command select: per-base constants, SIZE_MAX, the line ending, the alphabet ROMs FWD
and REV, the padding tables, the classes of a decode input byte, and the check of the buffers a launch supplies. -/

namespace Sys2Proof.Machine

/-! Constants of a base (00_scope.md R6). -/

/-- `sw`, bits per character (R6). -/
def symbolWidth : Base → Nat
  | .b16 => 4
  | .b32 => 5
  | .b64 => 6

/-- `bpg`, bytes per group (R6). -/
def bytesPerGroup : Base → Nat
  | .b16 => 1
  | .b32 => 5
  | .b64 => 3

/-- `cpg`, characters per group (R6). -/
def charsPerGroup : Base → Nat
  | .b16 => 2
  | .b32 => 8
  | .b64 => 4

/-- `SIZE_MAX = 2^SIZE_W - 1` (00_scope.md R8). -/
def sizeMax (sizeW : Nat) : Nat := 2 ^ sizeW - 1

/-- The line ending: the first `le_len` bytes of (`le0`, `le1`) (30_encoding.md R98). -/
def lineEnding (d : Operands) : List Byte := [d.le0, d.le1].take d.leLen

/-! The alphabets. -/

/-- The character `v` places after `c`. -/
def charFrom (c v : Nat) : Byte := BitVec.ofNat 8 (c + v)

/-- FWD: the character for symbol value `v`, none past the end of the table (30_encoding.md R103 to R108). -/
def fwd : Base → Bool → Nat → Option Byte
  | .b16, false, v =>
    if v < 10 then some (charFrom 0x30 v) else if v < 16 then some (charFrom 0x41 (v - 10)) else none
  | .b16, true, v =>
    if v < 10 then some (charFrom 0x30 v) else if v < 16 then some (charFrom 0x61 (v - 10)) else none
  | .b32, false, v =>
    if v < 26 then some (charFrom 0x41 v) else if v < 32 then some (charFrom 0x32 (v - 26)) else none
  | .b32, true, v =>
    if v < 10 then some (charFrom 0x30 v) else if v < 32 then some (charFrom 0x41 (v - 10)) else none
  | .b64, alt, v =>
    if v < 26 then some (charFrom 0x41 v)
    else if v < 52 then some (charFrom 0x61 (v - 26))
    else if v < 62 then some (charFrom 0x30 (v - 52))
    else if v = 62 then some (if alt then 0x2D else 0x2B)
    else if v = 63 then some (if alt then 0x5F else 0x2F)
    else none

/-- A FWD read by the encoder: `FWD[base][alt][v]`. -/
def fwdRead (base : Base) (alt : Bool) (v : Nat) : Except Fault Byte :=
  match fwd base alt v with
  | some c => .ok c
  | none => .error .fwdIndexNotDefined

/-- The value of byte `c` in the range of `n` bytes from `lo` on, counted from `v0`; none outside the range. -/
def inRange (c : Byte) (lo n v0 : Nat) : Option Byte :=
  if lo ≤ c.toNat ∧ c.toNat < lo + n then some (BitVec.ofNat 8 (v0 + (c.toNat - lo))) else none

/-- The ranges of the reverse tables as R109 writes them out: (first byte, number of bytes, first value). -/
def revRanges : Base → Bool → List (Nat × Nat × Nat)
  | .b16, _ => [(0x30, 10, 0), (0x41, 6, 10), (0x61, 6, 10)]
  | .b32, false => [(0x41, 26, 0), (0x32, 6, 26)]
  | .b32, true => [(0x30, 10, 0), (0x41, 22, 10)]
  | .b64, false => [(0x41, 26, 0), (0x61, 26, 26), (0x30, 10, 52), (0x2B, 1, 62), (0x2F, 1, 63)]
  | .b64, true => [(0x41, 26, 0), (0x61, 26, 26), (0x30, 10, 52), (0x2D, 1, 62), (0x5F, 1, 63)]

/-- REV: the symbol value of byte `c`, or INVALID (30_encoding.md R109). -/
def rev (base : Base) (alt : Bool) (c : Byte) : Byte :=
  ((revRanges base alt).findSome? fun r => inRange c r.1 r.2.1 r.2.2).getD Config.invalid

/-! The padding tables. -/

/-- `PadCount(base, r)` for `r = in_len mod bpg` (30_encoding.md R110); the entries not listed are those of `r = 0`. -/
def padCount : Base → Nat → Nat
  | .b16, _ => 0
  | .b32, r => if r = 1 then 6 else if r = 2 then 4 else if r = 3 then 3 else if r = 4 then 1 else 0
  | .b64, r => if r = 1 then 2 else if r = 2 then 1 else 0

/-- `Required(base, g)`; none where `g` has no legal meaning (30_encoding.md R111). -/
def required : Base → Nat → Option Nat
  | .b16, g => if g = 0 then some 0 else none
  | .b32, g =>
    if g = 0 then some 0 else if g = 2 then some 6 else if g = 4 then some 4 else if g = 5 then some 3
    else if g = 7 then some 1 else none
  | .b64, g => if g = 0 then some 0 else if g = 2 then some 2 else if g = 3 then some 1 else none

/-! The classes of a decode input byte. -/

/-- The whitespace set WS (30_encoding.md R113). -/
def isWhitespace (c : Byte) : Bool :=
  c == 0x09 || c == 0x0A || c == 0x0B || c == 0x0C || c == 0x0D || c == 0x20

/-- `IsSkip(c)` (30_encoding.md R113). -/
def isSkip (d : Operands) (c : Byte) : Bool :=
  isWhitespace c || (decide (1 ≤ d.leLen) && c == d.le0) || (decide (d.leLen = 2) && c == d.le1)

/-- The four classes of R114. -/
inductive ByteClass where
  | skip
  | pad
  | sym (v : Nat)
  | bad
  deriving DecidableEq, Repr

/-- The class of a decode input byte, tested in the order of 30_encoding.md R114. -/
def classify (d : Latched) (c : Byte) : ByteClass :=
  if isSkip d.toOperands c then .skip
  else if c = Config.padChar then .pad
  else if rev d.base d.alt c ≠ Config.invalid then .sym (rev d.base d.alt c).toNat
  else .bad

/-! The buffers of a launch. -/

/-- Two regions share storage. -/
def Region.overlaps (a b : Region) : Bool :=
  decide (0 < a.size) && decide (0 < b.size) && decide (a.base < b.base + b.size) && decide (b.base < a.base + a.size)

/-- A present flag needs a buffer behind it (70_reset_and_hazards.md R286), of at least the stated length (R287). -/
def bufferRefusal (present : Bool) (buf : Option Region) (len : Nat) : Option Refusal :=
  if present then
    match buf with
    | none => some .missingBuffer
    | some r => if r.size < len then some .overstatedLength else none
  else none

/-- Both buffers present must not overlap in storage (70_reset_and_hazards.md R289): no byte of IN, which is `in_len` bytes,
is a byte of OUT, which is `out_cap` bytes (20_memory.md R60, R61, R69). -/
def aliasRefusal (d : Operands) (i o : Option Region) : Option Refusal :=
  match i, o with
  | some a, some b =>
    if d.inPresent && d.outPresent && Region.overlaps ⟨a.base, d.inLen⟩ ⟨b.base, d.outCap⟩ then some .aliasedBuffers else none
  | _, _ => none

/-- Why a launch of ENC or DEC is outside the spec, if it is (R286, R287, R289). -/
def launchRefusal (d : Operands) (s : State) : Option Refusal :=
  match bufferRefusal d.inPresent s.inBuf d.inLen with
  | some r => some r
  | none =>
    match bufferRefusal d.outPresent s.outBuf d.outCap with
    | some r => some r
    | none => aliasRefusal d s.inBuf s.outBuf

end Sys2Proof.Machine
end

