-- ==== Sys2Proof/Machine/Flags.lean ====
section
/-! DEFINITION. What behaves like a flag (10_state.md R41): the padding-seen condition, and the status register with its
codes (60_exceptions.md R240). The engine has no condition codes. -/

namespace Sys2Proof.Machine

/-- "padding seen": `npad > 0` (10_state.md R28, R41). -/
def paddingSeen (s : State) : Bool := decide (0 < s.work.npad)

/-- The four-bit code of a status (60_exceptions.md R240). -/
def Status.code : Status → BitVec 4
  | .success => 0
  | .nullOrMissingArgument => 1
  | .bufferTooSmall => 2
  | .invalidCharacter => 3
  | .invalidPadding => 4
  | .invalidLength => 5
  | .inputTooLarge => 6
  | .allocationFailure => 7
  | .invalidInput => 8

/-- `PadStep`: `npad <- min(npad + 1, 7)` (42_decode.md R195). -/
def padStep (s : State) : State :=
  s.withWork { s.work with npad := min (s.work.npad + 1) 7 }

end Sys2Proof.Machine
end

