-- ==== Sys2Proof/Machine/Size.lean ====
section
/-! DEFINITION. The Size Calculator: `EncSize` and `DecSize` (40_size.md R131, R132) and the CHECK step of the size
commands (R143). -/

namespace Sys2Proof.Machine

/-- The number of alphabet symbols for `n` input bytes: `s = ceil(8 n / sw)` (R131 step 2). -/
def symbolCount (base : Base) (n : Nat) : Nat := ceilDiv (n * 8) (symbolWidth base)

/-- `N`: symbols and padding (R131 step 3). -/
def charCount (base : Base) (usePadding : Bool) (n : Nat) : Nat :=
  if usePadding then roundUp (symbolCount base n) (charsPerGroup base) else symbolCount base n

/-- `k`: the number of line endings among `N` characters (R131 step 4). -/
def lineBreaks (lineLength chars : Nat) : Nat := if 0 < lineLength then chars / lineLength else 0

/-- `EncSize`, none for InputTooLarge (R131). -/
def encSize (sizeW : Nat) (base : Base) (usePadding nulTerm : Bool) (leLen lineLength n : Nat) : Option Nat :=
  if sizeMax sizeW < n * 8 then none
  else
    let chars := charCount base usePadding n
    let total := chars + lineBreaks lineLength chars * leLen + bitOf nulTerm
    if sizeMax sizeW < total then none else some total

/-- `DecSize`, none for InputTooLarge (R132). -/
def decSize (sizeW : Nat) (base : Base) (n : Nat) : Option Nat :=
  if sizeMax sizeW < n * symbolWidth base then none else some (ceilDiv (n * symbolWidth base) 8)

/-- `EncSize` of a latched descriptor. -/
def Latched.encSize (sizeW : Nat) (d : Latched) : Option Nat :=
  Machine.encSize sizeW d.base d.usePadding d.nulTerm d.leLen d.lineLength d.inLen

/-- `DecSize` of a latched descriptor. -/
def Latched.decSize (sizeW : Nat) (d : Latched) : Option Nat := Machine.decSize sizeW d.base d.inLen

/-- The number of padding characters an encode appends (41_encode.md R157, 30_encoding.md R110). -/
def Latched.pads (d : Latched) : Nat :=
  if d.usePadding then padCount d.base (d.inLen % bytesPerGroup d.base) else 0

/-- The end of a size command: the size, or InputTooLarge (R143). -/
def sizeResult (r : Option Nat) (s : State) : State :=
  match r with
  | none => raise .inputTooLarge s
  | some n => finish n s

/-- CHECK of ENCSIZE (R143). -/
def encSizeCheck (s : State) : State := sizeResult (s.desc.encSize s.sizeW) s

/-- CHECK of DECSIZE (R143). -/
def decSizeCheck (s : State) : State := sizeResult (s.desc.decSize s.sizeW) s

/-- The argument, size and buffer tests that ENC and DEC share, in this order (41_encode.md R151, 42_decode.md R191): the
status that ends the command, or none when they pass. -/
def checkStatus (size : Option Nat) (d : Operands) : Option Status :=
  if d.inPresent = false ∨ d.outPresent = false then some .nullOrMissingArgument
  else
    match size with
    | none => some .inputTooLarge
    | some t => if d.outCap < t then some .bufferTooSmall else none

end Sys2Proof.Machine
end

