-- ==== Sys2Proof/Machine/Dec.lean ====
section
/-! DEFINITION. The phases of a decode command (42_decode.md R191 to R198). -/

namespace Sys2Proof.Machine

/-- Initialisation (R192); `col` is not DEC's register (10_state.md R46). -/
def decInit (s : State) : State :=
  s.withWork { s.work with acc := 0, nbits := 0, inPos := 0, outPos := 0, gpos := 0, npad := 0 }

/-- CHECK (R191). -/
def decCheck (s : State) : State :=
  match checkStatus (s.desc.decSize s.sizeW) s.desc.toOperands with
  | some st => raise st s
  | none => (decInit s).withPhase .body

/-- `Extract()` (R197). -/
def extract (s : State) : Except Fault State :=
  if 8 ≤ s.work.nbits then do
    let t ← putOut ((s.work.acc >>> (s.work.nbits - 8)).setWidth 8) s
    let n := t.work.nbits - 8
    .ok (t.withWork { t.work with nbits := n, acc := t.work.acc &&& accMask n })
  else .ok s

/-- `SymStep(v)` (R196). -/
def symStep (v : Nat) (s : State) : Except Fault State :=
  if paddingSeen s then .ok (raise .invalidPadding s)
  else extract (s.withWork { s.work with
    acc := (s.work.acc <<< symbolWidth s.desc.base) ||| BitVec.ofNat 13 v
    nbits := s.work.nbits + symbolWidth s.desc.base
    gpos := (s.work.gpos + 1) % charsPerGroup s.desc.base })

/-- What a BODY step does with a byte of each class (R193 to R196). -/
def decByte : ByteClass → State → Except Fault State
  | .skip, s => .ok s
  | .pad, s => .ok (padStep s)
  | .bad, s => .ok (raise .invalidCharacter s)
  | .sym v, s => symStep v s

/-- BODY (R193): consume one input byte, or move on at the end of the input. -/
def decBody (s : State) : Except Fault State :=
  if s.work.inPos = s.desc.inLen then .ok (s.withPhase .tail)
  else do
    let c ← memReadIn s s.work.inPos
    decByte (classify s.desc c) (s.withWork { s.work with inPos := s.work.inPos + 1 })

/-- The last part of TAIL, after the length and padding tests: the strict test, then Success (R198 steps 3 and 4). -/
def decEnd (s : State) : State :=
  if s.desc.strict ∧ s.work.acc ≠ 0 then raise .invalidInput s
  else finish s.work.outPos (s.withWork { s.work with acc := 0, nbits := 0 })

/-- TAIL, the end-of-input checks in their order (R198). -/
def decTail (s : State) : Except Fault State :=
  if symbolWidth s.desc.base ≤ s.work.nbits then .ok (raise .invalidLength s)
  else if paddingSeen s ∨ s.desc.usePadding then
    match required s.desc.base s.work.gpos with
    | none => .error .requiredNotDefined
    | some r => if s.work.npad ≠ r then .ok (raise .invalidPadding s) else .ok (decEnd s)
  else .ok (decEnd s)

end Sys2Proof.Machine
end

