-- ==== Sys2Proof/Machine/Enc.lean ====
section
/-! DEFINITION. The phases of an encode command (41_encode.md R151 to R158). -/

namespace Sys2Proof.Machine

/-- Initialisation (R152); `gpos` and `npad` are not ENC's registers (10_state.md R46). -/
def encInit (s : State) : State :=
  s.withWork { s.work with acc := 0, nbits := 0, inPos := 0, outPos := 0, col := 0 }

/-- CHECK (R151). -/
def encCheck (s : State) : State :=
  match checkStatus (s.desc.encSize s.sizeW) s.desc.toOperands with
  | some st => raise st s
  | none => (encInit s).withPhase .body

/-- The line-wrapping half of `Emit` (R153): count the character just written, and at `line_length` write the line ending
and start a new line. -/
def wrapLine (s : State) : Except Fault State :=
  if s.desc.lineLength = 0 then .ok s
  else if s.work.col + 1 = s.desc.lineLength then do
    let t ← putAll (lineEnding s.desc.toOperands) s
    .ok (t.withWork { t.work with col := 0 })
  else .ok (s.withWork { s.work with col := s.work.col + 1 })

/-- `Emit(c)` (R153). -/
def emit (c : Byte) (s : State) : Except Fault State := do
  let t ← putOut c s
  wrapLine t

/-- Emission of symbol value `v`: `Emit(FWD[base][alt][v])`. -/
def emitSymbol (v : Nat) (s : State) : Except Fault State := do
  let c ← fwdRead s.desc.base s.desc.alt v
  emit c s

/-- The top `sw` bits of the accumulator (R155). -/
def topSymbol (s : State) : Nat :=
  ((s.work.acc >>> (s.work.nbits - symbolWidth s.desc.base)) &&& accMask (symbolWidth s.desc.base)).toNat

/-- `Drain()` with a bound on the number of turns (R155). -/
def drainLoop : Nat → State → Except Fault State
  | 0, s => .ok s
  | fuel + 1, s =>
    if symbolWidth s.desc.base ≤ s.work.nbits then do
      let t ← emitSymbol (topSymbol s) s
      let n := t.work.nbits - symbolWidth t.desc.base
      drainLoop fuel (t.withWork { t.work with nbits := n, acc := t.work.acc &&& accMask n })
    else .ok s

/-- `Drain()` (R155); each turn removes at least one bit, so `nbits` bounds the turns. -/
def drain (s : State) : Except Fault State := drainLoop s.work.nbits s

/-- BODY (R154): consume one input byte, or move on at the end of the input. -/
def encBody (s : State) : Except Fault State :=
  if s.work.inPos = s.desc.inLen then .ok (s.withPhase .tail)
  else do
    let b ← memReadIn s s.work.inPos
    drain (s.withWork { s.work with
      inPos := s.work.inPos + 1
      acc := (s.work.acc <<< 8) ||| b.setWidth 13
      nbits := s.work.nbits + 8 })

/-- The final partial symbol, its low bits zero (R156). -/
def tailSymbol (s : State) : Nat :=
  ((s.work.acc <<< (symbolWidth s.desc.base - s.work.nbits)) &&& accMask (symbolWidth s.desc.base)).toNat

/-- TAIL (R156). -/
def encTail (s : State) : Except Fault State :=
  if 0 < s.work.nbits then do
    let t ← emitSymbol (tailSymbol s) s
    .ok ((t.withWork { t.work with acc := 0, nbits := 0 }).withPhase .pad)
  else .ok (s.withPhase .pad)

/-- `Emit('=')` repeated. -/
def emitPads : Nat → State → Except Fault State
  | 0, s => .ok s
  | n + 1, s => do
    let t ← emit Config.padChar s
    emitPads n t

/-- PAD (R157). -/
def encPad (s : State) : Except Fault State := do
  let t ← emitPads s.desc.pads s
  .ok (t.withPhase .term)

/-- TERM (R158): the null marker at `out_pos`, which is not incremented, and the result. -/
def encTerm (s : State) : Except Fault State := do
  let t ← if s.desc.nulTerm then memWriteOut s.work.outPos 0x00 s else .ok s
  .ok (finish t.work.outPos t)

end Sys2Proof.Machine
end

