-- ==== Sys2Proof/Machine/Sequencer.lean ====
section
/-! DEFINITION. The sequencer (10_state.md R27): one tick for each step of the spec's refinement, the run of a command to
DONE, and the shape every command's meaning shares. -/

namespace Sys2Proof.Machine

/-- One step of the sequencer (R27). In IDLE and DONE the engine waits. PAD and TERM are ENC's alone, and a size command
has no phase but CHECK. -/
def tick (s : State) : Except Fault State :=
  match s.phase, s.desc.op with
  | .idle, _ => .ok s
  | .done, _ => .ok s
  | .check, .encSize => .ok (encSizeCheck s)
  | .check, .decSize => .ok (decSizeCheck s)
  | .check, .enc => .ok (encCheck s)
  | .check, .dec => .ok (decCheck s)
  | .body, .enc => encBody s
  | .body, .dec => decBody s
  | .tail, .enc => encTail s
  | .tail, .dec => decTail s
  | .pad, .enc => encPad s
  | .term, .enc => encTerm s
  | _, _ => .error .phaseNotOfCommand

/-- At most `n` ticks, stopping when no command is in flight. -/
def runTicks : Nat → State → Except Fault State
  | 0, s => .ok s
  | n + 1, s =>
    if s.phase.inFlight then do
      let t ← tick s
      runTicks n t
    else .ok s

/-- A number of ticks that takes any command from CHECK to DONE: `in_len + 6` steps with issue is the most R284 counts. -/
def tickBound (s : State) : Nat := s.desc.inLen + 6

/-- A run of the sequencer as the outcome of a step. -/
def outcomeOf : Except Fault State → Host.Outcome State Fault Refusal
  | .ok s => .next s
  | .error e => .fault e

/-- The command in flight runs to DONE; the host has no move meanwhile (70_reset_and_hazards.md R288). -/
def runToDone (s : State) : Host.Outcome State Fault Refusal := outcomeOf (runTicks (tickBound s) s)

/-- Why a launch is outside the spec, if it is: ENC and DEC take buffers, and the host owes them what
70_reset_and_hazards.md R286, R287 and R289 say (U15); the size commands take none. -/
def launchDuty (op : Op) (d : Operands) (s : State) : Option Refusal :=
  match op with
  | .encSize => none
  | .decSize => none
  | .enc => launchRefusal d s
  | .dec => launchRefusal d s

/-- What every command shares. It is issued only in IDLE or DONE (10_state.md R40), never with reserved operands
(30_encoding.md R99), never against the host's duties, in this order (60_exceptions.md R251); then it runs from CHECK to
DONE as one step, the level the host sees (00_scope.md R16). -/
def runCommand (op : Op) (base : Base) (alt : Bool) (d : Operands) (s : State) : Host.Outcome State Fault Refusal :=
  if s.phase.inFlight then .refused .engineBusy
  else
    match d.reject s.sizeW with
    | some e => .refused (.reservedDescriptor e)
    | none =>
      match launchDuty op d s with
      | some r => .refused r
      | none => runToDone (issue op base alt d s)

end Sys2Proof.Machine
end

