-- ==== Sys2Proof/Machine/DecCommands.lean ====
section
/-! DEFINITION. The meanings of the six decode commands (42_decode.md R200 to R205). -/

namespace Sys2Proof.Machine

/-- DEC.B16: decode, base16, upper-case table (both cases accepted) (R200). -/
def execDecB16 (d : Operands) (s : State) : Host.Outcome State Fault Refusal :=
  runCommand .dec .b16 false d s

/-- DEC.B16L: decode, base16, lower-case table (both cases accepted) (R201). -/
def execDecB16L (d : Operands) (s : State) : Host.Outcome State Fault Refusal :=
  runCommand .dec .b16 true d s

/-- DEC.B32: decode, base32 standard (R202). -/
def execDecB32 (d : Operands) (s : State) : Host.Outcome State Fault Refusal :=
  runCommand .dec .b32 false d s

/-- DEC.B32HEX: decode, base32hex (R203). -/
def execDecB32Hex (d : Operands) (s : State) : Host.Outcome State Fault Refusal :=
  runCommand .dec .b32 true d s

/-- DEC.B64: decode, base64 standard (R204). -/
def execDecB64 (d : Operands) (s : State) : Host.Outcome State Fault Refusal :=
  runCommand .dec .b64 false d s

/-- DEC.B64URL: decode, base64 url-safe (R205). -/
def execDecB64Url (d : Operands) (s : State) : Host.Outcome State Fault Refusal :=
  runCommand .dec .b64 true d s

end Sys2Proof.Machine
end

