-- ==== Sys2Proof/Machine/EncCommands.lean ====
section
/-! DEFINITION. The meanings of the six encode commands (41_encode.md R160 to R165). -/

namespace Sys2Proof.Machine

/-- ENC.B16: encode, base16 upper-case hex (R160). -/
def execEncB16 (d : Operands) (s : State) : Host.Outcome State Fault Refusal :=
  runCommand .enc .b16 false d s

/-- ENC.B16L: encode, base16 lower-case hex (R161). -/
def execEncB16L (d : Operands) (s : State) : Host.Outcome State Fault Refusal :=
  runCommand .enc .b16 true d s

/-- ENC.B32: encode, base32 standard (R162). -/
def execEncB32 (d : Operands) (s : State) : Host.Outcome State Fault Refusal :=
  runCommand .enc .b32 false d s

/-- ENC.B32HEX: encode, base32hex (R163). -/
def execEncB32Hex (d : Operands) (s : State) : Host.Outcome State Fault Refusal :=
  runCommand .enc .b32 true d s

/-- ENC.B64: encode, base64 standard (R164). -/
def execEncB64 (d : Operands) (s : State) : Host.Outcome State Fault Refusal :=
  runCommand .enc .b64 false d s

/-- ENC.B64URL: encode, base64 url-safe (R165). -/
def execEncB64Url (d : Operands) (s : State) : Host.Outcome State Fault Refusal :=
  runCommand .enc .b64 true d s

end Sys2Proof.Machine
end

