-- ==== Sys2Proof/Machine/SizeCommands.lean ====
section
/-! DEFINITION. The meanings of the six size commands (40_size.md R134 to R139). -/

namespace Sys2Proof.Machine

/-- ENCSIZE.B16: base16 encode size (R134). -/
def execEncSizeB16 (alt : Bool) (d : Operands) (s : State) : Host.Outcome State Fault Refusal :=
  runCommand .encSize .b16 alt d s

/-- ENCSIZE.B32: base32 encode size (R135). -/
def execEncSizeB32 (alt : Bool) (d : Operands) (s : State) : Host.Outcome State Fault Refusal :=
  runCommand .encSize .b32 alt d s

/-- ENCSIZE.B64: base64 encode size (R136). -/
def execEncSizeB64 (alt : Bool) (d : Operands) (s : State) : Host.Outcome State Fault Refusal :=
  runCommand .encSize .b64 alt d s

/-- DECSIZE.B16: base16 decode size (R137). -/
def execDecSizeB16 (alt : Bool) (d : Operands) (s : State) : Host.Outcome State Fault Refusal :=
  runCommand .decSize .b16 alt d s

/-- DECSIZE.B32: base32 decode size (R138). -/
def execDecSizeB32 (alt : Bool) (d : Operands) (s : State) : Host.Outcome State Fault Refusal :=
  runCommand .decSize .b32 alt d s

/-- DECSIZE.B64: base64 decode size (R139). -/
def execDecSizeB64 (alt : Bool) (d : Operands) (s : State) : Host.Outcome State Fault Refusal :=
  runCommand .decSize .b64 alt d s

end Sys2Proof.Machine
end

