-- ==== Sys2Proof/Machine/Dispatch.lean ====
section
/-! DEFINITION. The dispatch of a command to its meaning, one arm per constructor of Instr. -/

namespace Sys2Proof.Machine

def exec (i : Instr) (s : State) : Host.Outcome State Fault Refusal :=
  match i with
  | .encSizeB16 alt d => Sys2Proof.Machine.execEncSizeB16 alt d s
  | .encSizeB32 alt d => Sys2Proof.Machine.execEncSizeB32 alt d s
  | .encSizeB64 alt d => Sys2Proof.Machine.execEncSizeB64 alt d s
  | .decSizeB16 alt d => Sys2Proof.Machine.execDecSizeB16 alt d s
  | .decSizeB32 alt d => Sys2Proof.Machine.execDecSizeB32 alt d s
  | .decSizeB64 alt d => Sys2Proof.Machine.execDecSizeB64 alt d s
  | .encB16 d => Sys2Proof.Machine.execEncB16 d s
  | .encB16L d => Sys2Proof.Machine.execEncB16L d s
  | .encB32 d => Sys2Proof.Machine.execEncB32 d s
  | .encB32Hex d => Sys2Proof.Machine.execEncB32Hex d s
  | .encB64 d => Sys2Proof.Machine.execEncB64 d s
  | .encB64Url d => Sys2Proof.Machine.execEncB64Url d s
  | .decB16 d => Sys2Proof.Machine.execDecB16 d s
  | .decB16L d => Sys2Proof.Machine.execDecB16L d s
  | .decB32 d => Sys2Proof.Machine.execDecB32 d s
  | .decB32Hex d => Sys2Proof.Machine.execDecB32Hex d s
  | .decB64 d => Sys2Proof.Machine.execDecB64 d s
  | .decB64Url d => Sys2Proof.Machine.execDecB64Url d s

end Sys2Proof.Machine
end

