-- ==== Sys2Proof/Machine/Whole.lean ====
section
/-! DEFINITION. The commands as whole functions of the descriptor and the input (41_encode.md R159, 42_decode.md R199),
written over bit strings with no accumulator, cursor or column. The machine runs the phases; the obligations state that
the two agree on every observable (00_scope.md R16). -/

namespace Sys2Proof.Machine

/-- The `w` bits of `v`, most significant first (20_memory.md R66). -/
def bitsOf (w v : Nat) : List Bool := (List.range w).map fun i => v.testBit (w - 1 - i)

/-- A bit string read as an unsigned number, its first bit the most significant. -/
def valueOf (bits : List Bool) : Nat := bits.foldl (fun a b => 2 * a + bitOf b) 0

/-- The values of `w` bits each, written one after the other. -/
def bitString (w : Nat) (vs : List Nat) : List Bool := vs.flatMap (bitsOf w)

/-- Piece `j` of a bit string cut into pieces of `w` bits from the front, the last one right-padded with zero bits. -/
def piece (w : Nat) (bits : List Bool) (j : Nat) : Nat :=
  let p := (bits.drop (j * w)).take w
  valueOf (p ++ List.replicate (w - p.length) false)

/-- `S`: all the pieces of `w` bits (R159). -/
def pieces (w : Nat) (bits : List Bool) : List Nat := (List.range (ceilDiv bits.length w)).map (piece w bits)

/-- `C`: the characters of the symbols, then the padding (R159). -/
def encChars (d : Latched) (input : List Byte) : List Byte :=
  (pieces (symbolWidth d.base) (bitString 8 (input.map BitVec.toNat))).filterMap (fwd d.base d.alt)
    ++ List.replicate d.pads Config.padChar

/-- `W`: the line ending inserted after every `lineLength`-th character, if `lineLength > 0` (R159). -/
def wrapText (lineLength : Nat) (ending chars : List Byte) : List Byte :=
  chars.zipIdx.flatMap fun ci => if 0 < lineLength ∧ (ci.2 + 1) % lineLength = 0 then ci.1 :: ending else [ci.1]

/-- The text an encode command writes. -/
def encText (d : Latched) (input : List Byte) : List Byte :=
  wrapText d.lineLength (lineEnding d.toOperands) (encChars d input)

/-- What a command leaves for the host: the bytes written from OUT index 0 on, `count`, `status`. -/
structure WholeResult where
  written : List Byte
  count   : Nat
  status  : Status
  deriving DecidableEq, Repr

/-- `Encode` (R159). -/
def wholeEncode (sizeW : Nat) (d : Latched) (input : List Byte) : WholeResult :=
  match checkStatus (d.encSize sizeW) d.toOperands with
  | some st => ⟨[], 0, st⟩
  | none => ⟨encText d input ++ (if d.nulTerm then [0x00] else []), (encText d input).length, .success⟩

/-- The symbol values of the SYM bytes. -/
def symValues (cs : List ByteClass) : List Nat :=
  cs.filterMap fun c => match c with
    | .skip => none
    | .pad => none
    | .sym v => some v
    | .bad => none

/-- Byte `e` ends the scan: it is BAD, or it is SYM with a PAD byte somewhere before it (R199). -/
def stopsAt (cs : List ByteClass) (e : Nat) : Bool :=
  match cs[e]? with
  | some .bad => true
  | some (.sym _) => (cs.take e).contains .pad
  | some .skip => false
  | some .pad => false
  | none => false

/-- `e`: the first index that ends the scan (R199). -/
def firstStop (cs : List ByteClass) : Option Nat := (List.range cs.length).find? (stopsAt cs)

/-- The first `floor(k * sw / 8)` bytes of the bit string of `k` symbol values (R199). -/
def decodedBytes (w : Nat) (vs : List Nat) : List Byte :=
  (List.range (vs.length * w / 8)).map fun j => BitVec.ofNat 8 (piece 8 (bitString w vs) j)

/-- The bits of the symbols that fill no whole byte: the last `(k * sw) mod 8` bits (R199). -/
def leftoverBits (w : Nat) (vs : List Nat) : List Bool := (bitString w vs).drop (vs.length * w / 8 * 8)

/-- The end-of-input tests over the whole input (R199): the status of a decode whose scan reached the end. -/
def endStatus (d : Latched) (cs : List ByteClass) : Status :=
  let vs := symValues cs
  let w := symbolWidth d.base
  let npad := min (cs.count .pad) 7
  if w ≤ vs.length * w % 8 then .invalidLength
  else if (0 < npad ∨ d.usePadding) ∧ some npad ≠ required d.base (vs.length % charsPerGroup d.base) then .invalidPadding
  else if d.strict ∧ true ∈ leftoverBits w vs then .invalidInput
  else .success

/-- `Decode` (R199). -/
def wholeDecode (sizeW : Nat) (d : Latched) (input : List Byte) : WholeResult :=
  match checkStatus (d.decSize sizeW) d.toOperands with
  | some st => ⟨[], 0, st⟩
  | none =>
    let cs := input.map (classify d)
    let w := symbolWidth d.base
    match firstStop cs with
    | some e =>
      ⟨decodedBytes w (symValues (cs.take e)), 0, if cs[e]? = some .bad then .invalidCharacter else .invalidPadding⟩
    | none =>
      let bytes := decodedBytes w (symValues cs)
      ⟨bytes, if endStatus d cs = .success then bytes.length else 0, endStatus d cs⟩

/-- The input buffer's bytes, index 0 first. -/
def inputBytes (s : State) (n : Nat) : List Byte :=
  match s.inBuf with
  | none => []
  | some r => Memory.readList s.mem r.base n

/-- The storage with the bytes of `bs` at OUT indices 0 on. -/
def outWritten (s : State) (bs : List Byte) : Memory :=
  match s.outBuf with
  | none => s.mem
  | some r => Memory.writeList s.mem r.base bs

/-! The state a command ends in. -/

/-- A command of descriptor `d` is DONE with result `r` and working registers `w`; every field not named is as before. -/
def commandEnd (d : Latched) (r : WholeResult) (w : Working) (s : State) : State :=
  { s with
    phase := .done
    desc := d
    work := w
    count := r.count
    status := r.status
    done := true
    mem := outWritten s r.written }

/-- The size a size command computes (40_size.md R131, R132) as its result (R143). -/
def sizeWhole (r : Option Nat) : WholeResult :=
  match r with
  | none => ⟨[], 0, .inputTooLarge⟩
  | some n => ⟨[], n, .success⟩

/-- The state ENCSIZE ends in: no working register changes and no byte is written (R143). -/
def encSizeEnd (d : Latched) (s : State) : State := commandEnd d (sizeWhole (d.encSize s.sizeW)) s.work s

/-- The state DECSIZE ends in: no working register changes and no byte is written (R143). -/
def decSizeEnd (d : Latched) (s : State) : State := commandEnd d (sizeWhole (d.decSize s.sizeW)) s.work s

/-- The working registers an encode leaves that passed CHECK (41_encode.md R152 to R158): no bit pending, both cursors at
their ends, the column of the last line; `gpos` and `npad` are not ENC's. -/
def encodeWork (d : Latched) (input : List Byte) (w : Working) : Working :=
  { w with
    acc := 0
    nbits := 0
    inPos := d.inLen
    outPos := (encText d input).length
    col := if d.lineLength = 0 then 0 else (encChars d input).length % d.lineLength }

/-- The state ENC ends in. -/
def encodeEnd (d : Latched) (s : State) : State :=
  let input := inputBytes s d.inLen
  commandEnd d (wholeEncode s.sizeW d input)
    (match checkStatus (d.encSize s.sizeW) d.toOperands with
      | some _ => s.work
      | none => encodeWork d input s.work) s

/-- The working registers after `i` consumed input bytes, the accepted ones of classes `cs` (42_decode.md R192 to R197);
`col` is not DEC's. -/
def decodeWork (d : Latched) (i : Nat) (cs : List ByteClass) (w : Working) : Working :=
  let bits := leftoverBits (symbolWidth d.base) (symValues cs)
  { w with
    acc := BitVec.ofNat 13 (valueOf bits)
    nbits := bits.length
    inPos := i
    outPos := (decodedBytes (symbolWidth d.base) (symValues cs)).length
    gpos := (symValues cs).length % charsPerGroup d.base
    npad := min (cs.count .pad) 7 }

/-- The working registers a decode leaves that passed CHECK: those at the byte that ended the scan, or those at the end of
the input, the leftover bits cleared on Success only (R198 step 4, 60_exceptions.md R252). -/
def decodeWorkEnd (d : Latched) (cs : List ByteClass) (w : Working) : Working :=
  match firstStop cs with
  | some e => decodeWork d (e + 1) (cs.take e) w
  | none =>
    if endStatus d cs = .success then { decodeWork d d.inLen cs w with acc := 0, nbits := 0 }
    else decodeWork d d.inLen cs w

/-- The state DEC ends in. -/
def decodeEnd (d : Latched) (s : State) : State :=
  let input := inputBytes s d.inLen
  commandEnd d (wholeDecode s.sizeW d input)
    (match checkStatus (d.decSize s.sizeW) d.toOperands with
      | some _ => s.work
      | none => decodeWorkEnd d (input.map (classify d)) s.work) s

end Sys2Proof.Machine
end

