-- ==== Sys2Proof/Machine/HostPort.lean ====
section
/-! DEFINITION. The host's side of a step (70_reset_and_hazards.md R283 to R288): its next move, the presenting of a launch,
power-on reset between commands and during one (R280), and the pseudo-commands of 30_encoding.md R102. -/

namespace Sys2Proof.Machine

/-- What the host's next move asks of the engine: a command to run, or an outcome with no command in it. -/
inductive HostRequest where
  | run (i : Instr) (s : State)
  | settled (o : Host.Outcome State Fault Refusal)

/-- Power-on reset: the engine's registers as after reset; the storage, the remaining host moves, SIZE_W and the free-draw
index are not the engine's and stay (R280). -/
def powerOnReset (s : State) : State :=
  { State.reset with mem := s.mem, sizeW := s.sizeW, host := s.host, freeCtr := s.freeCtr }

/-- A launch stands at the engine's port: its buffers are supplied (20_memory.md R69), its descriptor is decoded
(30_encoding.md R99: a reserved one is refused). -/
def present (l : Launch) (s : State) : HostRequest :=
  match decode s.sizeW l.desc with
  | .error e => .settled (.refused (.reservedDescriptor e))
  | .ok i => .run i (s.withBuffers l.inBuf l.outBuf)

/-- The launch with the capacity the host has just allocated: `cap=<that count>` (30_encoding.md R102). -/
def Launch.withCapacity (n : Nat) (l : Launch) : Launch :=
  { l with desc := { l.desc with outCap := n }, outBuf := l.outBuf.map fun r => { r with size := n } }

/-- The second half of a pseudo-command, with the moves behind it: the host waits for `done = 1` (R283 step 5; the move stays
ahead, log 10), reads the result, stops on an error (R283 step 2), and else issues with the capacity just read. -/
def presentWithCount (l : Launch) (rest : List HostMove) (s : State) : HostRequest :=
  match readResult s with
  | none => .settled (.next s)
  | some (n, .success) => present (l.withCapacity n) (s.withHost rest)
  | some _ => .settled (.next (s.withHost rest))

/-- The bytes the issued command writes from OUT index 0 on when nothing stops it (41_encode.md R159, 42_decode.md R199);
a size command writes none (40_size.md R143). -/
def issuedOutput (s : State) : List Byte :=
  match s.desc.op with
  | .encSize => []
  | .decSize => []
  | .enc => (wholeEncode s.sizeW s.desc (inputBytes s s.desc.inLen)).written
  | .dec => (wholeDecode s.sizeW s.desc (inputBytes s s.desc.inLen)).written

/-- OUT after a reset abandoned the command: a free byte at every index the command could have written, every other byte
as before (R280, U18, 20_memory.md R62). -/
def abandonedMem (s : State) : Memory :=
  match s.outBuf with
  | none => s.mem
  | some r =>
    Memory.writeList s.mem r.base ((List.range (issuedOutput s).length).map (Config.abandonedByte s.freeCtr))

/-- A command issued and reset before it was done (R280, U18; log 8). -/
def abandon (i : Instr) (s : State) : Host.Outcome State Fault Refusal :=
  match launchDuty i.op i.operands s with
  | some r => .refused r
  | none =>
    let t := issue i.op i.base i.alt i.operands s
    .next (powerOnReset { t with mem := abandonedMem t, freeCtr := t.freeCtr + 1 })

/-- The host's next move, made while no command is in flight; with no move left the engine waits. -/
def hostRequest (s : State) : HostRequest :=
  match s.host with
  | [] => .settled (.next s)
  | .issue l :: rest => present l (s.withHost rest)
  | .issueWithCount l :: rest => presentWithCount l rest s
  | .store a b :: rest => .settled (.next ((s.withHost rest).withMem (Memory.write s.mem a b)))
  | .reset :: rest => .settled (.next (powerOnReset (s.withHost rest)))
  | .issueThenReset l :: rest =>
    match present l (s.withHost rest) with
    | .run i t => .settled (abandon i t)
    | .settled o => .settled o

/-- `ENCODE.<v>`: ENCSIZE of the base of `v`, then ENC with the size just read as its capacity (30_encoding.md R102). The size
command's alt bit, which it ignores, is the default 0 (10_state.md R32, as in 95_test_vectors.md P5; log 10). -/
def pseudoEncode (base : Base) (alt : Bool) (d : Operands) (i o : Option Region) : List HostMove :=
  [.issue ⟨encode (Instr.ofSelector .encSize base false d), none, none⟩,
   .issueWithCount ⟨encode (Instr.ofSelector .enc base alt d), i, o⟩]

/-- `DECODE.<v>`: DECSIZE of the base of `v`, then DEC with the size just read as its capacity (30_encoding.md R102); the size
command's alt bit is 0, as in `pseudoEncode` (log 10). -/
def pseudoDecode (base : Base) (alt : Bool) (d : Operands) (i o : Option Region) : List HostMove :=
  [.issue ⟨encode (Instr.ofSelector .decSize base false d), none, none⟩,
   .issueWithCount ⟨encode (Instr.ofSelector .dec base alt d), i, o⟩]

/-- A launch of the descriptor whose bits are `w`, with an IN buffer and an OUT buffer of exactly the lengths it states, one
after the other in storage. -/
def launchOfBits (sizeW w : Nat) : Launch :=
  let r := Descriptor.ofBits sizeW w
  ⟨r, some ⟨0, r.inLen⟩, some ⟨r.inLen, r.outCap⟩⟩

/-- The phase of an engine that has no command in flight: a command in flight is taken as over. -/
def Phase.settle : Phase → Phase
  | .idle => .idle
  | .check => .done
  | .body => .done
  | .tail => .done
  | .pad => .done
  | .term => .done
  | .done => .done

/-- The host's first move becomes the issue of a launch. -/
def placeLaunch (l : Launch) (s : State) : State :=
  (s.withHost (.issue l :: s.host)).withPhase s.phase.settle

end Sys2Proof.Machine
end

