-- ==== Sys2Proof/Machine/Step.lean ====
section
/-! DEFINITION. One step of the machine at the level the host sees (00_scope.md R16): a command in flight runs to DONE;
else the host makes its next move, and a command it issues runs from issue to DONE. -/

namespace Sys2Proof.Machine

/-- One step. -/
def step (s : State) : Host.Outcome State Fault Refusal :=
  if s.phase.inFlight then runToDone s
  else
    match hostRequest s with
    | .run i t => exec i t
    | .settled o => o

/-- The state whose next step issues and runs exactly the descriptor with bits `w`, every bit from `nbits` on zero: the
host's first move is its issue, with buffers of the lengths it states. -/
def State.withFetchWord (s : State) (nbits w : Nat) : State := placeLaunch (launchOfBits s.sizeW (w % 2 ^ nbits)) s

end Sys2Proof.Machine
end

