-- ==== Sys2Proof/Safety.lean ====
section
/-! DEFINITION. What counts as a safe run, in the terms the statements use: the invariant of the states between commands, the
invariant of the sequencer's ticks (10_state.md R45), and what a complying host supplies. -/

namespace Sys2Proof.Machine

/-- The bounds of the working registers: each value fits the register that 10_state.md R21 to R28 give it, and
`acc < 2^nbits` (R45). -/
structure Working.Bounded (sizeW : Nat) (w : Working) : Prop where
  nbits : w.nbits ≤ 13
  acc : w.acc.toNat < 2 ^ w.nbits
  inPos : w.inPos < 2 ^ sizeW
  outPos : w.outPos < 2 ^ sizeW
  col : w.col < 2 ^ sizeW
  gpos : w.gpos ≤ 7
  npad : w.npad ≤ 7

/-- The invariant of the states a host sees, those between two steps of the machine. -/
structure Inv (s : State) : Prop where
  /-- an address width that exists: SIZE_W is at least 8 (00_scope.md R8) -/
  sizeW : 8 ≤ s.sizeW
  /-- storage in its canonical form -/
  mem : Memory.wf s.mem = true
  /-- no command in flight -/
  phase : s.phase.inFlight = false
  /-- `done = 1` exactly in DONE (10_state.md R29, R44) -/
  done : s.done = decide (s.phase = .done)
  /-- the latched descriptor is one the decoder accepts: no reserved code, every field within its width (R30 to R39) -/
  desc : s.desc.toOperands.wellFormed s.sizeW = true
  /-- every working register within its width -/
  work : s.work.Bounded s.sizeW
  /-- `count` within its width (R29) -/
  count : s.count < 2 ^ s.sizeW
  /-- a status other than Success leaves `count = 0` (60_exceptions.md R252) -/
  failed : s.status ≠ .success → s.count = 0
  /-- the engine never ends a command with AllocationFailure (60_exceptions.md R249) -/
  noAlloc : s.status ≠ .allocationFailure

/-- A command with operands `d` can be issued: the engine is IDLE or DONE (10_state.md R40) and the operands are those of a
descriptor that is not reserved (30_encoding.md R90, R99). -/
structure Issuable (d : Operands) (s : State) : Prop where
  phase : s.phase = .idle ∨ s.phase = .done
  fits : d.wellFormed s.sizeW = true

/-- The host keeps its duties for an ENC or DEC of operands `d`: behind each present flag stands a buffer
(70_reset_and_hazards.md R286) of at least the stated length (R287), and no byte of IN, `in_len` bytes, is a byte of OUT, `out_cap` bytes (R289). -/
structure Complies (d : Operands) (s : State) : Prop where
  input : d.inPresent = true → ∃ r, s.inBuf = some r ∧ d.inLen ≤ r.size
  output : d.outPresent = true → ∃ r, s.outBuf = some r ∧ d.outCap ≤ r.size
  apart : d.inPresent = true → d.outPresent = true → ∀ a b, s.inBuf = some a → s.outBuf = some b →
    ∀ x, ¬ (a.base ≤ x ∧ x < a.base + d.inLen ∧ b.base ≤ x ∧ x < b.base + d.outCap)

/-- What a launch owes: `Complies` for the commands that take buffers, nothing for a size command (40_size.md R143). -/
def LaunchComplies (i : Instr) (s : State) : Prop := i.op = .enc ∨ i.op = .dec → Complies i.operands s

/-- Address `x` is one of the first `n` bytes of the output buffer. -/
def InOutput (s : State) (n x : Nat) : Prop := ∃ r, s.outBuf = some r ∧ r.base ≤ x ∧ x < r.base + n

/-- The byte at index `i` of the output buffer. -/
def outByte (s : State) (i : Nat) : Option Byte := s.outBuf.map fun r => Memory.read s.mem (r.base + i)

/-- Two outcomes are the same to the host (00_scope.md R16): both a next state, of equal `count`, `status` and storage. -/
def SameResult (o o' : Host.Outcome State Fault Refusal) : Prop :=
  ∃ t t', o = .next t ∧ o' = .next t' ∧ t.count = t'.count ∧ t.status = t'.status ∧ t.mem = t'.mem

/-- From an issued state `s`, the command is in flight for exactly `k` ticks and then DONE with `done = 1`
(70_reset_and_hazards.md R284). -/
def DoneAfter (k : Nat) (s : State) : Prop :=
  (∀ j < k, ∃ t, runTicks j s = .ok t ∧ t.phase.inFlight = true) ∧ ∃ t, runTicks k s = .ok t ∧ t.phase = .done ∧ t.done = true

/-- The state a size command leaves: `r` is its size, none for InputTooLarge; only the latched descriptor, the result
registers and the phase change (40_size.md R143, 10_state.md R46). -/
def sizeNext (d : Latched) (r : Option Nat) (s : State) : State :=
  { s with
    phase := .done
    desc := d
    done := true
    count := r.getD 0
    status := if r = none then .inputTooLarge else .success }

/-- `a` to `f` as the capital letters, every other byte itself. -/
def hexUpper (c : Byte) : Byte := if 0x61 ≤ c ∧ c ≤ 0x66 then c - 0x20 else c

/-- Two input bytes that differ at most in the letter case of a base16 digit: the same byte, or two bytes that are not skipped
(30_encoding.md R113: a line-ending byte may be a letter) and agree up to the case of A to F. -/
def SameDigit (d : Operands) (c c' : Byte) : Prop :=
  c = c' ∨ isSkip d c = false ∧ isSkip d c' = false ∧ hexUpper c = hexUpper c'

/-- The byte at index `k` of the input of a command on `s`, zero at and past `n` (41_encode.md R159: zero bits on the right). -/
def inputOrZero (s : State) (n k : Nat) : Nat := (((inputBytes s n)[k]?).getD 0).toNat

/-- Character `j` of the text of an encode that ended in `t` stands where the line endings before it leave it. -/
def textChar (d : Operands) (t : State) (j : Nat) : Option Byte :=
  outByte t (j + lineBreaks d.lineLength j * d.leLen)

end Sys2Proof.Machine
end

