-- ==== Sys2Proof/Certificates/Slice0/Obligations.lean ====
section
/-! DEFINITION. The statements for the provers. Each formalises the rules of the spec its docstring names; every statement
about a command names the six commands of its family one by one. -/

open Sys2Proof Sys2Proof.Machine

/-! Descriptors and the opcode table. -/

/-- Decoding the descriptor of a well-formed command gives the command back, every operand at every value a field admits
(30_encoding.md R90, R91, R96). -/
def Obligations.DecodeEncodeAgree : Prop :=
  ∀ (sizeW : Nat) (i : Instr), i.wellFormed sizeW = true → decode sizeW (encode i) = .ok i

/-- No two descriptors stand for one command, and what the decoder accepts is well formed (30_encoding.md R91, R99). -/
def Obligations.EncodeDecodeAgree : Prop :=
  ∀ (sizeW : Nat) (r : Descriptor) (i : Instr), decode sizeW r = .ok i → i.wellFormed sizeW = true ∧ encode i = r

/-- 30_encoding.md R99: a descriptor whose `base` field is 3, whose `le_len` field is 3 or whose bits 15:12 are not zero is
refused whichever command it would select, when the host issues it, when it issues it with the size just read, and when it
issues it and resets the engine; any other descriptor whose operands fit their ports is a command. -/
def Obligations.ReservedDescriptorRefused : Prop :=
  (∀ (s : State) (l : Launch) (rest : List HostMove), s.phase = .idle ∨ s.phase = .done →
    s.host = .issue l :: rest ∨ s.host = .issueThenReset l :: rest
      ∨ (s.host = .issueWithCount l :: rest ∧ s.done = true ∧ s.status = .success) →
    bitField l.desc.cmd 2 2 = 3 ∨ bitField l.desc.cmd 8 2 = 3 ∨ bitField l.desc.cmd 12 4 ≠ 0 →
    ∃ e, step s = .refused (.reservedDescriptor e) ∧ e ≠ .operandTooWide)
  ∧ ∀ (sizeW : Nat) (r : Descriptor), bitField r.cmd 2 2 ≠ 3 → bitField r.cmd 8 2 ≠ 3 → bitField r.cmd 12 4 = 0 →
    r.lineLen < 2 ^ sizeW → r.inLen < 2 ^ sizeW → r.outCap < 2 ^ sizeW → ∃ i, decode sizeW r = .ok i

/-- 30_encoding.md R96: a word that matches a row of the opcode table, its `le_len` legal, decodes to that row's command; the
row of a decoded command is in the table and matches; no word matches two rows; the command is the one CMD[4:0] selects. -/
def Obligations.TableSelectsCommand : Prop :=
  (∀ (sizeW : Nat) (r : Descriptor) (row : OpcodeRow), row ∈ opcodeTable → r.cmd &&& row.mask = row.pattern →
    bitField r.cmd 8 2 ≠ 3 → r.lineLen < 2 ^ sizeW → r.inLen < 2 ^ sizeW → r.outCap < 2 ^ sizeW →
    ∃ i, decode sizeW r = .ok i ∧ i.row = row)
  ∧ (∀ (sizeW : Nat) (r : Descriptor) (i : Instr), decode sizeW r = .ok i →
    i.row ∈ opcodeTable ∧ r.cmd &&& i.row.mask = i.row.pattern
    ∧ bitField r.cmd 0 2 = i.op.code ∧ bitField r.cmd 2 2 = i.base.code ∧ bitField r.cmd 4 1 = bitOf i.alt)
  ∧ ∀ (w : BitVec 32) (row row' : OpcodeRow), row ∈ opcodeTable → row' ∈ opcodeTable →
    w &&& row.mask = row.pattern → w &&& row'.mask = row'.pattern → row = row'

/-- Words written out from the field table of 30_encoding.md R91 decode to the commands they stand for: the default word of
ENC.B64 (R102), one word with every flag set, one for each family and base code. -/
def Obligations.WrittenWordsDecode : Prop :=
  decode 32 ⟨0x000A0D2A, 76, 3, 4⟩
    = .ok (.encB64 ⟨true, false, false, 1, true, true, 0x0A, 0x00, 76, 3, 4⟩)
  ∧ decode 32 ⟨0x0A0D0E1B, 0, 8, 6⟩
    = .ok (.decB64Url ⟨false, false, false, 2, true, true, 0x0D, 0x0A, 0, 8, 6⟩)
  ∧ decode 32 ⟨0x0A0D0EF7, 5, 16, 10⟩
    = .ok (.decB32Hex ⟨true, true, true, 2, true, true, 0x0D, 0x0A, 5, 16, 10⟩)
  ∧ decode 32 ⟨0x00000010, 0, 3, 0⟩
    = .ok (.encSizeB16 true ⟨false, false, false, 0, false, false, 0, 0, 0, 3, 0⟩)
  ∧ decode 32 ⟨0x000A0D25, 76, 16, 0⟩
    = .ok (.decSizeB32 false ⟨true, false, false, 1, true, true, 0x0A, 0x00, 76, 16, 0⟩)

/-- 30_encoding.md R100: a field a command does not read may hold any value without changing the command's result; base16
encoding and its size read `use_padding` to no effect. -/
def Obligations.IgnoredFieldsKeepResult : Prop :=
  (∀ (alt alt' : Bool) (d d' : Operands) (s : State), Issuable d s → Issuable d' s → d.usePadding = d'.usePadding →
    d.nulTerm = d'.nulTerm → d.leLen = d'.leLen → d.lineLength = d'.lineLength → d.inLen = d'.inLen →
    SameResult (exec (.encSizeB16 alt d) s) (exec (.encSizeB16 alt' d') s)
    ∧ SameResult (exec (.encSizeB32 alt d) s) (exec (.encSizeB32 alt' d') s)
    ∧ SameResult (exec (.encSizeB64 alt d) s) (exec (.encSizeB64 alt' d') s))
  ∧ (∀ (alt alt' : Bool) (d d' : Operands) (s : State), Issuable d s → Issuable d' s → d.inLen = d'.inLen →
    SameResult (exec (.decSizeB16 alt d) s) (exec (.decSizeB16 alt' d') s)
    ∧ SameResult (exec (.decSizeB32 alt d) s) (exec (.decSizeB32 alt' d') s)
    ∧ SameResult (exec (.decSizeB64 alt d) s) (exec (.decSizeB64 alt' d') s))
  ∧ (∀ (d : Operands) (s : State) (b : Bool), Issuable d s → Complies d s →
    SameResult (exec (.encB16 d) s) (exec (.encB16 { d with strict := b }) s)
    ∧ SameResult (exec (.encB16L d) s) (exec (.encB16L { d with strict := b }) s)
    ∧ SameResult (exec (.encB32 d) s) (exec (.encB32 { d with strict := b }) s)
    ∧ SameResult (exec (.encB32Hex d) s) (exec (.encB32Hex { d with strict := b }) s)
    ∧ SameResult (exec (.encB64 d) s) (exec (.encB64 { d with strict := b }) s)
    ∧ SameResult (exec (.encB64Url d) s) (exec (.encB64Url { d with strict := b }) s))
  ∧ (∀ (d : Operands) (s : State) (b : Bool) (n : Nat), Issuable d s → Complies d s → n < 2 ^ s.sizeW →
    SameResult (exec (.decB16 d) s) (exec (.decB16 { d with nulTerm := b, lineLength := n }) s)
    ∧ SameResult (exec (.decB16L d) s) (exec (.decB16L { d with nulTerm := b, lineLength := n }) s)
    ∧ SameResult (exec (.decB32 d) s) (exec (.decB32 { d with nulTerm := b, lineLength := n }) s)
    ∧ SameResult (exec (.decB32Hex d) s) (exec (.decB32Hex { d with nulTerm := b, lineLength := n }) s)
    ∧ SameResult (exec (.decB64 d) s) (exec (.decB64 { d with nulTerm := b, lineLength := n }) s)
    ∧ SameResult (exec (.decB64Url d) s) (exec (.decB64Url { d with nulTerm := b, lineLength := n }) s))
  ∧ ∀ (alt : Bool) (d : Operands) (s : State) (b : Bool), Issuable d s →
    SameResult (exec (.encSizeB16 alt d) s) (exec (.encSizeB16 alt { d with usePadding := b }) s)
    ∧ (Complies d s → SameResult (exec (.encB16 d) s) (exec (.encB16 { d with usePadding := b }) s)
      ∧ SameResult (exec (.encB16L d) s) (exec (.encB16L { d with usePadding := b }) s))

/-! The size commands. -/

/-- 40_size.md R134, R135, R136 with R143: ENCSIZE completes from every state that can issue it, with the number of
characters of the closed form, the line endings and the null marker, or InputTooLarge exactly when `in_len * 8` exceeds
SIZE_MAX (the second test never fires for SIZE_W of at least 8, R133); nothing else changes. CMD[3:0] selects the command. -/
def Obligations.EncSizeCompletes : Prop :=
  ∀ (alt : Bool) (d : Operands) (s : State), 8 ≤ s.sizeW → Issuable d s →
    let size (chars : Nat) : Option Nat :=
      if 2 ^ s.sizeW - 1 < d.inLen * 8 then none
      else some (chars + (if 0 < d.lineLength then chars / d.lineLength else 0) * d.leLen + if d.nulTerm then 1 else 0)
    bitField (encode (.encSizeB16 alt d)).cmd 0 4 = 0b0000 ∧ bitField (encode (.encSizeB32 alt d)).cmd 0 4 = 0b0100
    ∧ bitField (encode (.encSizeB64 alt d)).cmd 0 4 = 0b1000
    ∧ exec (.encSizeB16 alt d) s
      = .next (sizeNext (latch .encSize .b16 alt d) (size (2 * d.inLen)) s)
    ∧ exec (.encSizeB32 alt d) s
      = .next (sizeNext (latch .encSize .b32 alt d)
        (size (if d.usePadding then 8 * ceilDiv d.inLen 5 else ceilDiv (8 * d.inLen) 5)) s)
    ∧ exec (.encSizeB64 alt d) s
      = .next (sizeNext (latch .encSize .b64 alt d)
        (size (if d.usePadding then 4 * ceilDiv d.inLen 3 else ceilDiv (8 * d.inLen) 6)) s)

/-- 40_size.md R137, R138, R139 with R143: DECSIZE completes from every state that can issue it, with the rounded-up number
of bytes, or InputTooLarge exactly when `in_len * sw` exceeds SIZE_MAX; nothing else changes. CMD[3:0] selects the command. -/
def Obligations.DecSizeCompletes : Prop :=
  ∀ (alt : Bool) (d : Operands) (s : State), Issuable d s →
    let size (sw bytes : Nat) : Option Nat := if 2 ^ s.sizeW - 1 < d.inLen * sw then none else some bytes
    bitField (encode (.decSizeB16 alt d)).cmd 0 4 = 0b0001 ∧ bitField (encode (.decSizeB32 alt d)).cmd 0 4 = 0b0101
    ∧ bitField (encode (.decSizeB64 alt d)).cmd 0 4 = 0b1001
    ∧ exec (.decSizeB16 alt d) s
      = .next (sizeNext (latch .decSize .b16 alt d) (size 4 (ceilDiv d.inLen 2)) s)
    ∧ exec (.decSizeB32 alt d) s
      = .next (sizeNext (latch .decSize .b32 alt d) (size 5 (ceilDiv (5 * d.inLen) 8)) s)
    ∧ exec (.decSizeB64 alt d) s
      = .next (sizeNext (latch .decSize .b64 alt d) (size 6 (ceilDiv (3 * d.inLen) 4)) s)

/-- 40_size.md section 1, in part marked as derived: the size functions overflow exactly when the product `n * 8` or `n * sw` exceeds SIZE_MAX, for every
SIZE_W of at least 8; at 32 the last lengths that succeed are the ones the rule lists. -/
def Obligations.SizeOverflowBoundary : Prop :=
  (∀ (sizeW : Nat) (base : Base) (pad nul : Bool) (leLen lineLength n : Nat), 8 ≤ sizeW → leLen ≤ 2 →
    (encSize sizeW base pad nul leLen lineLength n = none ↔ (2 ^ sizeW - 1) / 8 < n)
    ∧ (decSize sizeW base n = none ↔ (2 ^ sizeW - 1) / symbolWidth base < n))
  ∧ ∀ (base : Base) (pad nul : Bool) (leLen lineLength n : Nat), leLen ≤ 2 →
    ((encSize 32 base pad nul leLen lineLength n).isSome = true ↔ n ≤ 536870911)
    ∧ ((decSize 32 .b16 n).isSome = true ↔ n ≤ 1073741823)
    ∧ ((decSize 32 .b32 n).isSome = true ↔ n ≤ 858993459)
    ∧ ((decSize 32 .b64 n).isSome = true ↔ n ≤ 715827882)

/-! The encode commands. -/

/-- 41_encode.md section 3, which the spec marks as derived from the steps, at the level of 00_scope.md R16: each ENC command completes, from every state that can issue it and
buffers a complying host supplies, in the state of the whole function `Encode`: status, `count`, the bytes of OUT, the working
registers, and every other field as before. That a command CHECK ends leaves the working registers as they were before issue
(10_state.md R44 gives them no value there) is the model's DESIGN CHOICE (log 7). -/
def Obligations.EncodeCompletes : Prop :=
  ∀ (d : Operands) (s : State), Issuable d s → Complies d s →
    exec (.encB16 d) s = .next (encodeEnd (latch .enc .b16 false d) s)
    ∧ exec (.encB16L d) s = .next (encodeEnd (latch .enc .b16 true d) s)
    ∧ exec (.encB32 d) s = .next (encodeEnd (latch .enc .b32 false d) s)
    ∧ exec (.encB32Hex d) s = .next (encodeEnd (latch .enc .b32 true d) s)
    ∧ exec (.encB64 d) s = .next (encodeEnd (latch .enc .b64 false d) s)
    ∧ exec (.encB64Url d) s = .next (encodeEnd (latch .enc .b64 true d) s)

/-- 41_encode.md R151, R152: the tests of CHECK in their order, each with the state it leaves; a command that raises in CHECK
reads and writes nothing; where none does, CHECK initialises the working registers and moves to BODY, and nothing fails
after it (R150). That the fields no rule gives a value there keep what they held before issue (`count` and `status` into BODY,
the working registers of a command that CHECK ends, 10_state.md R44) is the model's DESIGN CHOICE (log 7). -/
def Obligations.EncodeCheckOrder : Prop :=
  ∀ (d : Operands) (s : State), Issuable d s → Complies d s →
    let check (i : Instr) (base : Base) (alt : Bool) : Prop :=
      let size := encSize s.sizeW base d.usePadding d.nulTerm d.leLen d.lineLength d.inLen
      let raised (st : Status) : State :=
        { s with phase := .done, desc := latch .enc base alt d, done := true, count := 0, status := st }
      (d.inPresent = false ∨ d.outPresent = false → exec i s = .next (raised .nullOrMissingArgument))
      ∧ (d.inPresent = true → d.outPresent = true → size = none → exec i s = .next (raised .inputTooLarge))
      ∧ (d.inPresent = true → d.outPresent = true → ∀ t, size = some t → d.outCap < t →
        exec i s = .next (raised .bufferTooSmall))
      ∧ (d.inPresent = true → d.outPresent = true → ∀ t, size = some t → t ≤ d.outCap →
        tick (issue .enc base alt d s) = .ok { s with
            desc := latch .enc base alt d
            done := false
            phase := .body
            work := { s.work with acc := 0, nbits := 0, inPos := 0, outPos := 0, col := 0 } }
        ∧ ∃ u, exec i s = .next u ∧ u.status = .success)
    check (.encB16 d) .b16 false
    ∧ check (.encB16L d) .b16 true
    ∧ check (.encB32 d) .b32 false
    ∧ check (.encB32Hex d) .b32 true
    ∧ check (.encB64 d) .b64 false
    ∧ check (.encB64Url d) .b64 true

/-- Size exactness (40_size.md section 2, a law the spec marks as derived): when the size is not InputTooLarge and ENC runs with a capacity of at least it, ENC ends with Success and
`count` is the size less the null marker, the characters and line endings of R131. -/
def Obligations.EncodeSizeExact : Prop :=
  ∀ (d : Operands) (s : State), Issuable d s → Complies d s → d.inPresent = true → d.outPresent = true →
    let exact (i : Instr) (base : Base) : Prop :=
      ∀ t, encSize s.sizeW base d.usePadding d.nulTerm d.leLen d.lineLength d.inLen = some t → t ≤ d.outCap →
        ∃ u, exec i s = .next u ∧ u.status = .success ∧ u.count = t - (if d.nulTerm then 1 else 0)
          ∧ u.count = charCount base d.usePadding d.inLen
            + lineBreaks d.lineLength (charCount base d.usePadding d.inLen) * d.leLen
    exact (.encB16 d) .b16
    ∧ exact (.encB16L d) .b16
    ∧ exact (.encB32 d) .b32
    ∧ exact (.encB32Hex d) .b32
    ∧ exact (.encB64 d) .b64
    ∧ exact (.encB64Url d) .b64

/-- The frame of the ENC commands (10_state.md R46, 20_memory.md R62): outside the bytes of OUT it stores to (the text, and
the null marker behind it when asked for; none unless it ends with Success) every byte of storage is unchanged, and so are
`gpos`, `npad`, the buffers, the width, the host's moves and the free-draw index. -/
def Obligations.EncodeFrame : Prop :=
  ∀ (d : Operands) (s : State), Issuable d s → Complies d s →
    let frame (i : Instr) : Prop := ∃ t, exec i s = .next t
      ∧ (∀ a, ¬ InOutput s (if t.status = .success then t.count + (if d.nulTerm then 1 else 0) else 0) a →
        Memory.read t.mem a = Memory.read s.mem a)
      ∧ t.work.gpos = s.work.gpos ∧ t.work.npad = s.work.npad ∧ t.inBuf = s.inBuf ∧ t.outBuf = s.outBuf
      ∧ t.sizeW = s.sizeW ∧ t.host = s.host ∧ t.freeCtr = s.freeCtr
    frame (.encB16 d)
    ∧ frame (.encB16L d)
    ∧ frame (.encB32 d)
    ∧ frame (.encB32Hex d)
    ∧ frame (.encB64 d)
    ∧ frame (.encB64Url d)

/-- 41_encode.md R153: `Emit` writes the character at `out_pos`, which moves past it; with wrapping active it counts the
column, and at `line_length` writes the bytes of the line ending and starts a new line. Each clause asks for room for the
bytes it writes and no more. -/
def Obligations.EmitEffect : Prop :=
  ∀ (c : Byte) (s : State) (r : Region), s.outBuf = some r → s.desc.outPresent = true → s.work.outPos < s.desc.outCap →
    let a := r.base + s.work.outPos
    let m := Memory.write s.mem a c
    let left (mem : Memory) (n col : Nat) : State :=
      { s with mem := mem, work := { s.work with outPos := s.work.outPos + n, col := col } }
    (s.desc.lineLength = 0 → emit c s = .ok (left m 1 s.work.col))
    ∧ (0 < s.desc.lineLength → s.work.col + 1 ≠ s.desc.lineLength → emit c s = .ok (left m 1 (s.work.col + 1)))
    ∧ (0 < s.desc.lineLength → s.work.col + 1 = s.desc.lineLength → s.work.outPos + 1 + s.desc.leLen ≤ s.desc.outCap →
      (s.desc.leLen = 0 → emit c s = .ok (left m 1 0))
      ∧ (s.desc.leLen = 1 → emit c s = .ok (left (Memory.write m (a + 1) s.desc.le0) 2 0))
      ∧ (s.desc.leLen = 2 →
        emit c s = .ok (left (Memory.write (Memory.write m (a + 1) s.desc.le0) (a + 2) s.desc.le1) 3 0)))

/-- The placing of the line endings (41_encode.md R153): with line length `L > 0`, character `j` of the text stands behind one line ending for each full line
before it, and behind the last character of every full line stands the line ending, the last line included. -/
def Obligations.LineEndingsPlaced : Prop :=
  ∀ (lineLength : Nat) (ending chars : List Byte), 0 < lineLength →
    (wrapText lineLength ending chars).length = chars.length + chars.length / lineLength * ending.length
    ∧ (∀ j, j < chars.length →
      (wrapText lineLength ending chars)[j + j / lineLength * ending.length]? = chars[j]?)
    ∧ ∀ m k, 0 < m → m * lineLength ≤ chars.length → k < ending.length →
      (wrapText lineLength ending chars)[m * lineLength + (m - 1) * ending.length + k]? = ending[k]?

/-- 41_encode.md R160 and R161: each input byte yields two characters, its high half then its low half, whatever
`use_padding` is and wherever the lines end; the count is twice the length and the line endings. -/
def Obligations.EncodeB16Digits : Prop :=
  ∀ (d : Operands) (s : State), Issuable d s → Complies d s → Memory.wf s.mem = true →
    let digits (i : Instr) (alt : Bool) : Prop := ∀ t, exec i s = .next t → t.status = .success →
      t.count = 2 * d.inLen + lineBreaks d.lineLength (2 * d.inLen) * d.leLen
      ∧ ∀ k, k < d.inLen →
        let b := inputOrZero s d.inLen k
        textChar d t (2 * k) = fwd .b16 alt (b / 16)
        ∧ textChar d t (2 * k + 1) = fwd .b16 alt (b % 16)
    digits (.encB16 d) false ∧ digits (.encB16L d) true

/-- 41_encode.md R162 and R163: each group of five bytes yields eight characters, five bits each from the most significant
down; a final group of 1, 2, 3 or 4 bytes yields 2, 4, 5 or 7 characters and, with padding on, `=` up to eight. -/
def Obligations.EncodeB32Groups : Prop :=
  ∀ (d : Operands) (s : State), Issuable d s → Complies d s → Memory.wf s.mem = true →
    let groups (i : Instr) (alt : Bool) : Prop := ∀ t, exec i s = .next t → t.status = .success →
      ∀ g, 5 * g < d.inLen →
        let b (k : Nat) := inputOrZero s d.inLen (5 * g + k)
        let symbols := [b 0 / 8, b 0 % 8 * 4 + b 1 / 64, b 1 / 2 % 32, b 1 % 2 * 16 + b 2 / 16, b 2 % 16 * 2 + b 3 / 128,
          b 3 / 4 % 32, b 3 % 4 * 8 + b 4 / 32, b 4 % 32]
        let full := min 8 (ceilDiv (8 * (d.inLen - 5 * g)) 5)
        (∀ j, j < full → textChar d t (8 * g + j) = symbols[j]?.bind (fwd .b32 alt))
        ∧ (d.usePadding = true → ∀ j, full ≤ j → j < 8 → textChar d t (8 * g + j) = some 0x3D)
    groups (.encB32 d) false ∧ groups (.encB32Hex d) true

/-- 41_encode.md R164 and R165: each group of three bytes yields four characters, six bits each from the most significant
down; a final group of 1 or 2 bytes yields 2 or 3 characters and, with padding on, `=` up to four. -/
def Obligations.EncodeB64Groups : Prop :=
  ∀ (d : Operands) (s : State), Issuable d s → Complies d s → Memory.wf s.mem = true →
    let groups (i : Instr) (alt : Bool) : Prop := ∀ t, exec i s = .next t → t.status = .success →
      ∀ g, 3 * g < d.inLen →
        let b (k : Nat) := inputOrZero s d.inLen (3 * g + k)
        let symbols := [b 0 / 4, b 0 % 4 * 16 + b 1 / 16, b 1 % 16 * 4 + b 2 / 64, b 2 % 64]
        let full := min 4 (ceilDiv (8 * (d.inLen - 3 * g)) 6)
        (∀ j, j < full → textChar d t (4 * g + j) = symbols[j]?.bind (fwd .b64 alt))
        ∧ (d.usePadding = true → ∀ j, full ≤ j → j < 4 → textChar d t (4 * g + j) = some 0x3D)
    groups (.encB64 d) false ∧ groups (.encB64Url d) true

/-- 41_encode.md R158: TERM writes the null marker at `out_pos` when asked for, does not move the cursor, and ends the command
with `count = out_pos` and Success; nothing else changes. -/
def Obligations.EncodeTerm : Prop :=
  ∀ (s : State) (r : Region), s.phase = .term → s.desc.op = .enc → s.outBuf = some r → s.desc.outPresent = true →
    s.work.outPos < s.desc.outCap ∨ s.desc.nulTerm = false →
    tick s = .ok { s with
      mem := if s.desc.nulTerm then Memory.write s.mem (r.base + s.work.outPos) 0x00 else s.mem
      count := s.work.outPos
      status := .success
      done := true
      phase := .done }

/-- The null marker of a successful encode stands behind the counted characters, and only when asked for is the byte there
written at all (41_encode.md R158, 60_exceptions.md R241). -/
def Obligations.NullMarkerBehindText : Prop :=
  ∀ (d : Operands) (s : State), Issuable d s → Complies d s → Memory.wf s.mem = true →
    let marker (i : Instr) : Prop := ∀ t, exec i s = .next t → t.status = .success →
      outByte t t.count = if d.nulTerm then some 0x00 else outByte s t.count
    marker (.encB16 d)
    ∧ marker (.encB16L d)
    ∧ marker (.encB32 d)
    ∧ marker (.encB32Hex d)
    ∧ marker (.encB64 d)
    ∧ marker (.encB64Url d)

/-- The prefix law (41_encode.md section 5, marked as derived): without wrapping and padding, the text of the first `n` bytes agrees with the text of the whole
input on its first `floor(8 * n / sw)` characters. -/
def Obligations.EncodePrefix : Prop :=
  ∀ (d : Operands) (s : State) (n : Nat), Issuable d s → Complies d s → Memory.wf s.mem = true → d.lineLength = 0 →
    d.usePadding = false → n ≤ d.inLen →
    let agree (i i' : Instr) (base : Base) : Prop := ∀ t t', exec i s = .next t → exec i' s = .next t' →
      t.status = .success → t'.status = .success ∧ ∀ j, j < 8 * n / symbolWidth base → outByte t' j = outByte t j
    agree (.encB16 d) (.encB16 { d with inLen := n }) .b16
    ∧ agree (.encB16L d) (.encB16L { d with inLen := n }) .b16
    ∧ agree (.encB32 d) (.encB32 { d with inLen := n }) .b32
    ∧ agree (.encB32Hex d) (.encB32Hex { d with inLen := n }) .b32
    ∧ agree (.encB64 d) (.encB64 { d with inLen := n }) .b64
    ∧ agree (.encB64Url d) (.encB64Url { d with inLen := n }) .b64

/-- 10_state.md section 8, items (a), (b), (c), (d), (g), marked as derived, for ENC: after `n` input bytes, at the start of a BODY step, `nbits = 8 n mod sw`, the
accumulator holds nothing above its valid bits, `floor(8 n / sw)` characters and their line endings are written, within the
capacity, and `col` is their number modulo the line length. -/
def Obligations.EncodeStepInvariant : Prop :=
  ∀ (base : Base) (alt : Bool) (d : Operands) (s : State), Issuable d s → Complies d s →
    checkStatus (encSize s.sizeW base d.usePadding d.nulTerm d.leLen d.lineLength d.inLen) d = none →
    ∀ n, n ≤ d.inLen → ∃ t, runTicks (1 + n) (issue .enc base alt d s) = .ok t ∧ t.phase = .body
      ∧ t.work.inPos = n ∧ t.work.acc.toNat < 2 ^ t.work.nbits ∧ t.work.nbits = 8 * n % symbolWidth base
      ∧ t.work.outPos = 8 * n / symbolWidth base + lineBreaks d.lineLength (8 * n / symbolWidth base) * d.leLen
      ∧ t.work.outPos ≤ d.outCap
      ∧ t.work.col = if d.lineLength = 0 then 0 else 8 * n / symbolWidth base % d.lineLength

/-! The decode commands. -/

/-- 42_decode.md section 3, which the spec marks as derived from the steps, at the level of 00_scope.md R16: each DEC command completes, from every state that can issue it and
buffers a complying host supplies, in the state of the whole function `Decode`: status, `count`, the bytes of OUT, the working
registers, and every other field as before. That a command CHECK ends leaves the working registers as they were before issue
(10_state.md R44 gives them no value there) is the model's DESIGN CHOICE (log 7). -/
def Obligations.DecodeCompletes : Prop :=
  ∀ (d : Operands) (s : State), Issuable d s → Complies d s →
    exec (.decB16 d) s = .next (decodeEnd (latch .dec .b16 false d) s)
    ∧ exec (.decB16L d) s = .next (decodeEnd (latch .dec .b16 true d) s)
    ∧ exec (.decB32 d) s = .next (decodeEnd (latch .dec .b32 false d) s)
    ∧ exec (.decB32Hex d) s = .next (decodeEnd (latch .dec .b32 true d) s)
    ∧ exec (.decB64 d) s = .next (decodeEnd (latch .dec .b64 false d) s)
    ∧ exec (.decB64Url d) s = .next (decodeEnd (latch .dec .b64 true d) s)

/-- 42_decode.md R191, R192: the tests of CHECK in their order, each with the state it leaves; a command that raises in CHECK
reads and writes nothing; where none does, CHECK initialises the working registers and moves to BODY. The buffer test is
against the bound for the whole input length. That the fields no rule gives a value there keep what they held before issue
(`count` and `status` into BODY, the working registers of a command that CHECK ends, 10_state.md R44) is the model's DESIGN
CHOICE (log 7). -/
def Obligations.DecodeCheckOrder : Prop :=
  ∀ (d : Operands) (s : State), Issuable d s → Complies d s →
    let check (i : Instr) (base : Base) (alt : Bool) : Prop :=
      let raised (st : Status) : State :=
        { s with phase := .done, desc := latch .dec base alt d, done := true, count := 0, status := st }
      (d.inPresent = false ∨ d.outPresent = false → exec i s = .next (raised .nullOrMissingArgument))
      ∧ (d.inPresent = true → d.outPresent = true → decSize s.sizeW base d.inLen = none →
        exec i s = .next (raised .inputTooLarge))
      ∧ (d.inPresent = true → d.outPresent = true → ∀ t, decSize s.sizeW base d.inLen = some t → d.outCap < t →
        exec i s = .next (raised .bufferTooSmall))
      ∧ (d.inPresent = true → d.outPresent = true → ∀ t, decSize s.sizeW base d.inLen = some t → t ≤ d.outCap →
        tick (issue .dec base alt d s) = .ok { s with
            desc := latch .dec base alt d
            done := false
            phase := .body
            work := { s.work with acc := 0, nbits := 0, inPos := 0, outPos := 0, gpos := 0, npad := 0 } }
        ∧ ∃ u, exec i s = .next u ∧ u.status ≠ .nullOrMissingArgument ∧ u.status ≠ .inputTooLarge
          ∧ u.status ≠ .bufferTooSmall)
    check (.decB16 d) .b16 false
    ∧ check (.decB16L d) .b16 true
    ∧ check (.decB32 d) .b32 false
    ∧ check (.decB32Hex d) .b32 true
    ∧ check (.decB64 d) .b64 false
    ∧ check (.decB64Url d) .b64 true

/-- The frame of the DEC commands and the decode bound (40_size.md R142, 10_state.md R46, 20_memory.md R62): when CHECK passes
the bytes stored to are the first `out_pos` of OUT, no more than the size bound and the capacity, and `count` is their number on
Success; when CHECK raises no byte is stored to; every other byte of storage, `col`, the buffers, the width, the host's moves
and the free-draw index are unchanged. -/
def Obligations.DecodeFrame : Prop :=
  ∀ (d : Operands) (s : State), Issuable d s → Complies d s →
    let frame (i : Instr) (base : Base) : Prop := ∃ t, exec i s = .next t
      ∧ (let stored := if checkStatus (decSize s.sizeW base d.inLen) d = none then t.work.outPos else 0
        stored ≤ d.outCap ∧ (∀ n, decSize s.sizeW base d.inLen = some n → stored ≤ n)
        ∧ (t.status = .success → t.count = stored)
        ∧ ∀ a, ¬ InOutput s stored a → Memory.read t.mem a = Memory.read s.mem a)
      ∧ t.work.col = s.work.col ∧ t.inBuf = s.inBuf ∧ t.outBuf = s.outBuf ∧ t.sizeW = s.sizeW ∧ t.host = s.host
      ∧ t.freeCtr = s.freeCtr
    frame (.decB16 d) .b16
    ∧ frame (.decB16L d) .b16
    ∧ frame (.decB32 d) .b32
    ∧ frame (.decB32Hex d) .b32
    ∧ frame (.decB64 d) .b64
    ∧ frame (.decB64Url d) .b64

/-- Base16 decode ignores case and options: the two base16 commands give the same result on every input (42_decode.md R201,
30_encoding.md R109 step 3), `use_padding` and `strict` never change it (R200), and two inputs that differ only in the letter
case of digits give the same bytes, `count` and `status` (R200, R207). -/
def Obligations.DecodeB16OptionsIrrelevant : Prop :=
  ∀ (d : Operands) (s : State) (pad strict : Bool), Issuable d s → Complies d s →
    SameResult (exec (.decB16 d) s) (exec (.decB16L d) s)
    ∧ SameResult (exec (.decB16 d) s) (exec (.decB16 { d with usePadding := pad, strict := strict }) s)
    ∧ SameResult (exec (.decB16L d) s) (exec (.decB16L { d with usePadding := pad, strict := strict }) s)
    ∧ ∀ s' : State, s.sizeW = s'.sizeW → Issuable d s' → Complies d s' →
      (∀ (k : Nat) (c c' : Byte), (inputBytes s d.inLen)[k]? = some c → (inputBytes s' d.inLen)[k]? = some c' →
        SameDigit d c c') →
      let agree (i : Instr) : Prop := ∃ t t' bytes, exec i s = .next t ∧ exec i s' = .next t' ∧ t.count = t'.count
        ∧ t.status = t'.status ∧ t.mem = outWritten s bytes ∧ t'.mem = outWritten s' bytes
      agree (.decB16 d) ∧ agree (.decB16L d)

/-- Strict decode differs from lenient decode in InvalidInput alone: where strict decode ends so, lenient decode ends with
Success and the same bytes written; everywhere else the results are the same (60_exceptions.md R248, 42_decode.md R198). -/
def Obligations.StrictRejectsOnly : Prop :=
  ∀ (d : Operands) (s : State), Issuable d s → Complies d s →
    let differ (strict lenient : Instr) : Prop := ∃ t u, exec strict s = .next t ∧ exec lenient s = .next u ∧ t.mem = u.mem
      ∧ (t.status = .invalidInput ∧ u.status = .success ∨ t.status = u.status ∧ t.count = u.count)
      ∧ u.status ≠ .invalidInput
    differ (.decB16 { d with strict := true }) (.decB16 { d with strict := false })
    ∧ differ (.decB16L { d with strict := true }) (.decB16L { d with strict := false })
    ∧ differ (.decB32 { d with strict := true }) (.decB32 { d with strict := false })
    ∧ differ (.decB32Hex { d with strict := true }) (.decB32Hex { d with strict := false })
    ∧ differ (.decB64 { d with strict := true }) (.decB64 { d with strict := false })
    ∧ differ (.decB64Url { d with strict := true }) (.decB64Url { d with strict := false })

/-- Skipped bytes contribute nothing (42_decode.md R194): two decodes of one command whose inputs are the same once every SKIP
byte is dropped, and that both pass CHECK, give the same status and `count` and write the same bytes of OUT. -/
def Obligations.SkippedBytesContributeNothing : Prop :=
  ∀ (d : Operands) (s s' : State) (n : Nat), Issuable d s → Complies d s → Issuable { d with inLen := n } s' →
    Complies { d with inLen := n } s' →
    (inputBytes s d.inLen).filter (fun c => !isSkip d c) = (inputBytes s' n).filter (fun c => !isSkip d c) →
    let same (i i' : Instr) (base : Base) : Prop := checkStatus (decSize s.sizeW base d.inLen) d = none →
      checkStatus (decSize s'.sizeW base n) d = none →
      ∃ t t' bytes, exec i s = .next t ∧ exec i' s' = .next t' ∧ t.status = t'.status ∧ t.count = t'.count
        ∧ t.mem = outWritten s bytes ∧ t'.mem = outWritten s' bytes
    same (.decB16 d) (.decB16 { d with inLen := n }) .b16
    ∧ same (.decB16L d) (.decB16L { d with inLen := n }) .b16
    ∧ same (.decB32 d) (.decB32 { d with inLen := n }) .b32
    ∧ same (.decB32Hex d) (.decB32Hex { d with inLen := n }) .b32
    ∧ same (.decB64 d) (.decB64 { d with inLen := n }) .b64
    ∧ same (.decB64Url d) (.decB64Url { d with inLen := n }) .b64

/-- 42_decode.md R193 to R197: the BODY step of DEC. At the end of the input it moves to TAIL; else it consumes one byte and,
by the byte's class, does nothing more, counts a padding character, raises InvalidCharacter, raises InvalidPadding at a symbol
behind padding, or shifts the symbol in and writes the top eight bits out when there are eight. -/
def Obligations.DecodeBodyStep : Prop :=
  ∀ (s : State) (ri ro : Region), s.phase = .body → s.desc.op = .dec → s.inBuf = some ri → s.outBuf = some ro →
    s.desc.inPresent = true → s.desc.outPresent = true →
    (s.work.inPos = s.desc.inLen → tick s = .ok { s with phase := .tail })
    ∧ (s.work.inPos < s.desc.inLen →
      let cls := classify s.desc (Memory.read s.mem (ri.base + s.work.inPos))
      let w := { s.work with inPos := s.work.inPos + 1 }
      let raised (st : Status) : State := { s with work := w, status := st, count := 0, done := true, phase := .done }
      (cls = .skip → tick s = .ok { s with work := w })
      ∧ (cls = .pad → tick s = .ok { s with work := { w with npad := min (s.work.npad + 1) 7 } })
      ∧ (cls = .bad → tick s = .ok (raised .invalidCharacter))
      ∧ ∀ v, cls = .sym v →
        let sw := symbolWidth s.desc.base
        let acc := (s.work.acc <<< sw) ||| BitVec.ofNat 13 v
        let n := s.work.nbits + sw
        let g := (s.work.gpos + 1) % charsPerGroup s.desc.base
        (0 < s.work.npad → tick s = .ok (raised .invalidPadding))
        ∧ (s.work.npad = 0 → n < 8 → tick s = .ok { s with work := { w with acc := acc, nbits := n, gpos := g } })
        ∧ (s.work.npad = 0 → 8 ≤ n → s.work.outPos < s.desc.outCap → tick s = .ok { s with
            mem := Memory.write s.mem (ro.base + s.work.outPos) (BitVec.ofNat 8 (acc.toNat / 2 ^ (n - 8)))
            work := { w with
              acc := BitVec.ofNat 13 (acc.toNat % 2 ^ (n - 8))
              nbits := n - 8
              gpos := g
              outPos := s.work.outPos + 1 } }))

/-- 42_decode.md R198: the end-of-input tests of TAIL in their order, each with the state it leaves. -/
def Obligations.DecodeTail : Prop :=
  ∀ (s : State), s.phase = .tail → s.desc.op = .dec →
    let raised (st : Status) : State := { s with status := st, count := 0, done := true, phase := .done }
    let short := s.work.nbits < symbolWidth s.desc.base
    let padded (n : Nat) := (0 < s.work.npad ∨ s.desc.usePadding = true) → s.work.npad = n
    (¬ short → tick s = .ok (raised .invalidLength))
    ∧ ∀ n, required s.desc.base s.work.gpos = some n →
      (short → ¬ padded n → tick s = .ok (raised .invalidPadding))
      ∧ (short → padded n → s.desc.strict = true → s.work.acc ≠ 0 → tick s = .ok (raised .invalidInput))
      ∧ (short → padded n → s.desc.strict = false ∨ s.work.acc = 0 → tick s = .ok { s with
          work := { s.work with acc := 0, nbits := 0 }
          count := s.work.outPos
          status := .success
          done := true
          phase := .done })

/-- 10_state.md section 8, items (a), (b), (c), (e), (f), marked as derived, for DEC: after `n` input bytes none of which ends the scan, `k` of them symbols,
`nbits = k sw mod 8`, the accumulator holds nothing above its valid bits, `floor(k sw / 8)` bytes are written, within the
capacity, `gpos` is `k mod cpg` and `npad` the padding bytes up to 7. -/
def Obligations.DecodeStepInvariant : Prop :=
  ∀ (base : Base) (alt : Bool) (d : Operands) (s : State), Issuable d s → Complies d s →
    checkStatus (decSize s.sizeW base d.inLen) d = none →
    let classes := (inputBytes s d.inLen).map (classify (latch .dec base alt d))
    ∀ n, n ≤ d.inLen → (∀ j, j < n → stopsAt classes j = false) →
      let k := (symValues (classes.take n)).length
      ∃ t, runTicks (1 + n) (issue .dec base alt d s) = .ok t ∧ t.phase = .body
        ∧ t.work.inPos = n ∧ t.work.acc.toNat < 2 ^ t.work.nbits ∧ t.work.nbits = k * symbolWidth base % 8
        ∧ t.work.outPos = k * symbolWidth base / 8 ∧ t.work.outPos ≤ d.outCap
        ∧ t.work.gpos = k % charsPerGroup base ∧ t.work.npad = min ((classes.take n).count .pad) 7

/-- Round-trip (42_decode.md section 5, a law the spec marks as derived): a DEC with the variant (base16: of either case) and padding of an ENC, whose skip set holds
every byte of ENC's line ending and whose line ending holds no alphabet character and no `=`, strict or lenient, ends with
Success on ENC's text and gives ENC's input back, when both pass CHECK. -/
def Obligations.RoundTrip : Prop :=
  ∀ (base : Base) (alt alt' : Bool) (d d' : Operands) (s u : State), alt = alt' ∨ base = .b16 →
    d.usePadding = d'.usePadding → (∀ c ∈ lineEnding d, isSkip d' c = true) →
    (∀ c ∈ lineEnding d', c ≠ 0x3D ∧ ∀ v, fwd base alt v ≠ some c) →
    Issuable d s → Complies d s → Issuable d' u → Complies d' u → Memory.wf s.mem = true → Memory.wf u.mem = true →
    checkStatus (encSize s.sizeW base d.usePadding d.nulTerm d.leLen d.lineLength d.inLen) d = none →
    checkStatus (decSize u.sizeW base d'.inLen) d' = none →
    ∃ t v, exec (Instr.ofSelector .enc base alt d) s = .next t ∧ exec (Instr.ofSelector .dec base alt' d') u = .next v
      ∧ (d'.inLen = t.count → (∀ j, j < t.count → (inputBytes u d'.inLen)[j]? = outByte t j) →
        v.status = .success ∧ v.count = d.inLen ∧ ∀ j, j < d.inLen → outByte v j = (inputBytes s d.inLen)[j]?)

/-! Alphabets, padding tables, byte classes. -/

/-- The forward tables are one-to-one, have an entry for each symbol value and no other, and hold neither `=` nor whitespace
(20_memory.md R63, 30_encoding.md section 5). -/
def Obligations.AlphabetsOneToOne : Prop :=
  ∀ (base : Base) (alt : Bool) (v : Nat),
    ((fwd base alt v).isSome = true ↔ v < 2 ^ symbolWidth base)
    ∧ ∀ c, fwd base alt v = some c → c ≠ 0x3D ∧ isWhitespace c = false ∧ ∀ w, fwd base alt w = some c → w = v

/-- The six tables of 30_encoding.md section 5 by their ranges, which the spec marks as general knowledge (log 12), and that they
end there. -/
def Obligations.AlphabetTables : Prop :=
  (∀ (alt : Bool) (v : Nat), v < 10 → fwd .b16 alt v = some (BitVec.ofNat 8 (0x30 + v)))
  ∧ (∀ v, 10 ≤ v → v < 16 → fwd .b16 false v = some (BitVec.ofNat 8 (0x41 + (v - 10)))
    ∧ fwd .b16 true v = some (BitVec.ofNat 8 (0x61 + (v - 10))))
  ∧ (∀ v, v < 26 → fwd .b32 false v = some (BitVec.ofNat 8 (0x41 + v)))
  ∧ (∀ v, 26 ≤ v → v < 32 → fwd .b32 false v = some (BitVec.ofNat 8 (0x32 + (v - 26))))
  ∧ (∀ v, v < 10 → fwd .b32 true v = some (BitVec.ofNat 8 (0x30 + v)))
  ∧ (∀ v, 10 ≤ v → v < 32 → fwd .b32 true v = some (BitVec.ofNat 8 (0x41 + (v - 10))))
  ∧ ∀ alt : Bool, (∀ v, v < 26 → fwd .b64 alt v = some (BitVec.ofNat 8 (0x41 + v)))
    ∧ (∀ v, 26 ≤ v → v < 52 → fwd .b64 alt v = some (BitVec.ofNat 8 (0x61 + (v - 26))))
    ∧ (∀ v, 52 ≤ v → v < 62 → fwd .b64 alt v = some (BitVec.ofNat 8 (0x30 + (v - 52))))
    ∧ fwd .b64 alt 62 = some (if alt then 0x2D else 0x2B)
    ∧ fwd .b64 alt 63 = some (if alt then 0x5F else 0x2F)
    ∧ ∀ base v, 2 ^ symbolWidth base ≤ v → fwd base alt v = none

/-- The reverse tables of 30_encoding.md section 6 are the forward tables turned round, base16 with both cases, everything else
INVALID: `=`, and every byte from 0x80 on (of the forward tables the spec says general knowledge, log 12). -/
def Obligations.ReverseTables : Prop :=
  ∀ (base : Base) (alt : Bool) (c : Byte),
    (∀ (v : Nat) (alt' : Bool), alt' = alt ∨ base = .b16 → fwd base alt' v = some c → (rev base alt c).toNat = v)
    ∧ ((∀ (v : Nat) (alt' : Bool), alt' = alt ∨ base = .b16 → fwd base alt' v ≠ some c) → rev base alt c = 0xFF)
    ∧ rev base alt 0x3D = 0xFF ∧ (0x80 ≤ c.toNat → rev base alt c = 0xFF)

/-- The padding table of 30_encoding.md section 7, and its closed form over the number of symbols, which the spec marks as
derived. -/
def Obligations.PadCountTable : Prop :=
  (padCount .b16 0 = 0
    ∧ padCount .b32 0 = 0 ∧ padCount .b32 1 = 6 ∧ padCount .b32 2 = 4 ∧ padCount .b32 3 = 3 ∧ padCount .b32 4 = 1
    ∧ padCount .b64 0 = 0 ∧ padCount .b64 1 = 2 ∧ padCount .b64 2 = 1)
  ∧ ∀ (base : Base) (n : Nat), padCount base (n % bytesPerGroup base)
    = (charsPerGroup base - ceilDiv (8 * n) (symbolWidth base) % charsPerGroup base) % charsPerGroup base

/-- `Required` (30_encoding.md section 7, which the spec marks as derived) completes the group where the leftover bits are fewer than a symbol, and has no meaning
elsewhere. -/
def Obligations.RequiredTable : Prop :=
  ∀ (base : Base) (g : Nat), g < charsPerGroup base →
    required base g = if g * symbolWidth base % 8 < symbolWidth base then some ((charsPerGroup base - g) % charsPerGroup base)
      else none

/-- 30_encoding.md R113 and R114: the skip set, and the classes in the order of the tests. -/
def Obligations.ByteClasses : Prop :=
  ∀ (d : Latched) (c : Byte),
    let skipped : Prop := c ∈ [(0x09 : Byte), 0x0A, 0x0B, 0x0C, 0x0D, 0x20] ∨ (1 ≤ d.leLen ∧ c = d.le0)
      ∨ (d.leLen = 2 ∧ c = d.le1)
    (skipped → classify d c = .skip)
    ∧ (¬ skipped → c = 0x3D → classify d c = .pad)
    ∧ (¬ skipped → c ≠ 0x3D → rev d.base d.alt c ≠ 0xFF → classify d c = .sym (rev d.base d.alt c).toNat)
    ∧ (¬ skipped → c ≠ 0x3D → rev d.base d.alt c = 0xFF → classify d c = .bad)

/-! Statuses. -/

/-- 60_exceptions.md R252: a tick that ends a command with a status other than Success clears `count`, sets `done`, goes to DONE
and changes nothing else, the cursor past the byte just read excepted (42_decode.md R193). -/
def Obligations.RaiseEffect : Prop :=
  ∀ s t : State, s.phase.inFlight = true → tick s = .ok t → t.phase = .done → t.status ≠ .success →
    t = { s with status := t.status, count := 0, done := true, phase := .done, work := { s.work with inPos := t.work.inPos } }
    ∧ t.work.inPos = s.work.inPos + (if s.phase = .body then 1 else 0)

/-- What every completed command leaves (10_state.md R29, R40, 60_exceptions.md R252): DONE with `done = 1`, the descriptor of
the command latched, and `count = 0` whenever the status is not Success. -/
def Obligations.CompletedCommandResult : Prop :=
  ∀ (i : Instr) (s t : State), exec i s = .next t →
    t.phase = .done ∧ t.done = true ∧ t.desc = latch i.op i.base i.alt i.operands ∧ (t.status ≠ .success → t.count = 0)

/-- The statuses each family can end with (60_exceptions.md R240, R249): the size commands Success or InputTooLarge, ENC
these and the two of CHECK, DEC its own as well, InvalidInput in strict mode alone, and none AllocationFailure; their codes. -/
def Obligations.StatusesByFamily : Prop :=
  (∀ (i : Instr) (s t : State), exec i s = .next t →
    (i.op = .encSize ∨ i.op = .decSize → t.status ∈ [Status.success, .inputTooLarge])
    ∧ (i.op = .enc → t.status ∈ [Status.success, .nullOrMissingArgument, .bufferTooSmall, .inputTooLarge])
    ∧ (i.op = .dec → t.status ≠ .allocationFailure ∧ (i.operands.strict = false → t.status ≠ .invalidInput)))
  ∧ (Status.success.code = 0 ∧ Status.nullOrMissingArgument.code = 1 ∧ Status.bufferTooSmall.code = 2
    ∧ Status.invalidCharacter.code = 3 ∧ Status.invalidPadding.code = 4 ∧ Status.invalidLength.code = 5
    ∧ Status.inputTooLarge.code = 6 ∧ Status.allocationFailure.code = 7 ∧ Status.invalidInput.code = 8)

/-- After a status of CHECK the storage is untouched (60_exceptions.md R242, R243, R253), and so are the working registers,
which `raise` does not write (R252); that issue, where 10_state.md R44 gives them no value, keeps them is the model's DESIGN
CHOICE (log 7). -/
def Obligations.CheckStatusWritesNothing : Prop :=
  ∀ (i : Instr) (s t : State), exec i s = .next t →
    t.status = .nullOrMissingArgument ∨ t.status = .bufferTooSmall ∨ t.status = .inputTooLarge →
    t.mem = s.mem ∧ t.work = s.work

/-- 60_exceptions.md R255: with a buffer of at least the size the size command reports, the same command cannot raise
BufferTooSmall. -/
def Obligations.QueriedSizeSuffices : Prop :=
  ∀ (base : Base) (alt alt' : Bool) (d d' : Operands) (s s' t t' : State), s.sizeW = s'.sizeW →
    d.usePadding = d'.usePadding → d.nulTerm = d'.nulTerm → d.leLen = d'.leLen → d.lineLength = d'.lineLength →
    d.inLen = d'.inLen → t.status = .success → t.count ≤ d'.outCap →
    (exec (Instr.ofSelector .encSize base alt d) s = .next t →
      exec (Instr.ofSelector .enc base alt' d') s' = .next t' → t'.status ≠ .bufferTooSmall)
    ∧ (exec (Instr.ofSelector .decSize base alt d) s = .next t →
      exec (Instr.ofSelector .dec base alt' d') s' = .next t' → t'.status ≠ .bufferTooSmall)

/-! The machine. -/

/-- No hidden state (10_state.md section 6, marked as derived): two commands with equal descriptors and equal IN contents give equal OUT writes, `count` and `status`,
whatever ran before. -/
def Obligations.NoHiddenState : Prop :=
  ∀ (i : Instr) (s s' : State), s.sizeW = s'.sizeW → Issuable i.operands s → Issuable i.operands s' →
    LaunchComplies i s → LaunchComplies i s' →
    (i.op = .enc ∨ i.op = .dec → i.operands.inPresent = true →
      inputBytes s i.operands.inLen = inputBytes s' i.operands.inLen) →
    ∃ t t' bytes, exec i s = .next t ∧ exec i s' = .next t' ∧ t.count = t'.count ∧ t.status = t'.status
      ∧ t.mem = outWritten s bytes ∧ t'.mem = outWritten s' bytes

/-- 10_state.md R40: issue copies the whole descriptor into the latched fields in one step, clears `done` and sets `phase` to
CHECK; no tick changes a latched field. That `count`, `status` and the working registers, which R44 gives no value at issue,
keep what they held is the model's DESIGN CHOICE (log 7), and that a command issued while another is in flight is refused is
the model's too (log 10). -/
def Obligations.IssueLatches : Prop :=
  (∀ (op : Op) (base : Base) (alt : Bool) (d : Operands) (s : State), issue op base alt d s =
    { s with desc := { d with op := op, base := base, alt := alt }, done := false, phase := .check })
  ∧ (∀ s t : State, tick s = .ok t → t.desc = s.desc)
  ∧ ∀ (i : Instr) (s : State), ¬ (s.phase = .idle ∨ s.phase = .done) → exec i s = .refused .engineBusy

/-- No tick, in any state, changes a byte outside the `out_cap` bytes of OUT, the buffers, the width, the host's moves or the
free-draw index (20_memory.md R61, R65, R70). -/
def Obligations.TickFrame : Prop :=
  ∀ s t : State, tick s = .ok t → (∀ a, ¬ InOutput s s.desc.outCap a → Memory.read t.mem a = Memory.read s.mem a)
    ∧ t.inBuf = s.inBuf ∧ t.outBuf = s.outBuf ∧ t.sizeW = s.sizeW ∧ t.host = s.host ∧ t.freeCtr = s.freeCtr

/-- 70_reset_and_hazards.md R284, the number of steps of the refinement with issue counted as one: two for a size command and
for a command that CHECK ends, `in_len + 6` for ENC otherwise, `e + 3` for a DEC that input index `e` ends, `in_len + 4` for DEC
otherwise. -/
def Obligations.StepCounts : Prop :=
  ∀ (base : Base) (alt : Bool) (d : Operands) (s : State), Issuable d s →
    let encCheck := checkStatus (encSize s.sizeW base d.usePadding d.nulTerm d.leLen d.lineLength d.inLen) d
    let decCheck := checkStatus (decSize s.sizeW base d.inLen) d
    let stop := firstStop ((inputBytes s d.inLen).map (classify (latch .dec base alt d)))
    DoneAfter 1 (issue .encSize base alt d s) ∧ DoneAfter 1 (issue .decSize base alt d s)
    ∧ (Complies d s →
      (encCheck ≠ none → DoneAfter 1 (issue .enc base alt d s))
      ∧ (encCheck = none → DoneAfter (d.inLen + 5) (issue .enc base alt d s))
      ∧ (decCheck ≠ none → DoneAfter 1 (issue .dec base alt d s))
      ∧ (decCheck = none → ∀ e, stop = some e → DoneAfter (e + 2) (issue .dec base alt d s))
      ∧ (decCheck = none → stop = none → DoneAfter (d.inLen + 3) (issue .dec base alt d s)))

/-- The refinement and the atomic command agree (00_scope.md R16): from every state between issue and DONE, a step of the machine
ends where the whole command ends. -/
def Obligations.RefinementAgrees : Prop :=
  ∀ (i : Instr) (s t : State) (k : Nat), Issuable i.operands s → LaunchComplies i s →
    runTicks k (issue i.op i.base i.alt i.operands s) = .ok t → t.phase.inFlight = true → step t = exec i s

/-- A step runs the decoded command: when the host's next move is the issue of a descriptor that decodes, the step is that
command's meaning on the state with the move taken and the launch's buffers supplied (10_state.md R40, 20_memory.md R69); a
launch that waits for a size is issued, after Success, with the `count` just read as its capacity and an OUT buffer of that
many bytes (30_encoding.md R102). -/
def Obligations.StepRunsDecoded : Prop :=
  ∀ (s : State) (l : Launch) (rest : List HostMove) (i : Instr), s.phase = .idle ∨ s.phase = .done →
    (s.host = .issue l :: rest → decode s.sizeW l.desc = .ok i →
      step s = exec i { s with host := rest, inBuf := l.inBuf, outBuf := l.outBuf })
    ∧ (s.host = .issueWithCount l :: rest → s.done = true → s.status = .success →
      decode s.sizeW { l.desc with outCap := s.count } = .ok i →
      step s = exec i { s with
        host := rest
        inBuf := l.inBuf
        outBuf := l.outBuf.map fun r => { r with size := s.count } })

/-- The host's moves that issue no command, made in IDLE or DONE: with no move left the engine waits (10_state.md R44,
60_exceptions.md R264); a store changes one byte of the host's storage and nothing of the engine
(70_reset_and_hazards.md R283); power-on reset leaves IDLE and `done = 0`, and the storage, which the engine does not own,
unchanged (R280); the second half of a pseudo-command issues nothing after a size command that failed (R283 step 2), and
waits while `done = 0` (R283 step 5; that the host waits there with its move still ahead is the model's, log 10). -/
def Obligations.MovesWithoutCommand : Prop :=
  ∀ (s : State) (rest : List HostMove), s.phase = .idle ∨ s.phase = .done →
    (s.host = [] → step s = .next s)
    ∧ (∀ a b, s.host = .store a b :: rest → step s = .next { s with host := rest, mem := Memory.write s.mem a b })
    ∧ (s.host = .reset :: rest →
      ∃ t, step s = .next t ∧ t.phase = .idle ∧ t.done = false ∧ t.mem = s.mem ∧ t.host = rest)
    ∧ ∀ l, s.host = .issueWithCount l :: rest →
      (s.done = true → s.status ≠ .success → step s = .next { s with host := rest })
      ∧ (s.done = false → step s = .next s)

/-- A launch of ENC or DEC against the host's duties of 70_reset_and_hazards.md R286, R287, R289 is refused, under the name of
what is broken, and only such a launch is. -/
def Obligations.HostDutiesEnforced : Prop :=
  ∀ (i : Instr) (s : State), i.op = .enc ∨ i.op = .dec → Issuable i.operands s →
    ((∃ r, exec i s = .refused r) ↔ ¬ Complies i.operands s)
    ∧ (exec i s = .refused .missingBuffer →
      (i.operands.inPresent = true ∧ s.inBuf = none) ∨ (i.operands.outPresent = true ∧ s.outBuf = none))
    ∧ (exec i s = .refused .overstatedLength →
      (∃ r, i.operands.inPresent = true ∧ s.inBuf = some r ∧ r.size < i.operands.inLen)
      ∨ ∃ r, i.operands.outPresent = true ∧ s.outBuf = some r ∧ r.size < i.operands.outCap)
    ∧ (exec i s = .refused .aliasedBuffers → ∃ a b x, s.inBuf = some a ∧ s.outBuf = some b
      ∧ a.base ≤ x ∧ x < a.base + i.operands.inLen ∧ b.base ≤ x ∧ x < b.base + i.operands.outCap)
    ∧ ∀ r, exec i s = .refused r → r = .missingBuffer ∨ r = .overstatedLength ∨ r = .aliasedBuffers

/-- The pseudo-command ENCODE (30_encoding.md R102, 70_reset_and_hazards.md R283): from a host about to make its two moves, two
steps query the size and encode into a buffer of that size, with Success, when the size exists and the buffers are apart;
when the size is too large the first ends so and the second issues nothing (R283 step 2). -/
def Obligations.PseudoEncodeRuns : Prop :=
  ∀ (base : Base) (alt : Bool) (d : Operands) (ri ro : Region) (rest : List HostMove) (s : State),
    Issuable d s → s.host = pseudoEncode base alt d (some ri) (some ro) ++ rest →
    let size := encSize s.sizeW base d.usePadding d.nulTerm d.leLen d.lineLength d.inLen
    (∀ n, size = some n → d.inPresent = true → d.outPresent = true → d.inLen ≤ ri.size →
      (∀ x, ¬ (ri.base ≤ x ∧ x < ri.base + d.inLen ∧ ro.base ≤ x ∧ x < ro.base + n)) →
      ∃ t u, step s = .next t ∧ t.status = .success ∧ t.count = n ∧ step t = .next u ∧ u.status = .success
        ∧ u.count = n - (if d.nulTerm then 1 else 0) ∧ u.outBuf = some ⟨ro.base, n⟩ ∧ u.host = rest)
    ∧ (size = none →
      ∃ t, step s = .next t ∧ t.status = .inputTooLarge ∧ t.count = 0 ∧ step t = .next { t with host := rest })

/-- The pseudo-command DECODE (30_encoding.md R102): two steps query the size and decode into a buffer of that size; the second
never finds the buffer too small; when the size is too large the first ends so and the second issues nothing
(70_reset_and_hazards.md R283 step 2). -/
def Obligations.PseudoDecodeRuns : Prop :=
  ∀ (base : Base) (alt : Bool) (d : Operands) (ri ro : Region) (rest : List HostMove) (s : State),
    Issuable d s → s.host = pseudoDecode base alt d (some ri) (some ro) ++ rest →
    let size := decSize s.sizeW base d.inLen
    (∀ n, size = some n → d.inPresent = true → d.outPresent = true → d.inLen ≤ ri.size →
      (∀ x, ¬ (ri.base ≤ x ∧ x < ri.base + d.inLen ∧ ro.base ≤ x ∧ x < ro.base + n)) →
      ∃ t u, step s = .next t ∧ t.status = .success ∧ t.count = n ∧ step t = .next u
        ∧ u.status ≠ .nullOrMissingArgument ∧ u.status ≠ .bufferTooSmall ∧ u.status ≠ .inputTooLarge
        ∧ u.outBuf = some ⟨ro.base, n⟩ ∧ u.host = rest)
    ∧ (size = none →
      ∃ t, step s = .next t ∧ t.status = .inputTooLarge ∧ t.count = 0 ∧ step t = .next { t with host := rest })

/-- The state after power-on reset (10_state.md R44, 70_reset_and_hazards.md R280): IDLE, `done = 0`, no result to read, and the
engine waits there for a command. The spec gives the other registers no value; theirs are the model's choice (log 3) and not
stated here. -/
def Obligations.ResetState : Prop :=
  State.reset.phase = .idle ∧ State.reset.done = false ∧ readResult State.reset = none
  ∧ step State.reset = .next State.reset ∧ ∀ d, d.wellFormed State.reset.sizeW = true → Issuable d State.reset

/-- A reset during a command abandons it: IDLE, no result, and outside the bytes of OUT the command could have written, which
are those it writes when nothing stops it, storage is unchanged (70_reset_and_hazards.md R280, U18, 20_memory.md R62; what
stands in those bytes is the free value of log 8, of which nothing is said). -/
def Obligations.ResetDuringCommand : Prop :=
  ∀ (s : State) (l : Launch) (rest : List HostMove) (i : Instr), s.phase = .idle ∨ s.phase = .done →
    s.host = .issueThenReset l :: rest → decode s.sizeW l.desc = .ok i →
    let u : State := { s with host := rest, inBuf := l.inBuf, outBuf := l.outBuf }
    LaunchComplies i u →
    let output := issuedOutput { u with desc := latch i.op i.base i.alt i.operands }
    ∃ t v, step s = .next t ∧ t.phase = .idle ∧ t.done = false ∧ readResult t = none ∧ t.host = rest
      ∧ exec i u = .next v ∧ v.mem = outWritten u output
      ∧ ∀ a, ¬ InOutput u output.length a → Memory.read t.mem a = Memory.read s.mem a

/-- `Inv` holds after power-on reset. 10_state.md R44 gives most registers no value there: that the values `State.reset` names
for them (the zeros of log 3, the 32 of log 1) are within the bounds of `Inv` is the model's DESIGN CHOICE, no rule. -/
def Obligations.ResetKeepsInv : Prop := Inv State.reset

/-- Every step keeps the invariant of the states a host sees (10_state.md R29, R30 to R39, R45 (a), 60_exceptions.md R249,
R252), from every state that has it, whatever move the host makes. Two parts of it rest on the model's DESIGN CHOICES: a
power-on reset meets the bounds by the values log 3 names for registers that R44 gives none, and the canonical form of storage
is log 4's. -/
def Obligations.StepKeepsInv : Prop :=
  ∀ s t : State, Inv s → step s = .next t → Inv t

/-- No step between commands reaches an access the spec calls not defined, a table index past its end or a phase the command
does not have (20_memory.md R64, R65, 30_encoding.md R111, 10_state.md R27): it never faults, and neither does a command. -/
def Obligations.StepNeverFaults : Prop :=
  ∀ s : State, Inv s → (∀ f, step s ≠ .fault f) ∧ ∀ (i : Instr) f, exec i s ≠ .fault f

/-- The canonical form of storage decides it: two storages in the form that read the same everywhere are equal. -/
def Obligations.MemoryCanonical : Prop :=
  ∀ m m' : Memory, Memory.wf m = true → Memory.wf m' = true → (∀ a, Memory.read m a = Memory.read m' a) → m = m'
end

