-- ==== Sys2Proof/Laws/Bits.lean ====
section
/-! SUPPORT. Bit strings: their values, and how cutting them into pieces goes one piece at a time. -/

namespace Sys2Proof.Machine

theorem valueOf_snoc (P : List Bool) (b : Bool) : valueOf (P ++ [b]) = 2 * valueOf P + bitOf b := by
  simp [valueOf]

@[simp] theorem valueOf_nil : valueOf [] = 0 := rfl

theorem valueOf_append (P Q : List Bool) : valueOf (P ++ Q) = valueOf P * 2 ^ Q.length + valueOf Q := by
  induction Q using List.reverseRecOn with
  | nil => simp
  | append_singleton Q b ih =>
    rw [← List.append_assoc, valueOf_snoc, valueOf_snoc, ih, List.length_append, List.length_singleton, pow_succ]
    ring

theorem bitOf_lt (b : Bool) : bitOf b < 2 := by cases b <;> decide

theorem valueOf_lt (P : List Bool) : valueOf P < 2 ^ P.length := by
  induction P using List.reverseRecOn with
  | nil => simp
  | append_singleton P b ih =>
    rw [valueOf_snoc, List.length_append, List.length_singleton, pow_succ]
    have := bitOf_lt b
    omega

theorem valueOf_zeros (n : Nat) : valueOf (List.replicate n false) = 0 := by
  induction n with
  | zero => rfl
  | succ n ih => rw [List.replicate_succ', valueOf_snoc, ih]; rfl

theorem valueOf_eq_zero {P : List Bool} : valueOf P = 0 ↔ true ∉ P := by
  induction P using List.reverseRecOn with
  | nil => simp
  | append_singleton P b ih =>
    rw [valueOf_snoc]
    cases b <;> simp [bitOf, ih]

theorem length_bitsOf (w v : Nat) : (bitsOf w v).length = w := by simp [bitsOf]

theorem bitsOf_succ (w v : Nat) : bitsOf (w + 1) v = bitsOf w (v / 2) ++ [v.testBit 0] := by
  unfold bitsOf
  rw [List.range_succ, List.map_append, List.map_singleton]
  congr 1
  · apply List.map_congr_left
    intro i hi
    rw [List.mem_range] at hi
    rw [show w + 1 - 1 - i = (w - 1 - i) + 1 by omega, Nat.testBit_succ]
  · simp

/-- The value of the `w` bits of `v`. -/
theorem valueOf_bitsOf (w v : Nat) : valueOf (bitsOf w v) = v % 2 ^ w := by
  induction w generalizing v with
  | zero => simp [bitsOf, Nat.mod_one]
  | succ w ih =>
    rw [bitsOf_succ, valueOf_snoc, ih]
    have h : bitOf (v.testBit 0) = v % 2 := by
      rw [Nat.testBit_zero]
      rcases Nat.mod_two_eq_zero_or_one v with h | h <;> simp [h, bitOf]
    rw [h, pow_succ, Nat.mul_comm (2 ^ w) 2, Nat.mod_mul]
    omega

/-- A list of bits is the bits of its value. -/
theorem bitsOf_valueOf (P : List Bool) : bitsOf P.length (valueOf P) = P := by
  induction P using List.reverseRecOn with
  | nil => rfl
  | append_singleton P b ih =>
    rw [List.length_append, List.length_singleton, bitsOf_succ, valueOf_snoc]
    have h1 : (2 * valueOf P + bitOf b) / 2 = valueOf P := by have := bitOf_lt b; omega
    have h2 : (2 * valueOf P + bitOf b).testBit 0 = b := by
      rw [Nat.testBit_zero]
      cases b <;> simp [bitOf]
    rw [h1, h2, ih]

theorem bitString_cons (w v : Nat) (vs : List Nat) : bitString w (v :: vs) = bitsOf w v ++ bitString w vs := rfl

theorem bitString_append (w : Nat) (us vs : List Nat) : bitString w (us ++ vs) = bitString w us ++ bitString w vs := by
  simp [bitString]

@[simp] theorem bitString_nil (w : Nat) : bitString w [] = [] := rfl

theorem length_bitString (w : Nat) (vs : List Nat) : (bitString w vs).length = vs.length * w := by
  induction vs with
  | nil => simp
  | cons v vs ih => rw [bitString_cons, List.length_append, length_bitsOf, ih, List.length_cons]; ring

theorem pieces_nil (w : Nat) (hw : 0 < w) : pieces w [] = [] := by
  have : ceilDiv 0 w = 0 := by
    unfold ceilDiv
    exact Nat.div_eq_of_lt (by omega)
  simp [pieces, this]

/-- The first piece of a bit string that holds one in full. -/
theorem pieces_step {w : Nat} (hw : 0 < w) {bits : List Bool} (h : w ≤ bits.length) :
    pieces w bits = valueOf (bits.take w) :: pieces w (bits.drop w) := by
  have hc : ceilDiv bits.length w = ceilDiv (bits.length - w) w + 1 := by
    unfold ceilDiv
    rw [show bits.length + w - 1 = (bits.length - w + w - 1) + w by omega, Nat.add_div_right _ hw]
  unfold pieces
  rw [hc, List.range_succ_eq_map, List.map_cons, List.map_map, List.length_drop]
  congr 1
  · simp [piece, List.length_take, Nat.min_eq_left h]
  · apply List.map_congr_left
    intro j _
    simp only [Function.comp, piece, List.drop_drop]
    rw [show w + j * w = (j + 1) * w by ring]

/-- The last piece of a bit string, when it is not full. -/
theorem pieces_short {w : Nat} {bits : List Bool} (h0 : bits ≠ []) (h : bits.length < w) :
    pieces w bits = [valueOf (bits ++ List.replicate (w - bits.length) false)] := by
  have hl : 0 < bits.length := List.length_pos_iff.mpr h0
  have hc : ceilDiv bits.length w = 1 := by
    unfold ceilDiv
    rw [Nat.div_eq_iff (by omega)]
    omega
  simp [pieces, hc, piece, List.take_of_length_le (Nat.le_of_lt h)]

theorem length_pieces (w : Nat) (bits : List Bool) : (pieces w bits).length = ceilDiv bits.length w := by
  simp [pieces]

theorem piece_lt (w : Nat) (bits : List Bool) (j : Nat) : piece w bits j < 2 ^ w := by
  unfold piece
  refine Nat.lt_of_lt_of_le (valueOf_lt _) (Nat.pow_le_pow_right (by decide) ?_)
  simp only [List.length_append, List.length_replicate, List.length_take]
  omega

theorem lt_of_mem_pieces {w : Nat} {bits : List Bool} {v : Nat} (h : v ∈ pieces w bits) : v < 2 ^ w := by
  simp only [pieces, List.mem_map] at h
  obtain ⟨j, _, rfl⟩ := h
  exact piece_lt w bits j

/-- At most `fuel` full pieces cut from the front, and what is left. -/
def cutFront (w : Nat) : Nat → List Bool → List Nat × List Bool
  | 0, P => ([], P)
  | fuel + 1, P =>
    if w ≤ P.length then (valueOf (P.take w) :: (cutFront w fuel (P.drop w)).1, (cutFront w fuel (P.drop w)).2)
    else ([], P)

/-- The pieces of a bit string are those cut from its first part, then those of what is left with the second part. -/
theorem pieces_cutFront {w : Nat} (hw : 0 < w) (fuel : Nat) (P Q : List Bool) :
    pieces w (P ++ Q) = (cutFront w fuel P).1 ++ pieces w ((cutFront w fuel P).2 ++ Q) := by
  induction fuel generalizing P with
  | zero => rfl
  | succ fuel ih =>
    unfold cutFront
    split
    · next h =>
      rw [pieces_step hw (by rw [List.length_append]; omega), List.take_append_of_le_length h,
        List.drop_append_of_le_length h, ih]
      rfl
    · rfl

/-- No bit is lost by cutting. -/
theorem length_cutFront (w fuel : Nat) (P : List Bool) :
    P.length = w * (cutFront w fuel P).1.length + (cutFront w fuel P).2.length := by
  induction fuel generalizing P with
  | zero => simp [cutFront]
  | succ fuel ih =>
    unfold cutFront
    split
    · next h =>
      have := ih (P.drop w)
      rw [List.length_drop] at this
      simp only [List.length_cons, Nat.mul_succ]
      omega
    · simp

theorem cutFront_rest_lt {w : Nat} (hw : 0 < w) (fuel : Nat) (P : List Bool) (h : P.length ≤ fuel) :
    (cutFront w fuel P).2.length < w := by
  induction fuel generalizing P with
  | zero => simp only [cutFront]; omega
  | succ fuel ih =>
    unfold cutFront
    split
    · next hp => exact ih _ (by rw [List.length_drop]; omega)
    · next hp => exact Nat.lt_of_not_le hp

/-! The accumulator as a bit string. -/

theorem accMask_toNat {n : Nat} (h : n ≤ 13) : (accMask n).toNat = 2 ^ n - 1 := by
  unfold accMask
  rw [BitVec.toNat_ofNat]
  apply Nat.mod_eq_of_lt
  have : 2 ^ n ≤ 2 ^ 13 := Nat.pow_le_pow_right (by decide) h
  omega

theorem and_accMask (a : Acc) {n : Nat} (h : n ≤ 13) : (a &&& accMask n).toNat = a.toNat % 2 ^ n := by
  rw [BitVec.toNat_and, accMask_toNat h, Nat.and_two_pow_sub_one_eq_mod]

/-- The accumulator holds the bits `P`, first bit at the top. -/
def Holds (a : Acc) (n : Nat) (P : List Bool) : Prop := n = P.length ∧ a.toNat = valueOf P

theorem Holds.shiftIn {a : Acc} {n : Nat} {P : List Bool} (h : Holds a n P) (w : Nat) (v : Acc)
    (hv : v.toNat < 2 ^ w) (hn : n + w ≤ 13) : Holds ((a <<< w) ||| v) (n + w) (P ++ bitsOf w v.toNat) := by
  obtain ⟨rfl, ha⟩ := h
  refine ⟨by simp [length_bitsOf], ?_⟩
  have hlt : a.toNat * 2 ^ w < 2 ^ 13 := by
    have h1 : a.toNat < 2 ^ P.length := ha ▸ valueOf_lt P
    calc a.toNat * 2 ^ w < 2 ^ P.length * 2 ^ w := Nat.mul_lt_mul_of_pos_right h1 (Nat.pow_pos (by decide))
      _ = 2 ^ (P.length + w) := (pow_add ..).symm
      _ ≤ 2 ^ 13 := Nat.pow_le_pow_right (by decide) hn
  rw [BitVec.toNat_or, BitVec.toNat_shiftLeft, Nat.shiftLeft_eq, Nat.mod_eq_of_lt hlt, ← Nat.shiftLeft_eq,
    ← Nat.shiftLeft_add_eq_or_of_lt hv, Nat.shiftLeft_eq, valueOf_append, valueOf_bitsOf, length_bitsOf, ha,
    Nat.mod_eq_of_lt hv]

theorem Holds.top {a : Acc} {n : Nat} {P : List Bool} (h : Holds a n P) {w : Nat} (hw : w ≤ n) (hn : n ≤ 13) :
    ((a >>> (n - w)) &&& accMask w).toNat = valueOf (P.take w) := by
  obtain ⟨rfl, ha⟩ := h
  rw [and_accMask _ (by omega), BitVec.toNat_ushiftRight, Nat.shiftRight_eq_div_pow, ha]
  conv_lhs => rw [← List.take_append_drop w P, valueOf_append]
  have hd : (P.drop w).length = P.length - w := List.length_drop
  have h1 := valueOf_lt (P.drop w)
  have h2 := valueOf_lt (P.take w)
  rw [hd] at h1 ⊢
  rw [List.length_take, Nat.min_eq_left hw] at h2
  rw [List.length_append, List.length_take, List.length_drop, Nat.min_eq_left hw,
    show w + (P.length - w) - w = P.length - w by omega, Nat.add_comm,
    Nat.add_mul_div_right _ _ (Nat.pow_pos (by decide)), Nat.div_eq_of_lt h1, Nat.zero_add, Nat.mod_eq_of_lt h2]

theorem Holds.mask {a : Acc} {n : Nat} {P : List Bool} (h : Holds a n P) {w : Nat} (hw : w ≤ n) (hn : n ≤ 13) :
    Holds (a &&& accMask (n - w)) (n - w) (P.drop w) := by
  obtain ⟨rfl, ha⟩ := h
  refine ⟨by simp, ?_⟩
  have h1 := valueOf_lt (P.drop w)
  rw [List.length_drop] at h1
  rw [and_accMask _ (by omega), ha]
  conv_lhs => rw [← List.take_append_drop w P, valueOf_append]
  rw [List.length_append, List.length_take, List.length_drop, Nat.min_eq_left hw,
    show w + (P.length - w) - w = P.length - w by omega, Nat.add_comm, Nat.add_mul_mod_self_right,
    Nat.mod_eq_of_lt h1]

/-- The final partial symbol: the remaining bits, filled with zeros on the right. -/
theorem Holds.pad {a : Acc} {n : Nat} {P : List Bool} (h : Holds a n P) {w : Nat} (hn : n ≤ w) (hw : w ≤ 13) :
    ((a <<< (w - n)) &&& accMask w).toNat = valueOf (P ++ List.replicate (w - n) false) := by
  obtain ⟨rfl, ha⟩ := h
  have h1 : valueOf P * 2 ^ (w - P.length) < 2 ^ w := by
    calc _ < 2 ^ P.length * 2 ^ (w - P.length) :=
          Nat.mul_lt_mul_of_pos_right (valueOf_lt P) (Nat.pow_pos (by decide))
      _ = 2 ^ w := by rw [← pow_add]; congr 1; omega
  have h2 : 2 ^ w ≤ 2 ^ 13 := Nat.pow_le_pow_right (by decide) hw
  rw [and_accMask _ hw, BitVec.toNat_shiftLeft, Nat.shiftLeft_eq, ha, Nat.mod_eq_of_lt (b := 2 ^ 13) (by omega),
    Nat.mod_eq_of_lt h1, valueOf_append, valueOf_zeros, List.length_replicate, Nat.add_zero]

end Sys2Proof.Machine
end

