-- ==== Sys2Proof/Laws/Memory.lean ====
section
/-! SUPPORT. The laws of the caller's storage: a read after a write, and the canonical form kept by every operation. -/

namespace Sys2Proof.Machine

theorem Memory.read_cons (a : Nat) (b : Byte) (m : Memory) (x : Nat) (hm : b = Config.unlistedByte → x = a →
    Memory.read m x = Config.unlistedByte) :
    Memory.read (Memory.cons a b m) x = if x = a then b else Memory.read m x := by
  unfold Memory.cons
  split
  · next h =>
    split
    · next hx => rw [h]; exact hm h hx
    · rfl
  · rfl

/-- A write leaves every other byte alone (no premise on the memory). -/
theorem Memory.read_write_ne (m : Memory) {a x : Nat} (b : Byte) (h : x ≠ a) :
    Memory.read (Memory.write m a b) x = Memory.read m x := by
  induction m with
  | nil => simp [Memory.write, Memory.read_cons, h]
  | cons kv rest ih =>
    obtain ⟨k, v⟩ := kv
    unfold Memory.write
    split
    · rw [Memory.read_cons _ _ _ _ (fun _ hx => absurd hx h), if_neg h]
    · split
      · next hak =>
        rw [Memory.read_cons _ _ _ _ (fun _ hx => absurd hx h), if_neg h]
        simp [Memory.read, show x ≠ k by omega]
      · simp only [Memory.read, ih]

theorem Memory.risingFrom_weaken {lo lo' : Nat} (h : lo ≤ lo') {m : Memory}
    (hm : Memory.risingFrom (some lo') m = true) : Memory.risingFrom (some lo) m = true := by
  cases m with
  | nil => rfl
  | cons kv rest =>
    simp only [Memory.risingFrom, Bool.and_eq_true, decide_eq_true_eq] at hm ⊢
    exact ⟨⟨by omega, hm.1.2⟩, hm.2⟩

theorem Memory.risingFrom_none {lo : Nat} {m : Memory} (hm : Memory.risingFrom (some lo) m = true) :
    Memory.wf m = true := by
  cases m with
  | nil => rfl
  | cons kv rest =>
    simp only [Memory.wf, Memory.risingFrom, Bool.and_eq_true, Bool.true_and] at hm ⊢
    tauto

theorem Memory.read_below {m : Memory} {lo a : Nat} (hm : Memory.risingFrom (some lo) m = true) (h : a ≤ lo) :
    Memory.read m a = Config.unlistedByte := by
  induction m generalizing lo with
  | nil => rfl
  | cons kv rest ih =>
    obtain ⟨k, v⟩ := kv
    simp only [Memory.risingFrom, Bool.and_eq_true, decide_eq_true_eq] at hm
    rw [Memory.read, if_neg (by omega)]
    exact ih hm.2 (by omega)

theorem Memory.risingFrom_cons {lo : Option Nat} {a : Nat} {b : Byte} {m : Memory}
    (hlo : ∀ l, lo = some l → l < a) (hm : Memory.risingFrom (some a) m = true) :
    Memory.risingFrom lo (Memory.cons a b m) = true := by
  unfold Memory.cons
  split
  · cases lo with
    | none => exact Memory.risingFrom_none hm
    | some l => exact Memory.risingFrom_weaken (Nat.le_of_lt (hlo l rfl)) hm
  · next hb =>
    cases lo with
    | none => simp [Memory.risingFrom, hb, hm]
    | some l => simp [Memory.risingFrom, hb, hm, hlo l rfl]

theorem Memory.risingFrom_write {lo : Option Nat} {a : Nat} {b : Byte} {m : Memory}
    (hlo : ∀ l, lo = some l → l < a) (hm : Memory.risingFrom lo m = true) :
    Memory.risingFrom lo (Memory.write m a b) = true := by
  induction m generalizing lo with
  | nil => exact Memory.risingFrom_cons hlo rfl
  | cons kv rest ih =>
    obtain ⟨k, v⟩ := kv
    have hkv : v ≠ Config.unlistedByte ∧ Memory.risingFrom (some k) rest = true := by
      simp only [Memory.risingFrom, Bool.and_eq_true, decide_eq_true_eq] at hm
      exact ⟨hm.1.2, hm.2⟩
    unfold Memory.write
    split
    · next h =>
      refine Memory.risingFrom_cons hlo ?_
      simp [Memory.risingFrom, h, hkv]
    · split
      · next h => exact Memory.risingFrom_cons hlo (h ▸ hkv.2)
      · next h1 h2 =>
        simp only [Memory.risingFrom, Bool.and_eq_true, decide_eq_true_eq] at hm ⊢
        exact ⟨hm.1, ih (fun l hl => by cases hl; omega) hkv.2⟩

/-- A write keeps the canonical form. -/
theorem Memory.wf_write {m : Memory} (a : Nat) (b : Byte) (hm : Memory.wf m = true) :
    Memory.wf (Memory.write m a b) = true :=
  Memory.risingFrom_write (fun _ h => nomatch h) hm

/-- A read after a write to the same address gives the value written. -/
theorem Memory.read_write_same {m : Memory} (a : Nat) (b : Byte) (hm : Memory.wf m = true) :
    Memory.read (Memory.write m a b) a = b := by
  suffices h : ∀ (lo : Option Nat) (m : Memory), Memory.risingFrom lo m = true →
      Memory.read (Memory.write m a b) a = b from h none m hm
  intro lo m hm
  induction m generalizing lo with
  | nil =>
    rw [Memory.write, Memory.read_cons, if_pos rfl]
    exact fun _ _ => rfl
  | cons kv rest ih =>
    obtain ⟨k, v⟩ := kv
    have hrest : Memory.risingFrom (some k) rest = true := by
      simp only [Memory.risingFrom, Bool.and_eq_true] at hm
      exact hm.2
    unfold Memory.write
    split
    · next h =>
      rw [Memory.read_cons, if_pos rfl]
      intro _ _
      rw [Memory.read, if_neg (by omega)]
      exact Memory.read_below hrest (by omega)
    · split
      · next h =>
        rw [Memory.read_cons, if_pos rfl]
        intro _ _
        exact Memory.read_below hrest (by omega)
      · next h1 h2 =>
        rw [Memory.read, if_neg h2]
        exact ih _ hrest

theorem Memory.read_write {m : Memory} (a : Nat) (b : Byte) (x : Nat) (hm : Memory.wf m = true) :
    Memory.read (Memory.write m a b) x = if x = a then b else Memory.read m x := by
  split
  · next h => rw [h]; exact Memory.read_write_same a b hm
  · next h => exact Memory.read_write_ne m b h

theorem Memory.wf_writeList {m : Memory} (a : Nat) (bs : List Byte) (hm : Memory.wf m = true) :
    Memory.wf (Memory.writeList m a bs) = true := by
  induction bs generalizing m a with
  | nil => exact hm
  | cons b bs ih => exact ih _ (Memory.wf_write a b hm)

theorem Memory.writeList_append (m : Memory) (a : Nat) (bs cs : List Byte) :
    Memory.writeList m a (bs ++ cs) = Memory.writeList (Memory.writeList m a bs) (a + bs.length) cs := by
  induction bs generalizing m a with
  | nil => rfl
  | cons b bs ih =>
    simp only [List.cons_append, Memory.writeList, ih, List.length_cons]
    congr 1
    omega

/-- A list of writes leaves every byte outside its addresses alone. -/
theorem Memory.read_writeList_outside (m : Memory) (a : Nat) (bs : List Byte) (x : Nat)
    (h : x < a ∨ a + bs.length ≤ x) : Memory.read (Memory.writeList m a bs) x = Memory.read m x := by
  induction bs generalizing m a with
  | nil => rfl
  | cons b bs ih =>
    simp only [List.length_cons] at h
    rw [Memory.writeList, ih _ _ (by omega), Memory.read_write_ne _ _ (by omega)]

/-- A list of writes stores its bytes in order. -/
theorem Memory.read_writeList_inside {m : Memory} (hm : Memory.wf m = true) (a : Nat) (bs : List Byte) (i : Nat)
    (h : i < bs.length) : Memory.read (Memory.writeList m a bs) (a + i) = bs[i] := by
  induction bs generalizing m a i with
  | nil => simp at h
  | cons b bs ih =>
    rw [Memory.writeList]
    cases i with
    | zero =>
      rw [Memory.read_writeList_outside _ _ _ _ (by omega)]
      simpa using Memory.read_write_same a b hm
    | succ i =>
      have := ih (Memory.wf_write a b hm) (a + 1) i (by simpa using h)
      rw [show a + (i + 1) = a + 1 + i by omega, this]
      rfl

end Sys2Proof.Machine
end

