-- ==== Sys2Proof/Laws/State.lean ====
section
/-! SUPPORT. One lemma for each field of State under each update, true by rfl, so that no proof unfolds an update. -/

namespace Sys2Proof.Machine

@[simp] theorem State.withPhase_phase (p : Phase) (s : State) : (s.withPhase p).phase = p := rfl
@[simp] theorem State.withPhase_desc (p : Phase) (s : State) : (s.withPhase p).desc = s.desc := rfl
@[simp] theorem State.withPhase_work (p : Phase) (s : State) : (s.withPhase p).work = s.work := rfl
@[simp] theorem State.withPhase_count (p : Phase) (s : State) : (s.withPhase p).count = s.count := rfl
@[simp] theorem State.withPhase_status (p : Phase) (s : State) : (s.withPhase p).status = s.status := rfl
@[simp] theorem State.withPhase_done (p : Phase) (s : State) : (s.withPhase p).done = s.done := rfl
@[simp] theorem State.withPhase_mem (p : Phase) (s : State) : (s.withPhase p).mem = s.mem := rfl
@[simp] theorem State.withPhase_inBuf (p : Phase) (s : State) : (s.withPhase p).inBuf = s.inBuf := rfl
@[simp] theorem State.withPhase_outBuf (p : Phase) (s : State) : (s.withPhase p).outBuf = s.outBuf := rfl
@[simp] theorem State.withPhase_sizeW (p : Phase) (s : State) : (s.withPhase p).sizeW = s.sizeW := rfl
@[simp] theorem State.withPhase_host (p : Phase) (s : State) : (s.withPhase p).host = s.host := rfl
@[simp] theorem State.withPhase_freeCtr (p : Phase) (s : State) : (s.withPhase p).freeCtr = s.freeCtr := rfl

@[simp] theorem State.withWork_phase (w : Working) (s : State) : (s.withWork w).phase = s.phase := rfl
@[simp] theorem State.withWork_desc (w : Working) (s : State) : (s.withWork w).desc = s.desc := rfl
@[simp] theorem State.withWork_work (w : Working) (s : State) : (s.withWork w).work = w := rfl
@[simp] theorem State.withWork_count (w : Working) (s : State) : (s.withWork w).count = s.count := rfl
@[simp] theorem State.withWork_status (w : Working) (s : State) : (s.withWork w).status = s.status := rfl
@[simp] theorem State.withWork_done (w : Working) (s : State) : (s.withWork w).done = s.done := rfl
@[simp] theorem State.withWork_mem (w : Working) (s : State) : (s.withWork w).mem = s.mem := rfl
@[simp] theorem State.withWork_inBuf (w : Working) (s : State) : (s.withWork w).inBuf = s.inBuf := rfl
@[simp] theorem State.withWork_outBuf (w : Working) (s : State) : (s.withWork w).outBuf = s.outBuf := rfl
@[simp] theorem State.withWork_sizeW (w : Working) (s : State) : (s.withWork w).sizeW = s.sizeW := rfl
@[simp] theorem State.withWork_host (w : Working) (s : State) : (s.withWork w).host = s.host := rfl
@[simp] theorem State.withWork_freeCtr (w : Working) (s : State) : (s.withWork w).freeCtr = s.freeCtr := rfl

@[simp] theorem State.withMem_phase (m : Memory) (s : State) : (s.withMem m).phase = s.phase := rfl
@[simp] theorem State.withMem_desc (m : Memory) (s : State) : (s.withMem m).desc = s.desc := rfl
@[simp] theorem State.withMem_work (m : Memory) (s : State) : (s.withMem m).work = s.work := rfl
@[simp] theorem State.withMem_count (m : Memory) (s : State) : (s.withMem m).count = s.count := rfl
@[simp] theorem State.withMem_status (m : Memory) (s : State) : (s.withMem m).status = s.status := rfl
@[simp] theorem State.withMem_done (m : Memory) (s : State) : (s.withMem m).done = s.done := rfl
@[simp] theorem State.withMem_mem (m : Memory) (s : State) : (s.withMem m).mem = m := rfl
@[simp] theorem State.withMem_inBuf (m : Memory) (s : State) : (s.withMem m).inBuf = s.inBuf := rfl
@[simp] theorem State.withMem_outBuf (m : Memory) (s : State) : (s.withMem m).outBuf = s.outBuf := rfl
@[simp] theorem State.withMem_sizeW (m : Memory) (s : State) : (s.withMem m).sizeW = s.sizeW := rfl
@[simp] theorem State.withMem_host (m : Memory) (s : State) : (s.withMem m).host = s.host := rfl
@[simp] theorem State.withMem_freeCtr (m : Memory) (s : State) : (s.withMem m).freeCtr = s.freeCtr := rfl

@[simp] theorem State.withHost_phase (h : List HostMove) (s : State) : (s.withHost h).phase = s.phase := rfl
@[simp] theorem State.withHost_desc (h : List HostMove) (s : State) : (s.withHost h).desc = s.desc := rfl
@[simp] theorem State.withHost_work (h : List HostMove) (s : State) : (s.withHost h).work = s.work := rfl
@[simp] theorem State.withHost_count (h : List HostMove) (s : State) : (s.withHost h).count = s.count := rfl
@[simp] theorem State.withHost_status (h : List HostMove) (s : State) : (s.withHost h).status = s.status := rfl
@[simp] theorem State.withHost_done (h : List HostMove) (s : State) : (s.withHost h).done = s.done := rfl
@[simp] theorem State.withHost_mem (h : List HostMove) (s : State) : (s.withHost h).mem = s.mem := rfl
@[simp] theorem State.withHost_inBuf (h : List HostMove) (s : State) : (s.withHost h).inBuf = s.inBuf := rfl
@[simp] theorem State.withHost_outBuf (h : List HostMove) (s : State) : (s.withHost h).outBuf = s.outBuf := rfl
@[simp] theorem State.withHost_sizeW (h : List HostMove) (s : State) : (s.withHost h).sizeW = s.sizeW := rfl
@[simp] theorem State.withHost_host (h : List HostMove) (s : State) : (s.withHost h).host = h := rfl
@[simp] theorem State.withHost_freeCtr (h : List HostMove) (s : State) : (s.withHost h).freeCtr = s.freeCtr := rfl

@[simp] theorem State.withBuffers_phase (i o : Option Region) (s : State) : (s.withBuffers i o).phase = s.phase := rfl
@[simp] theorem State.withBuffers_desc (i o : Option Region) (s : State) : (s.withBuffers i o).desc = s.desc := rfl
@[simp] theorem State.withBuffers_work (i o : Option Region) (s : State) : (s.withBuffers i o).work = s.work := rfl
@[simp] theorem State.withBuffers_count (i o : Option Region) (s : State) : (s.withBuffers i o).count = s.count := rfl
@[simp] theorem State.withBuffers_status (i o : Option Region) (s : State) : (s.withBuffers i o).status = s.status := rfl
@[simp] theorem State.withBuffers_done (i o : Option Region) (s : State) : (s.withBuffers i o).done = s.done := rfl
@[simp] theorem State.withBuffers_mem (i o : Option Region) (s : State) : (s.withBuffers i o).mem = s.mem := rfl
@[simp] theorem State.withBuffers_inBuf (i o : Option Region) (s : State) : (s.withBuffers i o).inBuf = i := rfl
@[simp] theorem State.withBuffers_outBuf (i o : Option Region) (s : State) : (s.withBuffers i o).outBuf = o := rfl
@[simp] theorem State.withBuffers_sizeW (i o : Option Region) (s : State) : (s.withBuffers i o).sizeW = s.sizeW := rfl
@[simp] theorem State.withBuffers_host (i o : Option Region) (s : State) : (s.withBuffers i o).host = s.host := rfl
@[simp] theorem State.withBuffers_freeCtr (i o : Option Region) (s : State) : (s.withBuffers i o).freeCtr = s.freeCtr := rfl

@[simp] theorem issue_phase (op : Op) (b : Base) (alt : Bool) (d : Operands) (s : State) : (issue op b alt d s).phase = .check := rfl
@[simp] theorem issue_desc (op : Op) (b : Base) (alt : Bool) (d : Operands) (s : State) : (issue op b alt d s).desc = latch op b alt d := rfl
@[simp] theorem issue_work (op : Op) (b : Base) (alt : Bool) (d : Operands) (s : State) : (issue op b alt d s).work = s.work := rfl
@[simp] theorem issue_count (op : Op) (b : Base) (alt : Bool) (d : Operands) (s : State) : (issue op b alt d s).count = s.count := rfl
@[simp] theorem issue_status (op : Op) (b : Base) (alt : Bool) (d : Operands) (s : State) : (issue op b alt d s).status = s.status := rfl
@[simp] theorem issue_done (op : Op) (b : Base) (alt : Bool) (d : Operands) (s : State) : (issue op b alt d s).done = false := rfl
@[simp] theorem issue_mem (op : Op) (b : Base) (alt : Bool) (d : Operands) (s : State) : (issue op b alt d s).mem = s.mem := rfl
@[simp] theorem issue_inBuf (op : Op) (b : Base) (alt : Bool) (d : Operands) (s : State) : (issue op b alt d s).inBuf = s.inBuf := rfl
@[simp] theorem issue_outBuf (op : Op) (b : Base) (alt : Bool) (d : Operands) (s : State) : (issue op b alt d s).outBuf = s.outBuf := rfl
@[simp] theorem issue_sizeW (op : Op) (b : Base) (alt : Bool) (d : Operands) (s : State) : (issue op b alt d s).sizeW = s.sizeW := rfl
@[simp] theorem issue_host (op : Op) (b : Base) (alt : Bool) (d : Operands) (s : State) : (issue op b alt d s).host = s.host := rfl
@[simp] theorem issue_freeCtr (op : Op) (b : Base) (alt : Bool) (d : Operands) (s : State) : (issue op b alt d s).freeCtr = s.freeCtr := rfl

@[simp] theorem raise_phase (st : Status) (s : State) : (raise st s).phase = .done := rfl
@[simp] theorem raise_desc (st : Status) (s : State) : (raise st s).desc = s.desc := rfl
@[simp] theorem raise_work (st : Status) (s : State) : (raise st s).work = s.work := rfl
@[simp] theorem raise_count (st : Status) (s : State) : (raise st s).count = 0 := rfl
@[simp] theorem raise_status (st : Status) (s : State) : (raise st s).status = st := rfl
@[simp] theorem raise_done (st : Status) (s : State) : (raise st s).done = true := rfl
@[simp] theorem raise_mem (st : Status) (s : State) : (raise st s).mem = s.mem := rfl
@[simp] theorem raise_inBuf (st : Status) (s : State) : (raise st s).inBuf = s.inBuf := rfl
@[simp] theorem raise_outBuf (st : Status) (s : State) : (raise st s).outBuf = s.outBuf := rfl
@[simp] theorem raise_sizeW (st : Status) (s : State) : (raise st s).sizeW = s.sizeW := rfl
@[simp] theorem raise_host (st : Status) (s : State) : (raise st s).host = s.host := rfl
@[simp] theorem raise_freeCtr (st : Status) (s : State) : (raise st s).freeCtr = s.freeCtr := rfl

@[simp] theorem finish_phase (n : Nat) (s : State) : (finish n s).phase = .done := rfl
@[simp] theorem finish_desc (n : Nat) (s : State) : (finish n s).desc = s.desc := rfl
@[simp] theorem finish_work (n : Nat) (s : State) : (finish n s).work = s.work := rfl
@[simp] theorem finish_count (n : Nat) (s : State) : (finish n s).count = n := rfl
@[simp] theorem finish_status (n : Nat) (s : State) : (finish n s).status = .success := rfl
@[simp] theorem finish_done (n : Nat) (s : State) : (finish n s).done = true := rfl
@[simp] theorem finish_mem (n : Nat) (s : State) : (finish n s).mem = s.mem := rfl
@[simp] theorem finish_inBuf (n : Nat) (s : State) : (finish n s).inBuf = s.inBuf := rfl
@[simp] theorem finish_outBuf (n : Nat) (s : State) : (finish n s).outBuf = s.outBuf := rfl
@[simp] theorem finish_sizeW (n : Nat) (s : State) : (finish n s).sizeW = s.sizeW := rfl
@[simp] theorem finish_host (n : Nat) (s : State) : (finish n s).host = s.host := rfl
@[simp] theorem finish_freeCtr (n : Nat) (s : State) : (finish n s).freeCtr = s.freeCtr := rfl

@[simp] theorem powerOnReset_phase (s : State) : (powerOnReset s).phase = .idle := rfl
@[simp] theorem powerOnReset_desc (s : State) : (powerOnReset s).desc = Latched.atReset := rfl
@[simp] theorem powerOnReset_work (s : State) : (powerOnReset s).work = Working.atReset := rfl
@[simp] theorem powerOnReset_count (s : State) : (powerOnReset s).count = 0 := rfl
@[simp] theorem powerOnReset_status (s : State) : (powerOnReset s).status = .success := rfl
@[simp] theorem powerOnReset_done (s : State) : (powerOnReset s).done = false := rfl
@[simp] theorem powerOnReset_mem (s : State) : (powerOnReset s).mem = s.mem := rfl
@[simp] theorem powerOnReset_inBuf (s : State) : (powerOnReset s).inBuf = none := rfl
@[simp] theorem powerOnReset_outBuf (s : State) : (powerOnReset s).outBuf = none := rfl
@[simp] theorem powerOnReset_sizeW (s : State) : (powerOnReset s).sizeW = s.sizeW := rfl
@[simp] theorem powerOnReset_host (s : State) : (powerOnReset s).host = s.host := rfl
@[simp] theorem powerOnReset_freeCtr (s : State) : (powerOnReset s).freeCtr = s.freeCtr := rfl

@[simp] theorem latch_op (op : Op) (b : Base) (alt : Bool) (d : Operands) : (latch op b alt d).op = op := rfl
@[simp] theorem latch_base (op : Op) (b : Base) (alt : Bool) (d : Operands) : (latch op b alt d).base = b := rfl
@[simp] theorem latch_alt (op : Op) (b : Base) (alt : Bool) (d : Operands) : (latch op b alt d).alt = alt := rfl
@[simp] theorem latch_toOperands (op : Op) (b : Base) (alt : Bool) (d : Operands) :
    (latch op b alt d).toOperands = d := rfl

@[simp] theorem State.withWork_withWork (w v : Working) (s : State) : (s.withWork v).withWork w = s.withWork w := rfl
@[simp] theorem State.withMem_withMem (m l : Memory) (s : State) : (s.withMem l).withMem m = s.withMem m := rfl
@[simp] theorem State.withPhase_withPhase (p q : Phase) (s : State) :
    (s.withPhase q).withPhase p = s.withPhase p := rfl
@[simp] theorem State.withWork_self (s : State) : s.withWork s.work = s := rfl
@[simp] theorem State.withMem_self (s : State) : s.withMem s.mem = s := rfl

end Sys2Proof.Machine
end

