-- ==== Sys2Proof/Laws/Emit.lean ====
section
/-! SUPPORT. Everything the output operations can do: `putOut`, `putAll`, `emit`, and the text that a run of emissions
leaves, one character at a time. -/

namespace Sys2Proof.Machine

@[simp] theorem Except.bind_of_ok {α β : Type} (a : α) (f : α → Except Fault β) :
    ((Except.ok a : Except Fault α) >>= f) = f a := rfl

/-- `bs` written at the output cursor, which moves past them. -/
def putState (ro : Region) (bs : List Byte) (s : State) : State :=
  (s.withMem (Memory.writeList s.mem (ro.base + s.work.outPos) bs)).withWork
    { s.work with outPos := s.work.outPos + bs.length }

@[simp] theorem putState_nil (ro : Region) (s : State) : putState ro [] s = s := rfl

theorem putState_append (ro : Region) (bs cs : List Byte) (s : State) :
    putState ro (bs ++ cs) s = putState ro cs (putState ro bs s) := by
  simp only [putState, State.withMem, State.withWork, Memory.writeList_append, List.length_append, Nat.add_assoc]

@[simp] theorem putState_phase (ro : Region) (bs : List Byte) (s : State) : (putState ro bs s).phase = s.phase := rfl
@[simp] theorem putState_desc (ro : Region) (bs : List Byte) (s : State) : (putState ro bs s).desc = s.desc := rfl
@[simp] theorem putState_inBuf (ro : Region) (bs : List Byte) (s : State) : (putState ro bs s).inBuf = s.inBuf := rfl
@[simp] theorem putState_outBuf (ro : Region) (bs : List Byte) (s : State) : (putState ro bs s).outBuf = s.outBuf := rfl
@[simp] theorem putState_mem (ro : Region) (bs : List Byte) (s : State) :
    (putState ro bs s).mem = Memory.writeList s.mem (ro.base + s.work.outPos) bs := rfl
@[simp] theorem putState_outPos (ro : Region) (bs : List Byte) (s : State) :
    (putState ro bs s).work.outPos = s.work.outPos + bs.length := rfl

theorem memWriteOut_ok {s : State} {ro : Region} (hb : s.outBuf = some ro) (hp : s.desc.outPresent = true) {i : Nat}
    (hi : i < s.desc.outCap) (v : Byte) :
    memWriteOut i v s = .ok (s.withMem (Memory.write s.mem (ro.base + i) v)) := by
  simp [memWriteOut, hb, hp, hi]

/-- `memWriteOut` answers only where R65 defines it, and then changes one byte. -/
theorem memWriteOut_inv {s t : State} {i : Nat} {v : Byte} (h : memWriteOut i v s = .ok t) :
    ∃ ro, s.outBuf = some ro ∧ s.desc.outPresent = true ∧ i < s.desc.outCap ∧
      t = s.withMem (Memory.write s.mem (ro.base + i) v) := by
  unfold memWriteOut at h
  split at h
  · cases h
  · next r hr =>
    split at h
    · next hc => cases h; exact ⟨r, hr, hc.1, hc.2, rfl⟩
    · cases h

theorem putOut_ok {s : State} {ro : Region} (hb : s.outBuf = some ro) (hp : s.desc.outPresent = true)
    (hi : s.work.outPos < s.desc.outCap) (v : Byte) : putOut v s = .ok (putState ro [v] s) := by
  simp [putOut, memWriteOut_ok hb hp hi]
  rfl

/-- `putOut` answers only where R65 defines the write. -/
theorem putOut_inv {s t : State} {v : Byte} (h : putOut v s = .ok t) :
    ∃ ro, s.outBuf = some ro ∧ s.desc.outPresent = true ∧ s.work.outPos < s.desc.outCap ∧ t = putState ro [v] s := by
  unfold putOut at h
  cases hm : memWriteOut s.work.outPos v s with
  | error e => rw [hm] at h; cases h
  | ok u =>
    obtain ⟨ro, hb, hp, hi, rfl⟩ := memWriteOut_inv hm
    rw [hm] at h
    cases h
    exact ⟨ro, hb, hp, hi, rfl⟩

theorem putAll_ok {ro : Region} (bs : List Byte) {s : State} (hb : s.outBuf = some ro) (hp : s.desc.outPresent = true)
    (hi : s.work.outPos + bs.length ≤ s.desc.outCap) : putAll bs s = .ok (putState ro bs s) := by
  induction bs generalizing s with
  | nil => rfl
  | cons b bs ih =>
    simp only [List.length_cons] at hi
    rw [putAll, putOut_ok hb hp (by omega), Except.bind_of_ok, ih (by simpa) (by simpa) (by simp; omega),
      ← putState_append]
    rfl

theorem putAll_inv {bs : List Byte} {s t : State} (h : putAll bs s = .ok t) (hn : bs ≠ []) :
    ∃ ro, s.outBuf = some ro ∧ s.desc.outPresent = true ∧ s.work.outPos + bs.length ≤ s.desc.outCap ∧
      t = putState ro bs s := by
  induction bs generalizing s with
  | nil => exact absurd rfl hn
  | cons b bs ih =>
    rw [putAll] at h
    cases hp : putOut b s with
    | error e => rw [hp] at h; cases h
    | ok u =>
      rw [hp, Except.bind_of_ok] at h
      obtain ⟨ro, hb, hpr, hi, rfl⟩ := putOut_inv hp
      cases bs with
      | nil => cases h; exact ⟨ro, hb, hpr, by simpa using hi, rfl⟩
      | cons c cs =>
        obtain ⟨ro', hb', -, hi', rfl⟩ := ih h (by simp)
        rw [putState_outBuf, hb] at hb'
        cases hb'
        refine ⟨ro, hb, hpr, ?_, ?_⟩
        · simp only [putState_outPos, putState_desc, List.length_cons, List.length_nil] at hi' ⊢
          omega
        · rw [← putState_append]; rfl

/-! Text and line column. -/

/-- The text of the characters `C` when the line already holds `col` of them (R153). -/
def wrapFrom (L : Nat) (e : List Byte) : Nat → List Byte → List Byte
  | _, [] => []
  | col, c :: cs =>
    if L = 0 then c :: wrapFrom L e col cs
    else if col + 1 = L then c :: (e ++ wrapFrom L e 0 cs)
    else c :: wrapFrom L e (col + 1) cs

/-- The line column after the characters `C` (R153). -/
def colAfter (L : Nat) : Nat → List Byte → Nat
  | col, [] => col
  | col, _ :: cs => if L = 0 then colAfter L col cs else if col + 1 = L then colAfter L 0 cs else colAfter L (col + 1) cs

theorem wrapFrom_append (L : Nat) (e : List Byte) (col : Nat) (C D : List Byte) :
    wrapFrom L e col (C ++ D) = wrapFrom L e col C ++ wrapFrom L e (colAfter L col C) D := by
  induction C generalizing col with
  | nil => rfl
  | cons c cs ih =>
    simp only [List.cons_append, wrapFrom, colAfter]
    split
    · rw [ih]; rfl
    · split
      · rw [ih]; simp
      · rw [ih]; rfl

theorem colAfter_append (L : Nat) (col : Nat) (C D : List Byte) :
    colAfter L col (C ++ D) = colAfter L (colAfter L col C) D := by
  induction C generalizing col with
  | nil => rfl
  | cons c cs ih =>
    simp only [List.cons_append, colAfter]
    split
    · exact ih _
    · split <;> exact ih _

/-- The text written by one emission after another is the line ending inserted after every `L`-th character. -/
theorem wrapText_eq (L : Nat) (e C : List Byte) : wrapText L e C = wrapFrom L e 0 C := by
  suffices h : ∀ i, (C.zipIdx i).flatMap
      (fun ci => if 0 < L ∧ (ci.2 + 1) % L = 0 then ci.1 :: e else [ci.1]) = wrapFrom L e (i % L * (min L 1)) C by
    have := h 0
    simpa [wrapText] using this
  induction C with
  | nil => intro i; rfl
  | cons c cs ih =>
    intro i
    rw [List.zipIdx_cons, List.flatMap_cons, ih]
    rcases Nat.eq_zero_or_pos L with hL | hL
    · subst hL
      simp [wrapFrom]
    · have h1 : min L 1 = 1 := by omega
      simp only [h1, Nat.mul_one, wrapFrom, if_neg (show L ≠ 0 by omega), hL, true_and]
      have hm := Nat.mod_lt i hL
      by_cases hc : i % L + 1 = L
      · have h2 : (i + 1) % L = 0 := by
          rw [← Nat.mod_add_div i L, show i % L + L * (i / L) + 1 = L + L * (i / L) by omega]
          simp
        simp [h2, hc]
      · have h2 : (i + 1) % L = i % L + 1 := by
          rw [Nat.add_mod, Nat.mod_eq_of_lt (a := 1) (by omega), Nat.mod_eq_of_lt (by omega)]
        simp [h2, hc]

theorem colAfter_eq (L : Nat) (hL : 0 < L) (col : Nat) (hc : col < L) (C : List Byte) :
    colAfter L col C = (col + C.length) % L := by
  induction C generalizing col with
  | nil => simp [colAfter, Nat.mod_eq_of_lt hc]
  | cons c cs ih =>
    simp only [colAfter, if_neg (show L ≠ 0 by omega), List.length_cons]
    split
    · next h =>
      rw [ih 0 hL, show col + (cs.length + 1) = cs.length + L by omega, Nat.add_mod_right, Nat.zero_add]
    · next h => rw [ih _ (by omega)]; congr 1; omega

theorem colAfter_zero (col : Nat) (C : List Byte) : colAfter 0 col C = col := by
  induction C with
  | nil => rfl
  | cons c cs ih => simpa [colAfter] using ih

/-- The length of a text: its characters and a line ending for each full line. -/
theorem length_wrapFrom (L : Nat) (e : List Byte) (col : Nat) (hc : L = 0 ∨ col < L) (C : List Byte) :
    (wrapFrom L e col C).length = C.length + lineBreaks L (col + C.length) * e.length := by
  induction C generalizing col with
  | nil =>
    rcases hc with rfl | h
    · simp [wrapFrom, lineBreaks]
    · simp [wrapFrom, lineBreaks, Nat.div_eq_of_lt h]
  | cons c cs ih =>
    rcases Nat.eq_zero_or_pos L with rfl | hL
    · have := ih col (.inl rfl)
      simp [wrapFrom, lineBreaks] at this ⊢
      exact this
    · have hc : col < L := by omega
      simp only [wrapFrom, if_neg (show L ≠ 0 by omega), List.length_cons]
      split
      · next h =>
        have hd : (col + (cs.length + 1)) / L = cs.length / L + 1 := by
          rw [show col + (cs.length + 1) = cs.length + L by omega, Nat.add_div_right _ hL]
        simp only [List.length_cons, List.length_append, ih 0 (.inr hL), lineBreaks, if_pos hL, hd, Nat.zero_add]
        ring
      · next h =>
        simp only [List.length_cons, ih (col + 1) (.inr (by omega)), lineBreaks, if_pos hL]
        rw [show col + 1 + cs.length = col + (cs.length + 1) by omega]
        ring

/-! Emission. -/

/-- The state after the characters `C` have been emitted. -/
def emitState (ro : Region) (C : List Byte) (s : State) : State :=
  let t := putState ro (wrapFrom s.desc.lineLength (lineEnding s.desc.toOperands) s.work.col C) s
  t.withWork { t.work with col := colAfter s.desc.lineLength s.work.col C }

@[simp] theorem emitState_nil (ro : Region) (s : State) : emitState ro [] s = s := rfl
@[simp] theorem emitState_phase (ro : Region) (C : List Byte) (s : State) : (emitState ro C s).phase = s.phase := rfl
@[simp] theorem emitState_desc (ro : Region) (C : List Byte) (s : State) : (emitState ro C s).desc = s.desc := rfl
@[simp] theorem emitState_inBuf (ro : Region) (C : List Byte) (s : State) : (emitState ro C s).inBuf = s.inBuf := rfl
@[simp] theorem emitState_outBuf (ro : Region) (C : List Byte) (s : State) :
    (emitState ro C s).outBuf = s.outBuf := rfl
@[simp] theorem emitState_acc (ro : Region) (C : List Byte) (s : State) :
    (emitState ro C s).work.acc = s.work.acc := rfl
@[simp] theorem emitState_nbits (ro : Region) (C : List Byte) (s : State) :
    (emitState ro C s).work.nbits = s.work.nbits := rfl
@[simp] theorem emitState_inPos (ro : Region) (C : List Byte) (s : State) :
    (emitState ro C s).work.inPos = s.work.inPos := rfl
@[simp] theorem emitState_gpos (ro : Region) (C : List Byte) (s : State) :
    (emitState ro C s).work.gpos = s.work.gpos := rfl
@[simp] theorem emitState_npad (ro : Region) (C : List Byte) (s : State) :
    (emitState ro C s).work.npad = s.work.npad := rfl
@[simp] theorem emitState_col (ro : Region) (C : List Byte) (s : State) :
    (emitState ro C s).work.col = colAfter s.desc.lineLength s.work.col C := rfl
@[simp] theorem emitState_outPos (ro : Region) (C : List Byte) (s : State) :
    (emitState ro C s).work.outPos =
      s.work.outPos + (wrapFrom s.desc.lineLength (lineEnding s.desc.toOperands) s.work.col C).length := rfl
@[simp] theorem emitState_mem (ro : Region) (C : List Byte) (s : State) :
    (emitState ro C s).mem = Memory.writeList s.mem (ro.base + s.work.outPos)
      (wrapFrom s.desc.lineLength (lineEnding s.desc.toOperands) s.work.col C) := rfl

theorem emitState_append (ro : Region) (C D : List Byte) (s : State) :
    emitState ro (C ++ D) s = emitState ro D (emitState ro C s) := by
  simp only [emitState, putState, State.withMem, State.withWork, wrapFrom_append, colAfter_append,
    Memory.writeList_append, List.length_append, Nat.add_assoc]

theorem wrapFrom_single_pos (L : Nat) (e : List Byte) (col : Nat) (c : Byte) : 0 < (wrapFrom L e col [c]).length := by
  simp only [wrapFrom]
  split
  · simp
  · split <;> simp

/-- After the character, the line ending: what `wrapLine` adds to what `putOut` wrote. -/
theorem wrapLine_putState_ok {s : State} {ro : Region} (hb : s.outBuf = some ro) (hp : s.desc.outPresent = true)
    (c : Byte) (hi : s.work.outPos + (wrapFrom s.desc.lineLength (lineEnding s.desc.toOperands) s.work.col [c]).length
      ≤ s.desc.outCap) : wrapLine (putState ro [c] s) = .ok (emitState ro [c] s) := by
  have hcol : (putState ro [c] s).work.col = s.work.col := rfl
  unfold wrapLine emitState
  by_cases hL : s.desc.lineLength = 0
  · simp [hL, wrapFrom, colAfter]
    rfl
  · by_cases hc : s.work.col + 1 = s.desc.lineLength
    · have hL1 : s.work.col + 1 ≠ 0 := by omega
      simp only [wrapFrom, if_neg hL, if_pos hc, List.append_nil, List.length_cons] at hi
      rw [if_neg (by simpa), if_pos (by simpa [hcol]), putAll_ok (ro := ro) _ (by simpa) (by simpa)
        (by simp only [putState_outPos, putState_desc, List.length_cons, List.length_nil]; omega)]
      rw [Except.bind_of_ok, ← putState_append]
      simp [wrapFrom, colAfter, ← hc]
    · simp [hL, hc, hcol, wrapFrom, colAfter]

theorem emit_ok {s : State} {ro : Region} (hb : s.outBuf = some ro) (hp : s.desc.outPresent = true) (c : Byte)
    (hi : s.work.outPos + (wrapFrom s.desc.lineLength (lineEnding s.desc.toOperands) s.work.col [c]).length
      ≤ s.desc.outCap) : emit c s = .ok (emitState ro [c] s) := by
  have := wrapFrom_single_pos s.desc.lineLength (lineEnding s.desc.toOperands) s.work.col c
  rw [emit, putOut_ok hb hp (by omega), Except.bind_of_ok, wrapLine_putState_ok hb hp c hi]

/-- `emit` answers only where every write it makes is defined (R65), and then leaves the emitted text. -/
theorem emit_inv {s t : State} {c : Byte} (h : emit c s = .ok t) :
    ∃ ro, s.outBuf = some ro ∧ s.desc.outPresent = true ∧
      s.work.outPos + (wrapFrom s.desc.lineLength (lineEnding s.desc.toOperands) s.work.col [c]).length
        ≤ s.desc.outCap ∧ t = emitState ro [c] s := by
  unfold emit at h
  cases hp : putOut c s with
  | error e => rw [hp] at h; cases h
  | ok u =>
    rw [hp, Except.bind_of_ok] at h
    obtain ⟨ro, hb, hpr, hi, rfl⟩ := putOut_inv hp
    suffices hroom : s.work.outPos +
        (wrapFrom s.desc.lineLength (lineEnding s.desc.toOperands) s.work.col [c]).length ≤ s.desc.outCap by
      rw [wrapLine_putState_ok hb hpr c hroom] at h
      cases h
      exact ⟨ro, hb, hpr, hroom, rfl⟩
    unfold wrapLine at h
    have hcol : (putState ro [c] s).work.col = s.work.col := rfl
    by_cases hL : s.desc.lineLength = 0
    · simp only [wrapFrom, if_pos hL, List.length_singleton]
      omega
    · by_cases hc : s.work.col + 1 = s.desc.lineLength
      · simp only [wrapFrom, if_neg hL, if_pos hc, List.append_nil, List.length_cons]
        rw [if_neg (by simpa), if_pos (by simpa [hcol])] at h
        by_cases he : lineEnding s.desc.toOperands = []
        · rw [he]; simp only [List.length_nil]; omega
        · cases ha : putAll (lineEnding s.desc.toOperands) (putState ro [c] s) with
          | error e => rw [putState_desc, ha] at h; cases h
          | ok u =>
            obtain ⟨-, -, -, hi', -⟩ := putAll_inv ha he
            simp only [putState_outPos, putState_desc, List.length_singleton] at hi'
            omega
      · simp only [wrapFrom, if_neg hL, if_neg hc, List.length_singleton]
        omega

end Sys2Proof.Machine
end

