-- ==== Sys2Proof/Laws/EncRun.lean ====
section
/-! SUPPORT. What the phases of an encode command do, and the run of a whole encode from CHECK. -/

namespace Sys2Proof.Machine

theorem symbolWidth_bounds (b : Base) : 4 ≤ symbolWidth b ∧ symbolWidth b ≤ 6 := by cases b <;> decide

/-- FWD has an entry for every symbol value. -/
theorem fwd_some (base : Base) (alt : Bool) {v : Nat} (h : v < 2 ^ symbolWidth base) :
    ∃ c, fwd base alt v = some c := by
  cases base <;> cases alt <;> simp only [symbolWidth] at h <;> simp only [fwd] <;> split_ifs <;>
    first | exact ⟨_, rfl⟩ | omega

/-- The characters of symbol values. -/
def symChars (base : Base) (alt : Bool) (vs : List Nat) : List Byte := vs.filterMap (fwd base alt)

@[simp] theorem symChars_nil (base : Base) (alt : Bool) : symChars base alt [] = [] := rfl

theorem symChars_append (base : Base) (alt : Bool) (us vs : List Nat) :
    symChars base alt (us ++ vs) = symChars base alt us ++ symChars base alt vs := List.filterMap_append

theorem symChars_cons {base : Base} {alt : Bool} {v : Nat} {c : Byte} (h : fwd base alt v = some c) (vs : List Nat) :
    symChars base alt (v :: vs) = c :: symChars base alt vs := by simp [symChars, h]

theorem length_symChars (base : Base) (alt : Bool) (vs : List Nat) (h : ∀ v ∈ vs, v < 2 ^ symbolWidth base) :
    (symChars base alt vs).length = vs.length := by
  induction vs with
  | nil => rfl
  | cons v vs ih =>
    obtain ⟨c, hc⟩ := fwd_some base alt (h v (by simp))
    rw [symChars_cons hc, List.length_cons, List.length_cons, ih (fun u hu => h u (by simp [hu]))]

/-- The state of an encode that started at `s0`: `i` bytes read, the bits `P` pending, the characters `C` emitted. -/
def encAt (ro : Region) (s0 : State) (p : Phase) (i : Nat) (P : List Bool) (C : List Byte) : State :=
  ((emitState ro C s0).withWork
    { (emitState ro C s0).work with inPos := i, acc := BitVec.ofNat 13 (valueOf P), nbits := P.length }).withPhase p

/-- The text of the characters `C`, written from the cursor of `s0`, fits the output buffer. -/
def Fits (s0 : State) (C : List Byte) : Prop :=
  s0.work.outPos + (wrapFrom s0.desc.lineLength (lineEnding s0.desc.toOperands) s0.work.col C).length ≤ s0.desc.outCap

theorem Fits.left {s0 : State} {C D : List Byte} (h : Fits s0 (C ++ D)) : Fits s0 C := by
  unfold Fits at *
  rw [wrapFrom_append, List.length_append] at h
  omega

section
variable {ro : Region} {s0 : State}

@[simp] theorem encAt_phase (p : Phase) (i : Nat) (P : List Bool) (C : List Byte) :
    (encAt ro s0 p i P C).phase = p := rfl
@[simp] theorem encAt_desc (p : Phase) (i : Nat) (P : List Bool) (C : List Byte) :
    (encAt ro s0 p i P C).desc = s0.desc := rfl
@[simp] theorem encAt_inPos (p : Phase) (i : Nat) (P : List Bool) (C : List Byte) :
    (encAt ro s0 p i P C).work.inPos = i := rfl
@[simp] theorem encAt_nbits (p : Phase) (i : Nat) (P : List Bool) (C : List Byte) :
    (encAt ro s0 p i P C).work.nbits = P.length := rfl
@[simp] theorem encAt_acc (p : Phase) (i : Nat) (P : List Bool) (C : List Byte) :
    (encAt ro s0 p i P C).work.acc = BitVec.ofNat 13 (valueOf P) := rfl
@[simp] theorem encAt_inBuf (p : Phase) (i : Nat) (P : List Bool) (C : List Byte) :
    (encAt ro s0 p i P C).inBuf = s0.inBuf := rfl
@[simp] theorem encAt_outBuf (p : Phase) (i : Nat) (P : List Bool) (C : List Byte) :
    (encAt ro s0 p i P C).outBuf = s0.outBuf := rfl
@[simp] theorem encAt_mem (p : Phase) (i : Nat) (P : List Bool) (C : List Byte) :
    (encAt ro s0 p i P C).mem = Memory.writeList s0.mem (ro.base + s0.work.outPos)
      (wrapFrom s0.desc.lineLength (lineEnding s0.desc.toOperands) s0.work.col C) := rfl
@[simp] theorem encAt_outPos (p : Phase) (i : Nat) (P : List Bool) (C : List Byte) :
    (encAt ro s0 p i P C).work.outPos =
      s0.work.outPos + (wrapFrom s0.desc.lineLength (lineEnding s0.desc.toOperands) s0.work.col C).length := rfl

@[simp] theorem encAt_col (p : Phase) (i : Nat) (P : List Bool) (C : List Byte) :
    (encAt ro s0 p i P C).work.col = colAfter s0.desc.lineLength s0.work.col C := rfl

theorem encAt_holds (p : Phase) (i : Nat) {P : List Bool} (C : List Byte) (h : P.length ≤ 13) :
    Holds (encAt ro s0 p i P C).work.acc (encAt ro s0 p i P C).work.nbits P := by
  refine ⟨rfl, ?_⟩
  rw [encAt_acc, BitVec.toNat_ofNat, Nat.mod_eq_of_lt]
  exact Nat.lt_of_lt_of_le (valueOf_lt P) (Nat.pow_le_pow_right (by decide) h)

/-- A state that holds the bits `P` is fixed by them. -/
theorem Holds.acc_eq {a : Acc} {n : Nat} {P : List Bool} (h : Holds a n P) : a = BitVec.ofNat 13 (valueOf P) := by
  rw [← h.2, BitVec.ofNat_toNat, BitVec.setWidth_eq]

theorem emitState_encAt (p : Phase) (i : Nat) (P : List Bool) (C D : List Byte) :
    emitState ro D (encAt ro s0 p i P C) = encAt ro s0 p i P (C ++ D) := by
  unfold encAt
  rw [emitState_append]
  rfl

theorem emit_encAt (hb : s0.outBuf = some ro) (hp : s0.desc.outPresent = true) (p : Phase) (i : Nat) (P : List Bool)
    {C : List Byte} {c : Byte} (hf : Fits s0 (C ++ [c])) :
    emit c (encAt ro s0 p i P C) = .ok (encAt ro s0 p i P (C ++ [c])) := by
  rw [emit_ok (ro := ro) (by simpa) (by simpa), emitState_encAt]
  unfold Fits at hf
  rw [wrapFrom_append, List.length_append] at hf
  simp only [encAt_outPos, encAt_desc, encAt_col]
  omega

theorem emitSymbol_encAt (hb : s0.outBuf = some ro) (hp : s0.desc.outPresent = true) (p : Phase) (i : Nat)
    (P : List Bool) {C : List Byte} {v : Nat} (hv : v < 2 ^ symbolWidth s0.desc.base)
    (hf : Fits s0 (C ++ symChars s0.desc.base s0.desc.alt [v])) :
    emitSymbol v (encAt ro s0 p i P C) = .ok (encAt ro s0 p i P (C ++ symChars s0.desc.base s0.desc.alt [v])) := by
  obtain ⟨c, hc⟩ := fwd_some s0.desc.base s0.desc.alt hv
  rw [symChars_cons hc, symChars_nil] at hf ⊢
  simp only [emitSymbol, encAt_desc, fwdRead, hc, Except.bind_of_ok]
  exact emit_encAt hb hp p i P hf

/-- `Drain()`: the full symbols among the pending bits are emitted, the rest stays (R155). -/
theorem drainLoop_encAt (hb : s0.outBuf = some ro) (hp : s0.desc.outPresent = true) (p : Phase) (i : Nat)
    (fuel : Nat) {P : List Bool} {C : List Byte} (hP : P.length ≤ 13)
    (hf : Fits s0 (C ++ symChars s0.desc.base s0.desc.alt (cutFront (symbolWidth s0.desc.base) fuel P).1)) :
    drainLoop fuel (encAt ro s0 p i P C) =
      .ok (encAt ro s0 p i (cutFront (symbolWidth s0.desc.base) fuel P).2
        (C ++ symChars s0.desc.base s0.desc.alt (cutFront (symbolWidth s0.desc.base) fuel P).1)) := by
  induction fuel generalizing P C with
  | zero => simp [drainLoop, cutFront]
  | succ fuel ih =>
    by_cases h : symbolWidth s0.desc.base ≤ P.length
    · rw [drainLoop, if_pos (by simpa using h)]
      simp only [cutFront, if_pos h] at hf ⊢
      have hH := encAt_holds (ro := ro) (s0 := s0) p i C hP
      have htop : topSymbol (encAt ro s0 p i P C) = valueOf (P.take (symbolWidth s0.desc.base)) := hH.top h hP
      have hv : valueOf (P.take (symbolWidth s0.desc.base)) < 2 ^ symbolWidth s0.desc.base := by
        simpa [Nat.min_eq_left h] using valueOf_lt (P.take (symbolWidth s0.desc.base))
      obtain ⟨c, hc⟩ := fwd_some s0.desc.base s0.desc.alt hv
      have hsplit : ∀ vs, C ++ symChars s0.desc.base s0.desc.alt (valueOf (P.take (symbolWidth s0.desc.base)) :: vs)
          = (C ++ symChars s0.desc.base s0.desc.alt [valueOf (P.take (symbolWidth s0.desc.base))])
            ++ symChars s0.desc.base s0.desc.alt vs := by
        intro vs
        rw [List.append_assoc, ← symChars_append]
        rfl
      rw [hsplit] at hf ⊢
      rw [htop, emitSymbol_encAt hb hp p i P hv hf.left, Except.bind_of_ok]
      simp only [encAt_desc, encAt_nbits]
      have hnew : ∀ D, (encAt ro s0 p i P D).withWork { (encAt ro s0 p i P D).work with
          nbits := P.length - symbolWidth s0.desc.base
          acc := (encAt ro s0 p i P D).work.acc &&& accMask (P.length - symbolWidth s0.desc.base) }
          = encAt ro s0 p i (P.drop (symbolWidth s0.desc.base)) D := by
        intro D
        have hm := ((encAt_holds (ro := ro) (s0 := s0) p i D hP).mask h hP)
        simp only [encAt_nbits] at hm
        rw [hm.acc_eq, hm.1]
        rfl
      rw [hnew]
      exact ih (by rw [List.length_drop]; omega) hf
    · rw [drainLoop, if_neg (by simpa using h)]
      simp [h, cutFront]

/-- BODY on an input byte: its bits join the pending ones and the full symbols are emitted (R154). -/
theorem encBody_encAt (hb : s0.outBuf = some ro) (hp : s0.desc.outPresent = true) {i : Nat} {P : List Bool}
    {C : List Byte} {b : Byte} (hi : i < s0.desc.inLen)
    (hread : memReadIn (encAt ro s0 .body i P C) i = .ok b) (hP : P.length < symbolWidth s0.desc.base)
    (hf : Fits s0 (C ++ symChars s0.desc.base s0.desc.alt
      (cutFront (symbolWidth s0.desc.base) (P.length + 8) (P ++ bitsOf 8 b.toNat)).1)) :
    encBody (encAt ro s0 .body i P C) =
      .ok (encAt ro s0 .body (i + 1) (cutFront (symbolWidth s0.desc.base) (P.length + 8) (P ++ bitsOf 8 b.toNat)).2
        (C ++ symChars s0.desc.base s0.desc.alt
          (cutFront (symbolWidth s0.desc.base) (P.length + 8) (P ++ bitsOf 8 b.toNat)).1)) := by
  have hw := symbolWidth_bounds s0.desc.base
  simp only [encBody, encAt_inPos, encAt_desc, if_neg (Nat.ne_of_lt hi), hread, Except.bind_of_ok]
  have hlen : (P ++ bitsOf 8 b.toNat).length = P.length + 8 := by simp [length_bitsOf]
  have hsh := (encAt_holds (ro := ro) (s0 := s0) .body i C (by omega : P.length ≤ 13)).shiftIn 8 (b.setWidth 13)
    (by rw [BitVec.toNat_setWidth]; have := b.isLt; omega) (by simp only [encAt_nbits]; omega)
  have hb8 : (b.setWidth 13).toNat = b.toNat := by
    rw [BitVec.toNat_setWidth, Nat.mod_eq_of_lt]
    have := b.isLt
    omega
  rw [hb8] at hsh
  have hnew : (encAt ro s0 .body i P C).withWork { (encAt ro s0 .body i P C).work with
      inPos := i + 1
      acc := ((encAt ro s0 .body i P C).work.acc <<< 8) ||| b.setWidth 13
      nbits := (encAt ro s0 .body i P C).work.nbits + 8 }
      = encAt ro s0 .body (i + 1) (P ++ bitsOf 8 b.toNat) C := by
    rw [hsh.acc_eq, hsh.1]
    rfl
  rw [hnew, drain, encAt_nbits, hlen]
  exact drainLoop_encAt hb hp .body (i + 1) _ (by omega) hf

theorem encTail_encAt (hb : s0.outBuf = some ro) (hp : s0.desc.outPresent = true) {i : Nat} {P : List Bool}
    {C : List Byte} (hP : P.length < symbolWidth s0.desc.base)
    (hf : Fits s0 (C ++ symChars s0.desc.base s0.desc.alt (pieces (symbolWidth s0.desc.base) P))) :
    encTail (encAt ro s0 .tail i P C) =
      .ok (encAt ro s0 .pad i [] (C ++ symChars s0.desc.base s0.desc.alt (pieces (symbolWidth s0.desc.base) P))) := by
  have hw := symbolWidth_bounds s0.desc.base
  by_cases h0 : P = []
  · subst h0
    simp [encTail, pieces_nil _ (show 0 < symbolWidth s0.desc.base by omega)]
    rfl
  · have hpos : 0 < P.length := List.length_pos_iff.mpr h0
    have hsym : tailSymbol (encAt ro s0 .tail i P C)
        = valueOf (P ++ List.replicate (symbolWidth s0.desc.base - P.length) false) :=
      (encAt_holds (ro := ro) (s0 := s0) .tail i C (by omega)).pad (w := symbolWidth s0.desc.base) (Nat.le_of_lt hP)
        (by omega)
    have hv : valueOf (P ++ List.replicate (symbolWidth s0.desc.base - P.length) false)
        < 2 ^ symbolWidth s0.desc.base := by
      have := valueOf_lt (P ++ List.replicate (symbolWidth s0.desc.base - P.length) false)
      rwa [List.length_append, List.length_replicate, Nat.add_sub_of_le (Nat.le_of_lt hP)] at this
    rw [pieces_short h0 hP] at hf ⊢
    rw [encTail, if_pos (by simpa using hpos), hsym, emitSymbol_encAt hb hp .tail i P hv hf, Except.bind_of_ok]
    rfl

theorem emitPads_encAt (hb : s0.outBuf = some ro) (hp : s0.desc.outPresent = true) (p : Phase) (i : Nat)
    (P : List Bool) (n : Nat) {C : List Byte} (hf : Fits s0 (C ++ List.replicate n Config.padChar)) :
    emitPads n (encAt ro s0 p i P C) = .ok (encAt ro s0 p i P (C ++ List.replicate n Config.padChar)) := by
  induction n generalizing C with
  | zero => simp [emitPads]
  | succ n ih =>
    have hsplit : C ++ List.replicate (n + 1) Config.padChar
        = (C ++ [Config.padChar]) ++ List.replicate n Config.padChar := by simp [List.replicate_succ]
    rw [hsplit] at hf ⊢
    rw [emitPads, emit_encAt hb hp p i P hf.left, Except.bind_of_ok, ih hf]

/-- BODY over the bytes `R`, whatever bits `T` come behind them (R154): the pending bits `Q` and the symbols `vs` that are
left are those of the bit string read so far. -/
theorem encBody_prefix (hb : s0.outBuf = some ro) (hp : s0.desc.outPresent = true) (hop : s0.desc.op = .enc)
    (R : List Byte) (T : List Bool) (k i : Nat) {P : List Bool} {C D : List Byte} (hi : i + R.length ≤ s0.desc.inLen)
    (hP : P.length < symbolWidth s0.desc.base)
    (hread : ∀ (j : Nat) (hj : j < R.length) (Q : List Bool) (B : List Byte), Fits s0 B →
      memReadIn (encAt ro s0 .body (i + j) Q B) (i + j) = .ok R[j])
    (hf : Fits s0 (C ++ symChars s0.desc.base s0.desc.alt
      (pieces (symbolWidth s0.desc.base) (P ++ bitString 8 (R.map BitVec.toNat) ++ T)) ++ D)) :
    ∃ (Q : List Bool) (vs : List Nat), Q.length < symbolWidth s0.desc.base ∧
      (∀ U, pieces (symbolWidth s0.desc.base) (P ++ bitString 8 (R.map BitVec.toNat) ++ U)
        = vs ++ pieces (symbolWidth s0.desc.base) (Q ++ U)) ∧
      P.length + 8 * R.length = symbolWidth s0.desc.base * vs.length + Q.length ∧
      runTicks (R.length + k) (encAt ro s0 .body i P C) =
        runTicks k (encAt ro s0 .body (i + R.length) Q (C ++ symChars s0.desc.base s0.desc.alt vs)) := by
  have hw := symbolWidth_bounds s0.desc.base
  induction R generalizing i P C with
  | nil => exact ⟨P, [], hP, by simp, by simp, by simp⟩
  | cons b R ih =>
    simp only [List.length_cons] at hi
    have hcut := fun U => pieces_cutFront (show 0 < symbolWidth s0.desc.base by omega) (P.length + 8)
      (P ++ bitsOf 8 b.toNat) (bitString 8 (R.map BitVec.toNat) ++ U)
    have hassoc : ∀ U, P ++ bitString 8 ((b :: R).map BitVec.toNat) ++ U
        = P ++ bitsOf 8 b.toNat ++ (bitString 8 (R.map BitVec.toNat) ++ U) := by
      intro U
      rw [List.map_cons, bitString_cons]
      simp only [List.append_assoc]
    have hrest := cutFront_rest_lt (show 0 < symbolWidth s0.desc.base by omega) (P.length + 8) (P ++ bitsOf 8 b.toNat)
      (by simp [length_bitsOf])
    have hcount := length_cutFront (symbolWidth s0.desc.base) (P.length + 8) (P ++ bitsOf 8 b.toNat)
    rw [List.length_append, length_bitsOf] at hcount
    rw [hassoc, hcut, ← List.append_assoc _ _ T, symChars_append, ← List.append_assoc] at hf
    have hbody := encBody_encAt (C := C) hb hp (show i < s0.desc.inLen by omega)
      (hread 0 (by simp) P C hf.left.left.left) hP hf.left.left
    obtain ⟨Q, vs, hQ, hvs, hlen, hrun⟩ := ih (i + 1) (by omega) hrest
      (fun j hj Q B hB => by
        have := hread (j + 1) (by simpa using hj) Q B hB
        rw [show i + (j + 1) = i + 1 + j by omega] at this
        simpa using this) hf
    refine ⟨Q, (cutFront (symbolWidth s0.desc.base) (P.length + 8) (P ++ bitsOf 8 b.toNat)).1 ++ vs, hQ, ?_, ?_, ?_⟩
    · intro U
      rw [hassoc, hcut, ← List.append_assoc _ _ U, hvs, List.append_assoc]
    · rw [List.length_append, Nat.mul_add, List.length_cons]
      omega
    · rw [List.length_cons, show R.length + 1 + k = (R.length + k) + 1 by omega, runTicks]
      simp only [encAt_phase, Phase.inFlight, if_true, tick, encAt_desc, hop]
      rw [hbody, Except.bind_of_ok, List.getElem_cons_zero, hrun, symChars_append, List.append_assoc,
        show i + 1 + R.length = i + (R.length + 1) by omega]

/-- BODY over the rest of the input, then the moving step to TAIL (R154). -/
theorem encBody_run (hb : s0.outBuf = some ro) (hp : s0.desc.outPresent = true) (hop : s0.desc.op = .enc)
    (R : List Byte) (k i : Nat) {P : List Bool} {C D : List Byte} (hi : i + R.length = s0.desc.inLen)
    (hP : P.length < symbolWidth s0.desc.base)
    (hread : ∀ (j : Nat) (hj : j < R.length) (Q : List Bool) (B : List Byte), Fits s0 B →
      memReadIn (encAt ro s0 .body (i + j) Q B) (i + j) = .ok R[j])
    (hf : Fits s0 (C ++ symChars s0.desc.base s0.desc.alt
      (pieces (symbolWidth s0.desc.base) (P ++ bitString 8 (R.map BitVec.toNat))) ++ D)) :
    ∃ (Q : List Bool) (vs : List Nat), Q.length < symbolWidth s0.desc.base ∧
      pieces (symbolWidth s0.desc.base) (P ++ bitString 8 (R.map BitVec.toNat))
        = vs ++ pieces (symbolWidth s0.desc.base) Q ∧
      runTicks (R.length + 1 + k) (encAt ro s0 .body i P C) =
        runTicks k (encAt ro s0 .tail s0.desc.inLen Q (C ++ symChars s0.desc.base s0.desc.alt vs)) := by
  obtain ⟨Q, vs, hQ, hvs, -, hrun⟩ := encBody_prefix (D := D) hb hp hop R [] (k + 1) i (by omega) hP hread
    (by rw [List.append_nil]; exact hf)
  refine ⟨Q, vs, hQ, by simpa using hvs [], ?_⟩
  rw [show R.length + 1 + k = R.length + (k + 1) by omega, hrun, hi, runTicks]
  simp only [encAt_phase, Phase.inFlight, if_true, tick, encAt_desc, hop, encBody, encAt_inPos, Except.bind_of_ok]
  rfl

end

/-! Sizes (R131, R141). -/

theorem length_lineEnding (d : Operands) (h : d.leLen ≤ 2) : (lineEnding d).length = d.leLen := by
  simp [lineEnding, h]

/-- Symbols and padding are as many as the size calculator says (40_size.md R131 steps 2 and 3, R141). -/
theorem length_encChars (d : Latched) (input : List Byte) (hn : input.length = d.inLen) :
    (encChars d input).length = charCount d.base d.usePadding input.length := by
  have hsym := length_symChars d.base d.alt
    (pieces (symbolWidth d.base) (bitString 8 (input.map BitVec.toNat))) (fun v hv => lt_of_mem_pieces hv)
  unfold symChars at hsym
  rw [encChars, List.length_append, hsym, length_pieces, length_bitString, List.length_map, List.length_replicate, hn]
  unfold charCount symbolCount Latched.pads
  cases d.usePadding
  · simp
  · simp only [if_true]
    cases d.base <;> simp only [symbolWidth, bytesPerGroup, charsPerGroup, padCount, ceilDiv, roundUp]
    · omega
    · have h : d.inLen % 5 = 0 ∨ d.inLen % 5 = 1 ∨ d.inLen % 5 = 2 ∨ d.inLen % 5 = 3
          ∨ d.inLen % 5 = 4 := by omega
      rcases h with h | h | h | h | h <;> simp [h] <;> omega
    · have h : d.inLen % 3 = 0 ∨ d.inLen % 3 = 1 ∨ d.inLen % 3 = 2 := by omega
      rcases h with h | h | h <;> simp [h] <;> omega

theorem length_encText (d : Latched) (input : List Byte) (h : d.leLen ≤ 2) (hn : input.length = d.inLen) :
    (encText d input).length = charCount d.base d.usePadding input.length
      + lineBreaks d.lineLength (charCount d.base d.usePadding input.length) * d.leLen := by
  rw [encText, wrapText_eq, length_wrapFrom _ _ _ (by omega), length_encChars _ _ hn, length_lineEnding _ h, Nat.zero_add, hn]

/-- The size of an encode is its text and the null marker (R141). -/
theorem encSize_eq_some {sizeW : Nat} {d : Latched} {input : List Byte} {total : Nat} (hl : d.leLen ≤ 2)
    (hn : input.length = d.inLen) (h : d.encSize sizeW = some total) :
    (encText d input).length + bitOf d.nulTerm = total := by
  simp only [Latched.encSize, encSize] at h
  split_ifs at h
  cases h
  rw [length_encText d input hl hn, hn]

/-! The run of a whole encode. -/

/-- Buffers as a complying host supplies them to ENC and DEC (70_reset_and_hazards.md R286, R287, R289). -/
structure Supplied (d : Operands) (s : State) (ri ro : Region) : Prop where
  inPresent : d.inPresent = true
  outPresent : d.outPresent = true
  inBuf : s.inBuf = some ri
  outBuf : s.outBuf = some ro
  inRoom : d.inLen ≤ ri.size
  outRoom : d.outCap ≤ ro.size
  apart : Region.overlaps ⟨ri.base, d.inLen⟩ ⟨ro.base, d.outCap⟩ = false

theorem Supplied.outside {d : Operands} {s : State} {ri ro : Region} (h : Supplied d s ri ro) {i n : Nat}
    (hi : i < d.inLen) (hn : n ≤ d.outCap) : ri.base + i < ro.base ∨ ro.base + n ≤ ri.base + i := by
  have h1 := h.inRoom
  have h2 := h.outRoom
  have h3 := h.apart
  simp only [Region.overlaps, Bool.and_eq_false_iff, decide_eq_false_iff_not] at h3
  omega

/-- The state an encode of the issued state `s` ends in. -/
def encDone (ri ro : Region) (s : State) : State :=
  let input := Memory.readList s.mem ri.base s.desc.inLen
  let text := encText s.desc input
  finish text.length
    ((s.withMem (Memory.writeList s.mem ro.base (text ++ if s.desc.nulTerm then [0x00] else []))).withWork
      { s.work with
        acc := 0
        nbits := 0
        inPos := s.desc.inLen
        outPos := text.length
        col := colAfter s.desc.lineLength 0 (encChars s.desc input) })

theorem length_readList (m : Memory) (a n : Nat) : (Memory.readList m a n).length = n := by simp [Memory.readList]

theorem getElem_readList (m : Memory) (a n i : Nat) (h : i < (Memory.readList m a n).length) :
    (Memory.readList m a n)[i] = Memory.read m (a + i) := by simp [Memory.readList]

theorem runTicks_succ {n : Nat} {s t : State} (hp : s.phase.inFlight = true) (h : tick s = .ok t) :
    runTicks (n + 1) s = runTicks n t := by
  rw [runTicks, if_pos hp, h]
  rfl

theorem runTicks_settled {s : State} (hp : s.phase.inFlight = false) (n : Nat) : runTicks n s = .ok s := by
  cases n with
  | zero => rfl
  | succ n => rw [runTicks, hp]; rfl

theorem tick_tail_enc {s : State} (hp : s.phase = .tail) (ho : s.desc.op = .enc) : tick s = encTail s := by
  simp [tick, hp, ho]

theorem tick_pad_enc {s : State} (hp : s.phase = .pad) (ho : s.desc.op = .enc) : tick s = encPad s := by
  simp [tick, hp, ho]

theorem tick_term_enc {s : State} (hp : s.phase = .term) (ho : s.desc.op = .enc) : tick s = encTerm s := by
  simp [tick, hp, ho]

section
variable {s : State} {ri ro : Region} {total : Nat}

/-- The state of an encode after a CHECK that passed (R152). -/
def encStart (s : State) : State := (encInit s).withPhase .body

@[simp] theorem encStart_desc : (encStart s).desc = s.desc := rfl

theorem enc_tick_check (hop : s.desc.op = .enc) (hph : s.phase = .check) (hb : Supplied s.desc.toOperands s ri ro)
    (ht : s.desc.encSize s.sizeW = some total) (hcap : total ≤ s.desc.outCap) : tick s = .ok (encStart s) := by
  have : checkStatus (s.desc.encSize s.sizeW) s.desc.toOperands = none := by
    simp [checkStatus, hb.inPresent, hb.outPresent, ht, Nat.not_lt.mpr hcap]
  simp [tick, hph, hop, encCheck, this, encStart]

/-- The buffer CHECK accepts has room for the whole text (R141). -/
theorem enc_fits (hl : s.desc.leLen ≤ 2) (ht : s.desc.encSize s.sizeW = some total) (hcap : total ≤ s.desc.outCap) :
    Fits (encStart s) (encChars s.desc (Memory.readList s.mem ri.base s.desc.inLen)) := by
  have hsize := encSize_eq_some (input := Memory.readList s.mem ri.base s.desc.inLen) hl (length_readList ..) ht
  have : (wrapFrom s.desc.lineLength (lineEnding s.desc.toOperands) 0
      (encChars s.desc (Memory.readList s.mem ri.base s.desc.inLen))).length
      = (encText s.desc (Memory.readList s.mem ri.base s.desc.inLen)).length := by rw [encText, wrapText_eq]
  show 0 + (wrapFrom s.desc.lineLength (lineEnding s.desc.toOperands) 0
      (encChars s.desc (Memory.readList s.mem ri.base s.desc.inLen))).length ≤ s.desc.outCap
  omega

/-- While the text written fits its buffer, the input reads as it did at issue (R64, R289). -/
theorem enc_reads (hb : Supplied s.desc.toOperands s ri ro) (j : Nat)
    (hj : j < (Memory.readList s.mem ri.base s.desc.inLen).length) (Q : List Bool) (B : List Byte)
    (hB : Fits (encStart s) B) : memReadIn (encAt ro (encStart s) .body (0 + j) Q B) (0 + j)
      = .ok (Memory.readList s.mem ri.base s.desc.inLen)[j] := by
  rw [length_readList] at hj
  unfold Fits at hB
  have hz : (encStart s).work.outPos = 0 := rfl
  have hd0 : (encStart s).desc = s.desc := rfl
  have hib : (encStart s).inBuf = some ri := hb.inBuf
  rw [hz, Nat.zero_add] at hB
  have hout := hb.outside hj hB
  simp only [memReadIn, encAt_inBuf, encAt_desc, encAt_mem, Nat.zero_add, hz, Nat.add_zero, hib, hd0, hb.inPresent, hj,
    and_self, if_true]
  rw [Memory.read_writeList_outside _ _ _ _ (by rw [hd0] at hout; exact hout), getElem_readList]
  rfl

/-- After CHECK and `n` input bytes: fewer than a symbol's bits are pending, the symbols before them are emitted (R154,
10_state.md R45). -/
theorem enc_run_body (hop : s.desc.op = .enc) (hph : s.phase = .check) (hb : Supplied s.desc.toOperands s ri ro)
    (hl : s.desc.leLen ≤ 2) (ht : s.desc.encSize s.sizeW = some total) (hcap : total ≤ s.desc.outCap) (n : Nat)
    (hn : n ≤ s.desc.inLen) (k : Nat) :
    ∃ (Q : List Bool) (vs : List Nat), Q.length < symbolWidth s.desc.base
      ∧ 8 * n = symbolWidth s.desc.base * vs.length + Q.length ∧ (∀ v ∈ vs, v < 2 ^ symbolWidth s.desc.base)
      ∧ Fits (encStart s) (symChars s.desc.base s.desc.alt vs)
      ∧ runTicks (1 + n + k) s = runTicks k (encAt ro (encStart s) .body n Q (symChars s.desc.base s.desc.alt vs)) := by
  have hw := symbolWidth_bounds s.desc.base
  set input := Memory.readList s.mem ri.base s.desc.inLen with hinput
  have hlen : input.length = s.desc.inLen := length_readList ..
  have hfit := enc_fits (ri := ri) hl ht hcap
  have hsplit : bitString 8 (input.map BitVec.toNat) = bitString 8 ((input.take n).map BitVec.toNat)
      ++ bitString 8 ((input.drop n).map BitVec.toNat) := by
    rw [← bitString_append, ← List.map_append, List.take_append_drop]
  have hfit' : Fits (encStart s) ([] ++ symChars s.desc.base s.desc.alt (pieces (symbolWidth s.desc.base)
      ([] ++ bitString 8 ((input.take n).map BitVec.toNat) ++ bitString 8 ((input.drop n).map BitVec.toNat)))
        ++ List.replicate s.desc.pads Config.padChar) := by
    rw [List.nil_append, List.nil_append, ← hsplit]
    exact hfit
  obtain ⟨Q, vs, hQ, hvs, hcount, hrun⟩ := encBody_prefix (ro := ro) (s0 := encStart s) (P := []) (C := [])
    (D := List.replicate s.desc.pads Config.padChar) hb.outBuf hb.outPresent hop (input.take n)
    (bitString 8 ((input.drop n).map BitVec.toNat)) k 0
    (show 0 + (input.take n).length ≤ s.desc.inLen by rw [List.length_take]; omega)
    (show 0 < symbolWidth s.desc.base by omega)
    (fun j hj Q B hB => by
      have hj' : j < input.length := by rw [List.length_take] at hj; omega
      rw [enc_reads hb j hj' Q B hB, List.getElem_take]) hfit'
  have hvs' := hvs (bitString 8 ((input.drop n).map BitVec.toNat))
  rw [List.nil_append, ← hsplit, encStart_desc] at hvs'
  have hlt : (input.take n).length = n := by rw [List.length_take]; omega
  rw [hlt, List.length_nil, Nat.zero_add] at hcount
  rw [hlt, Nat.zero_add, List.nil_append] at hrun
  refine ⟨Q, vs, hQ, hcount, fun v hv => ?_, ?_, ?_⟩
  · exact lt_of_mem_pieces (w := symbolWidth s.desc.base) (bits := bitString 8 (input.map BitVec.toNat))
      (by rw [hvs']; exact List.mem_append_left _ hv)
  · have hC : encChars s.desc input = symChars s.desc.base s.desc.alt vs ++ (symChars s.desc.base s.desc.alt
        (pieces (symbolWidth s.desc.base) (Q ++ bitString 8 ((input.drop n).map BitVec.toNat)))
        ++ List.replicate s.desc.pads Config.padChar) := by
      rw [← List.append_assoc, ← symChars_append, ← hvs']
      rfl
    rw [hC] at hfit
    exact hfit.left
  · rw [show 1 + n + k = (n + k) + 1 by omega]
    refine (runTicks_succ (by rw [hph]; rfl) (enc_tick_check hop hph hb ht hcap)).trans ?_
    exact hrun

/-- From a CHECK that passes, an encode is at TERM, its text written, after `in_len + 4` ticks (R284). -/
theorem enc_run_to_term (hop : s.desc.op = .enc) (hph : s.phase = .check)
    (hb : Supplied s.desc.toOperands s ri ro) (hl : s.desc.leLen ≤ 2)
    (ht : s.desc.encSize s.sizeW = some total) (hcap : total ≤ s.desc.outCap) (k : Nat) :
    runTicks (s.desc.inLen + 4 + k) s =
      runTicks k (encAt ro (encStart s) .term s.desc.inLen []
        (encChars s.desc (Memory.readList s.mem ri.base s.desc.inLen))) := by
  have hw := symbolWidth_bounds s.desc.base
  set input := Memory.readList s.mem ri.base s.desc.inLen with hinput
  have hlen : input.length = s.desc.inLen := length_readList ..
  have hfit := enc_fits (ri := ri) hl ht hcap
  have hfit' : Fits (encStart s) ([] ++ symChars s.desc.base s.desc.alt (pieces (symbolWidth s.desc.base)
      ([] ++ bitString 8 (input.map BitVec.toNat))) ++ List.replicate s.desc.pads Config.padChar) := hfit
  obtain ⟨Q, vs, hQ, hvs, hrun⟩ := encBody_run (ro := ro) (s0 := encStart s) (P := []) (C := [])
    (D := List.replicate s.desc.pads Config.padChar) hb.outBuf hb.outPresent hop input (k + 2) 0
    (by rw [hlen]; exact Nat.zero_add _) (show 0 < symbolWidth s.desc.base by omega)
    (fun j hj Q B hB => enc_reads hb j hj Q B hB) hfit'
  rw [List.nil_append, encStart_desc] at hvs
  have hchars : encChars s.desc input = symChars s.desc.base s.desc.alt vs
      ++ symChars s.desc.base s.desc.alt (pieces (symbolWidth s.desc.base) Q)
      ++ List.replicate s.desc.pads Config.padChar := by
    rw [← symChars_append, ← hvs]
    rfl
  rw [hchars] at hfit
  have htail := encTail_encAt (ro := ro) (s0 := encStart s) (i := s.desc.inLen)
    (C := symChars s.desc.base s.desc.alt vs) hb.outBuf hb.outPresent hQ hfit.left
  have hpad : tick (encAt ro (encStart s) .pad s.desc.inLen [] (symChars s.desc.base s.desc.alt vs
      ++ symChars s.desc.base s.desc.alt (pieces (symbolWidth s.desc.base) Q)))
      = .ok (encAt ro (encStart s) .term s.desc.inLen [] (encChars s.desc input)) := by
    refine (tick_pad_enc (s := encAt ro (encStart s) .pad s.desc.inLen [] _) rfl hop).trans ?_
    rw [encPad, encAt_desc, show (encStart s).desc = s.desc from rfl,
      emitPads_encAt (s0 := encStart s) hb.outBuf hb.outPresent _ _ _ _ hfit, Except.bind_of_ok, hchars]
    rfl
  rw [show s.desc.inLen + 4 + k = (input.length + 1 + (k + 2)) + 1 by omega]
  refine (runTicks_succ (by rw [hph]; rfl) (enc_tick_check hop hph hb ht hcap)).trans (hrun.trans ?_)
  rw [List.nil_append]
  refine (runTicks_succ rfl
    ((tick_tail_enc (s := encAt ro (encStart s) .tail s.desc.inLen Q _) rfl hop).trans htail)).trans ?_
  exact runTicks_succ rfl hpad

end

/-- TERM writes the null marker, if asked for, and ends the command (R158). -/
theorem encTerm_done {s : State} {ri ro : Region} (hb : Supplied s.desc.toOperands s ri ro) (hl : s.desc.leLen ≤ 2)
    {total : Nat} (ht : s.desc.encSize s.sizeW = some total) (hcap : total ≤ s.desc.outCap) :
    encTerm (encAt ro (encStart s) .term s.desc.inLen []
      (encChars s.desc (Memory.readList s.mem ri.base s.desc.inLen))) = .ok (encDone ri ro s) := by
  have hsize := encSize_eq_some (input := Memory.readList s.mem ri.base s.desc.inLen) hl (length_readList ..) ht
  set input := Memory.readList s.mem ri.base s.desc.inLen with hinput
  set s0 := encStart s with hs0
  have htext : wrapFrom s0.desc.lineLength (lineEnding s0.desc.toOperands) s0.work.col (encChars s.desc input)
      = encText s.desc input := by rw [encText, wrapText_eq]; rfl
  have hout : (encAt ro s0 .term s.desc.inLen [] (encChars s.desc input)).work.outPos
      = (encText s.desc input).length := by rw [encAt_outPos, htext]; exact Nat.zero_add _
  have hat : encAt ro s0 .term s.desc.inLen [] (encChars s.desc input) =
      ((s.withMem (Memory.writeList s.mem ro.base (encText s.desc input))).withWork
        { s.work with
          acc := 0
          nbits := 0
          inPos := s.desc.inLen
          outPos := (encText s.desc input).length
          col := colAfter s.desc.lineLength 0 (encChars s.desc input) }).withPhase .term := by
    rw [encAt, emitState, htext]
    simp only [putState, State.withPhase, State.withWork, State.withMem, hs0, encStart, encInit, Nat.add_zero, Nat.zero_add]
    rfl
  have hdone : encDone ri ro s = finish (encText s.desc input).length
      ((s.withMem (Memory.writeList s.mem ro.base (encText s.desc input ++ if s.desc.nulTerm then [0x00] else []))).withWork
        { s.work with
          acc := 0
          nbits := 0
          inPos := s.desc.inLen
          outPos := (encText s.desc input).length
          col := colAfter s.desc.lineLength 0 (encChars s.desc input) }) := rfl
  have hn : (encAt ro s0 .term s.desc.inLen [] (encChars s.desc input)).desc.nulTerm = s.desc.nulTerm := rfl
  rw [hdone, encTerm]
  cases hnul : s.desc.nulTerm
  · rw [if_neg (by rw [hn, hnul]; decide), Except.bind_of_ok]
    dsimp only
    rw [hout, hat]
    simp only [Bool.false_eq_true, if_false, List.append_nil]
    rfl
  · rw [hnul] at hsize
    simp only [bitOf, if_true] at hsize ⊢
    rw [if_pos (by rw [hn, hnul]), memWriteOut_ok (s := encAt ro s0 .term s.desc.inLen [] _) (ro := ro) hb.outBuf
      hb.outPresent (by rw [hout]; exact (show (encText s.desc input).length < s.desc.outCap by omega)), Except.bind_of_ok,
      State.withMem_work, hout, hat, Memory.writeList_append]
    rfl

/-- From a CHECK that passes, an encode is DONE after `in_len + 5` ticks (R284), in the state `encDone`. -/
theorem enc_run {s : State} {ri ro : Region} (hop : s.desc.op = .enc) (hph : s.phase = .check)
    (hb : Supplied s.desc.toOperands s ri ro) (hl : s.desc.leLen ≤ 2) {total : Nat}
    (ht : s.desc.encSize s.sizeW = some total) (hcap : total ≤ s.desc.outCap) (k : Nat) :
    runTicks (s.desc.inLen + 5 + k) s = .ok (encDone ri ro s) := by
  rw [show s.desc.inLen + 5 + k = s.desc.inLen + 4 + (k + 1) by omega, enc_run_to_term hop hph hb hl ht hcap,
    runTicks_succ rfl ((tick_term_enc (s := encAt ro (encStart s) .term s.desc.inLen [] _) rfl hop).trans
      (encTerm_done hb hl ht hcap))]
  exact runTicks_settled rfl k

end Sys2Proof.Machine
end

