-- ==== Sys2Proof/Laws/DecRun.lean ====
section
/-! SUPPORT. What the phases of a decode command do, and the run of a whole decode from CHECK. -/

namespace Sys2Proof.Machine

/-! Decoded bytes and leftover bits, one symbol at a time. -/

theorem length_decodedBytes (w : Nat) (vs : List Nat) : (decodedBytes w vs).length = vs.length * w / 8 := by
  simp [decodedBytes]

theorem length_leftoverBits (w : Nat) (vs : List Nat) : (leftoverBits w vs).length = vs.length * w % 8 := by
  rw [leftoverBits, List.length_drop, length_bitString]
  omega

theorem piece_append_left (w : Nat) (P Q : List Bool) {j : Nat} (h : (j + 1) * w ≤ P.length) :
    piece w (P ++ Q) j = piece w P j := by
  have h1 : j * w + w ≤ P.length := by rw [← Nat.succ_mul]; exact h
  unfold piece
  rw [List.drop_append_of_le_length (by omega), List.take_append_of_le_length (by rw [List.length_drop]; omega)]

theorem piece_full (w : Nat) (bits : List Bool) {j : Nat} (h : j * w + w ≤ bits.length) :
    piece w bits j = valueOf ((bits.drop (j * w)).take w) := by
  unfold piece
  have : ((bits.drop (j * w)).take w).length = w := by rw [List.length_take, List.length_drop]; omega
  simp [this]

/-- One more symbol completes a byte, or none. -/
theorem decodedBytes_snoc (w : Nat) (hw : w ≤ 8) (vs : List Nat) (v : Nat) :
    decodedBytes w (vs ++ [v]) =
      if 8 ≤ vs.length * w % 8 + w then
        decodedBytes w vs ++ [BitVec.ofNat 8 (valueOf ((leftoverBits w vs ++ bitsOf w v).take 8))]
      else decodedBytes w vs := by
  have hl := length_bitString w vs
  have hmul : (vs.length + 1) * w = vs.length * w + w := Nat.succ_mul _ _
  have hsame : (List.range (vs.length * w / 8)).map (fun j => BitVec.ofNat 8 (piece 8 (bitString w (vs ++ [v])) j))
      = decodedBytes w vs := by
    unfold decodedBytes
    apply List.map_congr_left
    intro j hj
    rw [List.mem_range] at hj
    rw [bitString_append, piece_append_left _ _ _ (by rw [hl]; omega)]
  unfold decodedBytes at *
  rw [List.length_append, List.length_singleton, hmul]
  split
  · next h =>
    rw [show (vs.length * w + w) / 8 = vs.length * w / 8 + 1 by omega, List.range_succ, List.map_append, hsame,
      List.map_singleton]
    congr 3
    rw [piece_full _ _ (by
      rw [bitString_append, List.length_append, hl, length_bitString, List.length_singleton]
      omega)]
    congr 2
    rw [bitString_append, List.drop_append_of_le_length (by rw [hl]; omega)]
    simp [leftoverBits, bitString_cons]
  · next h => rw [show (vs.length * w + w) / 8 = vs.length * w / 8 by omega, hsame]

theorem leftoverBits_snoc (w : Nat) (hw : w ≤ 8) (vs : List Nat) (v : Nat) :
    leftoverBits w (vs ++ [v]) =
      if 8 ≤ vs.length * w % 8 + w then (leftoverBits w vs ++ bitsOf w v).drop 8
      else leftoverBits w vs ++ bitsOf w v := by
  have hl := length_bitString w vs
  have hmul : (vs.length + 1) * w = vs.length * w + w := Nat.succ_mul _ _
  have hsplit : (bitString w vs ++ bitsOf w v).drop (vs.length * w / 8 * 8) = leftoverBits w vs ++ bitsOf w v := by
    rw [List.drop_append_of_le_length (by rw [hl]; omega)]
    rfl
  unfold leftoverBits at *
  rw [List.length_append, List.length_singleton, hmul, bitString_append, bitString_cons, bitString_nil, List.append_nil]
  split
  · next h =>
    rw [show (vs.length * w + w) / 8 * 8 = vs.length * w / 8 * 8 + 8 by omega, ← List.drop_drop, hsplit]
  · next h => rw [show (vs.length * w + w) / 8 * 8 = vs.length * w / 8 * 8 by omega, hsplit]

/-! Classes. -/

theorem symValues_snoc (cs : List ByteClass) (c : ByteClass) :
    symValues (cs ++ [c]) = symValues cs ++ symValues [c] := List.filterMap_append

theorem length_symValues_le (cs : List ByteClass) : (symValues cs).length ≤ cs.length := List.length_filterMap_le ..

/-- Every symbol value of REV is one of its base. -/
theorem rev_lt (base : Base) (alt : Bool) (c : Byte) (h : rev base alt c ≠ Config.invalid) :
    (rev base alt c).toNat < 2 ^ symbolWidth base := by
  revert c
  cases base <;> cases alt <;> decide +kernel

theorem classify_sym_lt {d : Latched} {c : Byte} {v : Nat} (h : classify d c = .sym v) :
    v < 2 ^ symbolWidth d.base := by
  unfold classify at h
  split_ifs at h with h1 h2 h3
  cases h
  exact rev_lt _ _ _ h3

/-! The state of a decode. -/

/-- The state of a decode that started at `s0` and has read `i` bytes, the accepted ones of classes `cs`. -/
def decAt (ro : Region) (s0 : State) (p : Phase) (i : Nat) (cs : List ByteClass) : State :=
  let w := symbolWidth s0.desc.base
  let t := putState ro (decodedBytes w (symValues cs)) s0
  (t.withWork { t.work with
    inPos := i
    acc := BitVec.ofNat 13 (valueOf (leftoverBits w (symValues cs)))
    nbits := (leftoverBits w (symValues cs)).length
    gpos := (symValues cs).length % charsPerGroup s0.desc.base
    npad := min (cs.count .pad) 7 }).withPhase p

section
variable {ro : Region} {s0 : State} (p : Phase) (i : Nat) (cs : List ByteClass)

@[simp] theorem decAt_phase : (decAt ro s0 p i cs).phase = p := rfl
@[simp] theorem decAt_desc : (decAt ro s0 p i cs).desc = s0.desc := rfl
@[simp] theorem decAt_inBuf : (decAt ro s0 p i cs).inBuf = s0.inBuf := rfl
@[simp] theorem decAt_outBuf : (decAt ro s0 p i cs).outBuf = s0.outBuf := rfl
@[simp] theorem decAt_inPos : (decAt ro s0 p i cs).work.inPos = i := rfl
@[simp] theorem decAt_outPos : (decAt ro s0 p i cs).work.outPos =
    s0.work.outPos + (decodedBytes (symbolWidth s0.desc.base) (symValues cs)).length := rfl
@[simp] theorem decAt_nbits : (decAt ro s0 p i cs).work.nbits =
    (leftoverBits (symbolWidth s0.desc.base) (symValues cs)).length := rfl
@[simp] theorem decAt_acc : (decAt ro s0 p i cs).work.acc =
    BitVec.ofNat 13 (valueOf (leftoverBits (symbolWidth s0.desc.base) (symValues cs))) := rfl
@[simp] theorem decAt_gpos : (decAt ro s0 p i cs).work.gpos =
    (symValues cs).length % charsPerGroup s0.desc.base := rfl
@[simp] theorem decAt_npad : (decAt ro s0 p i cs).work.npad = min (cs.count .pad) 7 := rfl
@[simp] theorem decAt_mem : (decAt ro s0 p i cs).mem = Memory.writeList s0.mem (ro.base + s0.work.outPos)
    (decodedBytes (symbolWidth s0.desc.base) (symValues cs)) := rfl

theorem decAt_holds : Holds (decAt ro s0 p i cs).work.acc (decAt ro s0 p i cs).work.nbits
    (leftoverBits (symbolWidth s0.desc.base) (symValues cs)) := by
  refine ⟨rfl, ?_⟩
  rw [decAt_acc, BitVec.toNat_ofNat, Nat.mod_eq_of_lt]
  refine Nat.lt_of_lt_of_le (valueOf_lt _) (Nat.pow_le_pow_right (by decide) ?_)
  rw [length_leftoverBits]
  omega

theorem decAt_paddingSeen : paddingSeen (decAt ro s0 p i cs) = cs.contains .pad := by
  rw [paddingSeen, decAt_npad, Bool.eq_iff_iff, decide_eq_true_iff, List.contains_iff_mem, ← List.count_pos_iff]
  omega

end

section
variable {ro : Region} {s0 : State}

/-- A skipped byte changes no register but the input cursor (R194). -/
theorem decByte_skip (i : Nat) (cs : List ByteClass) :
    decByte .skip (decAt ro s0 .body i cs) = .ok (decAt ro s0 .body i (cs ++ [.skip])) := by
  have h1 : symValues (cs ++ [.skip]) = symValues cs := by rw [symValues_snoc]; simp [symValues]
  simp [decByte, decAt, h1]

/-- A padding character is counted, saturating at 7 (R195). -/
theorem decByte_pad (i : Nat) (cs : List ByteClass) :
    decByte .pad (decAt ro s0 .body i cs) = .ok (decAt ro s0 .body i (cs ++ [.pad])) := by
  have h1 : symValues (cs ++ [.pad]) = symValues cs := by rw [symValues_snoc]; simp [symValues]
  have h2 : min (min (cs.count ByteClass.pad) 7 + 1) 7 = min (cs.count .pad + 1) 7 := by omega
  simp only [decByte, padStep, decAt_npad, h2]
  simp [decAt, h1]
  rfl

/-- A symbol joins the pending bits, and a complete byte is written (R196, R197). -/
theorem decByte_sym (hb : s0.outBuf = some ro) (hp : s0.desc.outPresent = true) (i : Nat) (cs : List ByteClass) {v : Nat}
    (hv : v < 2 ^ symbolWidth s0.desc.base) (hpad : cs.contains .pad = false)
    (hroom : s0.work.outPos + (decodedBytes (symbolWidth s0.desc.base) (symValues (cs ++ [.sym v]))).length
      ≤ s0.desc.outCap) :
    decByte (.sym v) (decAt ro s0 .body i cs) = .ok (decAt ro s0 .body i (cs ++ [.sym v])) := by
  have hw := symbolWidth_bounds s0.desc.base
  have h1 : symValues (cs ++ [.sym v]) = symValues cs ++ [v] := by rw [symValues_snoc]; simp [symValues]
  have hcnt : (cs ++ [ByteClass.sym v]).count .pad = cs.count .pad := by simp [List.count_append]
  have hlo := length_leftoverBits (symbolWidth s0.desc.base) (symValues cs)
  have hv13 : (BitVec.ofNat 13 v).toNat = v := by
    rw [BitVec.toNat_ofNat, Nat.mod_eq_of_lt]
    exact Nat.lt_of_lt_of_le hv (Nat.pow_le_pow_right (by decide) (by omega))
  have hsh := (decAt_holds (ro := ro) (s0 := s0) .body i cs).shiftIn (symbolWidth s0.desc.base) (BitVec.ofNat 13 v)
    (by rw [hv13]; exact hv) (by rw [decAt_nbits]; omega)
  rw [hv13] at hsh
  have hgpos : ((symValues cs).length % charsPerGroup s0.desc.base + 1) % charsPerGroup s0.desc.base
      = (symValues cs ++ [v]).length % charsPerGroup s0.desc.base := by
    rw [List.length_append, List.length_singleton, Nat.mod_add_mod]
  simp only [decByte, symStep, decAt_paddingSeen, hpad, Bool.false_eq_true, if_false, decAt_desc, decAt_gpos, hgpos]
  rw [hsh.acc_eq, hsh.1]
  rw [h1, decodedBytes_snoc _ (by omega)] at hroom
  unfold extract
  by_cases h8 : 8 ≤ (leftoverBits (symbolWidth s0.desc.base) (symValues cs)
      ++ bitsOf (symbolWidth s0.desc.base) v).length
  · have h8' : 8 ≤ (symValues cs).length * symbolWidth s0.desc.base % 8 + symbolWidth s0.desc.base := by
      rw [List.length_append, length_bitsOf, hlo] at h8
      exact h8
    rw [if_pos h8', List.length_append, List.length_singleton] at hroom
    rw [if_pos (by simpa using h8), putOut_ok (ro := ro) (by simpa) (by simpa)
      (by simp only [State.withWork_work, State.withWork_desc, decAt_outPos, decAt_desc]; omega), Except.bind_of_ok]
    have hH : Holds (BitVec.ofNat 13 (valueOf (leftoverBits (symbolWidth s0.desc.base) (symValues cs)
        ++ bitsOf (symbolWidth s0.desc.base) v)))
        (leftoverBits (symbolWidth s0.desc.base) (symValues cs) ++ bitsOf (symbolWidth s0.desc.base) v).length
        (leftoverBits (symbolWidth s0.desc.base) (symValues cs) ++ bitsOf (symbolWidth s0.desc.base) v) := by
      rw [hsh.acc_eq, hsh.1] at hsh
      exact hsh
    have hle : (leftoverBits (symbolWidth s0.desc.base) (symValues cs)
        ++ bitsOf (symbolWidth s0.desc.base) v).length ≤ 13 := by
      rw [List.length_append, length_bitsOf, hlo]
      omega
    have hm := hH.mask h8 hle
    have ht := hH.top h8 hle
    rw [and_accMask _ (by decide)] at ht
    have hbyte : ((BitVec.ofNat 13 (valueOf (leftoverBits (symbolWidth s0.desc.base) (symValues cs)
        ++ bitsOf (symbolWidth s0.desc.base) v)) >>>
          ((leftoverBits (symbolWidth s0.desc.base) (symValues cs)
            ++ bitsOf (symbolWidth s0.desc.base) v).length - 8)).setWidth 8 : BitVec 8)
        = BitVec.ofNat 8 (valueOf ((leftoverBits (symbolWidth s0.desc.base) (symValues cs)
            ++ bitsOf (symbolWidth s0.desc.base) v).take 8)) := by
      apply BitVec.eq_of_toNat_eq
      rw [BitVec.toNat_setWidth, BitVec.toNat_ofNat, ← ht, Nat.mod_mod]
    simp only [State.withWork_work]
    rw [hbyte]
    have hdb := decodedBytes_snoc (symbolWidth s0.desc.base) (by omega) (symValues cs) v
    have hlb := leftoverBits_snoc (symbolWidth s0.desc.base) (by omega) (symValues cs) v
    rw [if_pos h8'] at hdb hlb
    simp only [putState, State.withWork, State.withMem, decAt, State.withPhase, h1, hcnt, hdb, hlb,
      Memory.writeList_append, List.length_append, List.length_singleton]
    rw [List.length_append] at hm
    rw [hm.acc_eq, hm.1, Nat.add_assoc, Nat.add_assoc]
  · have h8' : ¬ 8 ≤ (symValues cs).length * symbolWidth s0.desc.base % 8 + symbolWidth s0.desc.base := by
      rw [List.length_append, length_bitsOf, hlo] at h8
      exact h8
    have hdb := decodedBytes_snoc (symbolWidth s0.desc.base) (by omega) (symValues cs) v
    have hlb := leftoverBits_snoc (symbolWidth s0.desc.base) (by omega) (symValues cs) v
    rw [if_neg h8'] at hdb hlb
    rw [if_neg (by simpa using h8)]
    simp only [putState, State.withWork, State.withMem, decAt, State.withPhase, h1, hcnt, hdb, hlb]

end

/-! The run of a whole decode. -/

theorem length_decodedBytes_le {w sizeW inLen total cap : Nat} {base : Base} (hw : w = symbolWidth base)
    (ht : decSize sizeW base inLen = some total) (hcap : total ≤ cap) {vs : List Nat} (hv : vs.length ≤ inLen) :
    (decodedBytes w vs).length ≤ cap := by
  subst hw
  rw [length_decodedBytes]
  simp only [decSize] at ht
  split_ifs at ht
  cases ht
  unfold ceilDiv at hcap
  have : vs.length * symbolWidth base ≤ inLen * symbolWidth base := Nat.mul_le_mul_right _ hv
  omega

theorem stopsAt_of_getElem {cs : List ByteClass} {i : Nat} (hi : i < cs.length) :
    stopsAt cs i = (match cs[i] with
      | .bad => true
      | .sym _ => (cs.take i).contains .pad
      | .skip => false
      | .pad => false) := by
  unfold stopsAt
  rw [List.getElem?_eq_getElem hi]
  cases cs[i] <;> rfl

/-- The position of a group is one `Required` knows, once the length test has passed (R198, 30_encoding.md R111). -/
theorem required_isSome (base : Base) (n : Nat) (h : ¬ symbolWidth base ≤ n * symbolWidth base % 8) :
    ∃ r, required base (n % charsPerGroup base) = some r := by
  cases base
  · have h2 : n % charsPerGroup .b16 = 0 := by simp only [symbolWidth, charsPerGroup] at *; omega
    exact ⟨0, by simp [required, h2]⟩
  · have h8 : n % charsPerGroup .b32 = 0 ∨ n % charsPerGroup .b32 = 2 ∨ n % charsPerGroup .b32 = 4
        ∨ n % charsPerGroup .b32 = 5 ∨ n % charsPerGroup .b32 = 7 := by
      simp only [symbolWidth, charsPerGroup] at *; omega
    rcases h8 with h8 | h8 | h8 | h8 | h8 <;> exact ⟨_, congrArg (required .b32) h8⟩
  · have h4 : n % charsPerGroup .b64 = 0 ∨ n % charsPerGroup .b64 = 2 ∨ n % charsPerGroup .b64 = 3 := by
      simp only [symbolWidth, charsPerGroup] at *; omega
    rcases h4 with h4 | h4 | h4 <;> exact ⟨_, congrArg (required .b64) h4⟩

section
variable {s : State} {ri ro : Region}

/-- The state of a decode after a CHECK that passed (R192). -/
def decStart (s : State) : State := (decInit s).withPhase .body

@[simp] theorem decStart_desc : (decStart s).desc = s.desc := rfl
@[simp] theorem decStart_inBuf : (decStart s).inBuf = s.inBuf := rfl
@[simp] theorem decStart_outBuf : (decStart s).outBuf = s.outBuf := rfl
@[simp] theorem decStart_mem : (decStart s).mem = s.mem := rfl
@[simp] theorem decStart_outPos : (decStart s).work.outPos = 0 := rfl

theorem decStart_eq (ro : Region) : decAt ro (decStart s) .body 0 [] = decStart s := by
  simp [decAt, decStart, decInit, symValues, leftoverBits, decodedBytes, State.withWork, State.withPhase]

theorem tick_body_dec {t : State} (hp : t.phase = .body) (ho : t.desc.op = .dec) : tick t = decBody t := by
  simp [tick, hp, ho]

theorem tick_tail_dec {t : State} (hp : t.phase = .tail) (ho : t.desc.op = .dec) : tick t = decTail t := by
  simp [tick, hp, ho]

/-- The classes of the input bytes of a decode. -/
def inputClasses (ri : Region) (s : State) : List ByteClass :=
  (Memory.readList s.mem ri.base s.desc.inLen).map (classify s.desc)

theorem length_inputClasses : (inputClasses ri s).length = s.desc.inLen := by simp [inputClasses, Memory.readList]

theorem inputClasses_sym_lt {i v : Nat} (hi : i < (inputClasses ri s).length) (h : (inputClasses ri s)[i] = .sym v) :
    v < 2 ^ symbolWidth s.desc.base := by
  have h1 : (inputClasses ri s)[i] = classify s.desc (Memory.read s.mem (ri.base + i)) := by
    simp [inputClasses, Memory.readList]
  rw [h1] at h
  exact classify_sym_lt h

/-- A BODY tick reads the next input byte and acts on its class (R193). -/
theorem dec_tick_read (hop : s.desc.op = .dec) (hb : Supplied s.desc.toOperands s ri ro) {total : Nat}
    (ht : s.desc.decSize s.sizeW = some total) (hcap : total ≤ s.desc.outCap) {i : Nat}
    (hi : i < (inputClasses ri s).length) :
    tick (decAt ro (decStart s) .body i ((inputClasses ri s).take i)) =
      decByte (inputClasses ri s)[i] (decAt ro (decStart s) .body (i + 1) ((inputClasses ri s).take i)) := by
  obtain ⟨hip, hop', hib, hob, -, -, -⟩ := id hb
  have hil : i < s.desc.inLen := by rw [length_inputClasses] at hi; exact hi
  have hlen : (decodedBytes (symbolWidth s.desc.base) (symValues ((inputClasses ri s).take i))).length
      ≤ s.desc.outCap :=
    length_decodedBytes_le rfl ht hcap (Nat.le_trans (length_symValues_le _)
      (Nat.le_trans (List.length_take_le _ _) (Nat.le_of_lt hil)))
  have hread : memReadIn (decAt ro (decStart s) .body i ((inputClasses ri s).take i)) i
      = .ok (Memory.read s.mem (ri.base + i)) := by
    simp only [memReadIn, decAt_inBuf, decAt_desc, decAt_mem, decStart_inBuf, decStart_desc, decStart_mem,
      decStart_outPos, Nat.add_zero, hib, hip, hil, and_self, if_true]
    rw [Memory.read_writeList_outside _ _ _ _ (hb.outside hil hlen)]
  have hne : (decAt ro (decStart s) .body i ((inputClasses ri s).take i)).work.inPos
      ≠ (decAt ro (decStart s) .body i ((inputClasses ri s).take i)).desc.inLen :=
    Nat.ne_of_lt hil
  rw [tick_body_dec (by simp) (by simpa using hop), decBody, if_neg hne, decAt_inPos, hread, Except.bind_of_ok]
  have hcl : (inputClasses ri s)[i] = classify s.desc (Memory.read s.mem (ri.base + i)) := by
    simp [inputClasses, Memory.readList]
  rw [hcl]
  rfl

/-- A byte that does not end the scan is accepted (R194 to R197). -/
theorem dec_tick_accept (hop : s.desc.op = .dec) (hb : Supplied s.desc.toOperands s ri ro) {total : Nat}
    (ht : s.desc.decSize s.sizeW = some total) (hcap : total ≤ s.desc.outCap) {i : Nat}
    (hi : i < (inputClasses ri s).length) (hstop : stopsAt (inputClasses ri s) i = false) :
    tick (decAt ro (decStart s) .body i ((inputClasses ri s).take i)) =
      .ok (decAt ro (decStart s) .body (i + 1) ((inputClasses ri s).take (i + 1))) := by
  rw [dec_tick_read hop hb ht hcap hi, List.take_succ_eq_append_getElem hi]
  rw [stopsAt_of_getElem hi] at hstop
  cases hc : (inputClasses ri s)[i] with
  | skip => exact decByte_skip _ _
  | pad => exact decByte_pad _ _
  | bad => simp [hc] at hstop
  | sym v =>
    rw [hc] at hstop
    refine decByte_sym (by simpa using hb.outBuf) (by simpa using hb.outPresent) _ _
      (by simpa using inputClasses_sym_lt hi hc) hstop ?_
    simp only [decStart_outPos, decStart_desc, Nat.zero_add]
    refine length_decodedBytes_le rfl ht hcap (Nat.le_trans (length_symValues_le _) ?_)
    have hil : i < s.desc.inLen := by rw [length_inputClasses] at hi; exact hi
    simp only [List.length_append, List.length_take, List.length_singleton]
    show min i _ + 1 ≤ s.desc.inLen
    omega

/-- The first `i` bytes of the input, none of which ends the scan, take `i` ticks after CHECK (R193). -/
theorem dec_run_body (hop : s.desc.op = .dec) (hph : s.phase = .check) (hb : Supplied s.desc.toOperands s ri ro)
    {total : Nat} (ht : s.desc.decSize s.sizeW = some total) (hcap : total ≤ s.desc.outCap) (i : Nat)
    (hi : i ≤ s.desc.inLen) (hstop : ∀ j < i, stopsAt (inputClasses ri s) j = false) (k : Nat) :
    runTicks (1 + i + k) s =
      runTicks k (decAt ro (decStart s) .body i ((inputClasses ri s).take i)) := by
  induction i generalizing k with
  | zero =>
    have hcheck : tick s = .ok (decStart s) := by
      have : checkStatus (s.desc.decSize s.sizeW) s.desc.toOperands = none := by
        simp [checkStatus, hb.inPresent, hb.outPresent, ht, Nat.not_lt.mpr hcap]
      simp [tick, hph, hop, decCheck, this, decStart]
    rw [Nat.add_zero, Nat.add_comm, runTicks_succ (by rw [hph]; rfl) hcheck, List.take_zero,
      decStart_eq]
  | succ i ih =>
    rw [show 1 + (i + 1) + k = 1 + i + (k + 1) by omega, ih (by omega) (fun j hj => hstop j (by omega))]
    exact runTicks_succ rfl (dec_tick_accept hop hb ht hcap (by rw [length_inputClasses]; omega) (hstop i (by omega)))

/-- The byte that ends the scan ends the command with its status (R196). -/
theorem dec_tick_stop (hop : s.desc.op = .dec) (hb : Supplied s.desc.toOperands s ri ro) {total : Nat}
    (ht : s.desc.decSize s.sizeW = some total) (hcap : total ≤ s.desc.outCap) {i : Nat}
    (hi : i < (inputClasses ri s).length) (hstop : stopsAt (inputClasses ri s) i = true) :
    tick (decAt ro (decStart s) .body i ((inputClasses ri s).take i)) =
      .ok (raise (if (inputClasses ri s)[i]? = some .bad then .invalidCharacter else .invalidPadding)
        (decAt ro (decStart s) .body (i + 1) ((inputClasses ri s).take i))) := by
  rw [dec_tick_read hop hb ht hcap hi, List.getElem?_eq_getElem hi]
  rw [stopsAt_of_getElem hi] at hstop
  cases hc : (inputClasses ri s)[i] with
  | skip => simp [hc] at hstop
  | pad => simp [hc] at hstop
  | bad => rfl
  | sym v =>
    rw [hc] at hstop
    simp only [decByte, symStep, decAt_paddingSeen, hstop, if_true]
    rfl

/-- TAIL: the end-of-input tests give the status of the whole function (R198, R199). -/
theorem decTail_decAt {s0 : State} (cs : List ByteClass) :
    decTail (decAt ro s0 .tail s0.desc.inLen cs) = .ok
      (if endStatus s0.desc cs = .success then
        finish (s0.work.outPos + (decodedBytes (symbolWidth s0.desc.base) (symValues cs)).length)
          ((decAt ro s0 .tail s0.desc.inLen cs).withWork
            { (decAt ro s0 .tail s0.desc.inLen cs).work with acc := 0, nbits := 0 })
      else raise (endStatus s0.desc cs) (decAt ro s0 .tail s0.desc.inLen cs)) := by
  have hacc : (decAt ro s0 .tail s0.desc.inLen cs).work.acc ≠ 0
      ↔ true ∈ leftoverBits (symbolWidth s0.desc.base) (symValues cs) := by
    have h := (decAt_holds (ro := ro) (s0 := s0) .tail s0.desc.inLen cs).2
    rw [← not_iff_not, ← valueOf_eq_zero, ← h, Ne, Classical.not_not]
    constructor
    · intro h0; rw [h0]; rfl
    · intro h0; exact BitVec.eq_of_toNat_eq h0
  have hpad : (paddingSeen (decAt ro s0 .tail s0.desc.inLen cs) = true ∨ s0.desc.usePadding = true)
      ↔ (0 < min (cs.count .pad) 7 ∨ s0.desc.usePadding = true) := by
    rw [paddingSeen, decAt_npad, decide_eq_true_iff]
  have hend : decEnd (decAt ro s0 .tail s0.desc.inLen cs) =
      if s0.desc.strict ∧ true ∈ leftoverBits (symbolWidth s0.desc.base) (symValues cs) then
        raise .invalidInput (decAt ro s0 .tail s0.desc.inLen cs)
      else finish (s0.work.outPos + (decodedBytes (symbolWidth s0.desc.base) (symValues cs)).length)
          ((decAt ro s0 .tail s0.desc.inLen cs).withWork
            { (decAt ro s0 .tail s0.desc.inLen cs).work with acc := 0, nbits := 0 }) := by
    unfold decEnd
    simp only [decAt_desc, hacc, decAt_outPos]
  have hreq := required_isSome s0.desc.base (symValues cs).length
  generalize finish _ _ = X at hend ⊢
  unfold decTail endStatus
  simp only [decAt_desc, decAt_nbits, length_leftoverBits, hpad, decAt_gpos, decAt_npad]
  by_cases h1 : symbolWidth s0.desc.base ≤ (symValues cs).length * symbolWidth s0.desc.base % 8
  · simp only [h1, if_true, reduceCtorEq, if_false]
  · obtain ⟨r, hr⟩ := hreq h1
    rw [hend]
    by_cases h2 : 0 < min (cs.count .pad) 7 ∨ s0.desc.usePadding = true <;>
      by_cases h4 : s0.desc.strict = true ∧ true ∈ leftoverBits (symbolWidth s0.desc.base) (symValues cs) <;>
      rcases eq_or_ne (min (cs.count .pad) 7) r with rfl | h3 <;>
      simp only [if_true, if_false, ne_eq, not_true_eq_false, not_false_eq_true, and_true, and_false,
        and_self, reduceCtorEq, Option.some.injEq, *]

end

end Sys2Proof.Machine
end

