-- ==== Sys2Proof/Laws/Encoding.lean ====
section
/-! SUPPORT. The fields of a command word, one lemma each: what the encoder puts at a place is what the decoder reads there
(30_encoding.md R91), and what a mask of the opcode table selects (R96). -/

namespace Sys2Proof

theorem bitOf_le (b : Bool) : bitOf b ≤ 1 := by cases b <;> decide
theorem Op.code_le (o : Op) : o.code ≤ 3 := by cases o <;> decide
theorem Base.code_le (b : Base) : b.code ≤ 2 := by cases b <;> decide
@[simp] theorem Op.ofCode_code (o : Op) : Op.ofCode o.code = o := by cases o <;> rfl
@[simp] theorem Base.ofCode_code (b : Base) : Base.ofCode b.code = some b := by cases b <;> rfl
theorem bitOf_beq (b : Bool) : (bitOf b == 1) = b := by cases b <;> rfl

section
variable (op : Op) (base : Base) (alt : Bool) {d : Operands}

/-- The value of a command word: its fields do not run into each other. -/
theorem commandWord_toNat (h : d.leLen ≤ 3) : (commandWord op base alt d).toNat =
    op.code + 2 ^ 2 * base.code + 2 ^ 4 * bitOf alt + 2 ^ 5 * bitOf d.usePadding + 2 ^ 6 * bitOf d.strict
      + 2 ^ 7 * bitOf d.nulTerm + 2 ^ 8 * d.leLen + 2 ^ 10 * bitOf d.inPresent + 2 ^ 11 * bitOf d.outPresent
      + 2 ^ 16 * d.le0.toNat + 2 ^ 24 * d.le1.toNat := by
  have h1 := op.code_le
  have h2 := base.code_le
  have h3 := bitOf_le alt
  have h4 := bitOf_le d.usePadding
  have h5 := bitOf_le d.strict
  have h6 := bitOf_le d.nulTerm
  have h7 := bitOf_le d.inPresent
  have h8 := bitOf_le d.outPresent
  have h9 := d.le0.isLt
  have h10 := d.le1.isLt
  rw [commandWord, BitVec.toNat_ofNat, Nat.mod_eq_of_lt]
  omega

theorem commandWord_fields (h : d.leLen ≤ 3) :
    bitField (commandWord op base alt d) 0 2 = op.code ∧ bitField (commandWord op base alt d) 2 2 = base.code
    ∧ bitField (commandWord op base alt d) 4 1 = bitOf alt ∧ bitField (commandWord op base alt d) 5 1 = bitOf d.usePadding
    ∧ bitField (commandWord op base alt d) 6 1 = bitOf d.strict ∧ bitField (commandWord op base alt d) 7 1 = bitOf d.nulTerm
    ∧ bitField (commandWord op base alt d) 8 2 = d.leLen ∧ bitField (commandWord op base alt d) 10 1 = bitOf d.inPresent
    ∧ bitField (commandWord op base alt d) 11 1 = bitOf d.outPresent ∧ bitField (commandWord op base alt d) 12 4 = 0
    ∧ bitField (commandWord op base alt d) 16 8 = d.le0.toNat ∧ bitField (commandWord op base alt d) 24 8 = d.le1.toNat := by
  have h1 := op.code_le
  have h2 := base.code_le
  have h3 := bitOf_le alt
  have h4 := bitOf_le d.usePadding
  have h5 := bitOf_le d.strict
  have h6 := bitOf_le d.nulTerm
  have h7 := bitOf_le d.inPresent
  have h8 := bitOf_le d.outPresent
  have h9 := d.le0.isLt
  have h10 := d.le1.isLt
  simp only [bitField, commandWord_toNat op base alt h]
  refine ⟨?_, ?_, ?_, ?_, ?_, ?_, ?_, ?_, ?_, ?_, ?_, ?_⟩ <;> omega

end

/-- A mask of bits 15:12 and the lowest `k` bits. -/
theorem and_mask (n k : Nat) (hk : k ≤ 12) :
    n &&& ((2 ^ 4 - 1) <<< 12 ||| (2 ^ k - 1)) = n % 2 ^ k + n / 4096 % 16 * 4096 := by
  rw [Nat.and_or_distrib_left, Nat.and_two_pow_sub_one_eq_mod]
  have h2 : n &&& (2 ^ 4 - 1) <<< 12 = (n / 4096 % 16) <<< 12 := by
    rw [show n / 4096 % 16 = n >>> 12 &&& (2 ^ 4 - 1) by
      rw [Nat.and_two_pow_sub_one_eq_mod, Nat.shiftRight_eq_div_pow]]
    apply Nat.eq_of_testBit_eq
    intro i
    simp only [Nat.testBit_and, Nat.testBit_shiftLeft, Nat.testBit_shiftRight]
    by_cases hi : 12 ≤ i <;> simp [hi]
  have hlt : n % 2 ^ k < 2 ^ 12 :=
    Nat.lt_of_lt_of_le (Nat.mod_lt _ (Nat.two_pow_pos k)) (Nat.pow_le_pow_right (by decide) hk)
  rw [h2, ← Nat.shiftLeft_add_eq_or_of_lt hlt, Nat.shiftLeft_eq, Nat.add_comm]

/-- What the mask of a row of ENC or DEC selects: the five selecting bits and the reserved ones (R96). -/
theorem and_maskCommand (w : BitVec 32) :
    (w &&& 0x0000F01F).toNat = w.toNat % 32 + w.toNat / 4096 % 16 * 4096 := by
  rw [BitVec.toNat_and]
  exact and_mask w.toNat 5 (by decide)

/-- What the mask of a row of a size command selects: four selecting bits and the reserved ones (R96). -/
theorem and_maskSize (w : BitVec 32) :
    (w &&& 0x0000F00F).toNat = w.toNat % 16 + w.toNat / 4096 % 16 * 4096 := by
  rw [BitVec.toNat_and]
  exact and_mask w.toNat 4 (by decide)

/-- The selecting bits of a command word (R96). -/
theorem encode_select (i : Instr) (h : i.operands.leLen ≤ 3) :
    (encode i).cmd.toNat % 16 = i.op.code + 4 * i.base.code
    ∧ (encode i).cmd.toNat % 32 = i.op.code + 4 * i.base.code + 16 * bitOf i.alt
    ∧ (encode i).cmd.toNat / 4096 % 16 = 0 := by
  have h1 := i.op.code_le
  have h2 := i.base.code_le
  have h3 := bitOf_le i.alt
  have h4 := bitOf_le i.operands.usePadding
  have h5 := bitOf_le i.operands.strict
  have h6 := bitOf_le i.operands.nulTerm
  have h7 := bitOf_le i.operands.inPresent
  have h8 := bitOf_le i.operands.outPresent
  simp only [encode, commandWord_toNat _ _ _ h]
  refine ⟨?_, ?_, ?_⟩ <;> omega

end Sys2Proof
end

