-- ==== Sys2Proof/Laws/PerInstr.lean ====
section
/-! SUPPORT. Statements about every command as syntax, one lemma per constructor. -/

namespace Sys2Proof.Laws.TableRow

/-- The command word of a command with a legal line-ending length matches the command's row of the opcode table, and that
row stands in the table (30_encoding.md R96). -/
def Statement (i : Instr) : Prop :=
  i.operands.leLen ≤ 2 → i.row.covers (encode i).cmd = true ∧ i.row ∈ opcodeTable

/-- A row of a size command covers a word by its low four bits, bits 15:12 zero. -/
theorem covers_size {r : OpcodeRow} {w : BitVec 32} (hm : r.mask = 0x0000F00F) (h : w.toNat % 16 = r.pattern.toNat)
    (hz : w.toNat / 4096 % 16 = 0) : r.covers w = true := by
  rw [OpcodeRow.covers, hm, beq_iff_eq]
  apply BitVec.eq_of_toNat_eq
  rw [and_maskSize, h, hz, Nat.zero_mul, Nat.add_zero]

/-- A row of ENC or DEC covers a word by its low five bits, bits 15:12 zero. -/
theorem covers_command {r : OpcodeRow} {w : BitVec 32} (hm : r.mask = 0x0000F01F) (h : w.toNat % 32 = r.pattern.toNat)
    (hz : w.toNat / 4096 % 16 = 0) : r.covers w = true := by
  rw [OpcodeRow.covers, hm, beq_iff_eq]
  apply BitVec.eq_of_toNat_eq
  rw [and_maskCommand, h, hz, Nat.zero_mul, Nat.add_zero]

theorem encSizeB16 (alt : Bool) (d : Operands) : Statement (.encSizeB16 alt d) := fun h =>
  have hs := encode_select (.encSizeB16 alt d) (Nat.le_trans h (by decide))
  ⟨covers_size rfl hs.1 hs.2.2, by simp [opcodeTable, Instr.row]⟩

theorem encSizeB32 (alt : Bool) (d : Operands) : Statement (.encSizeB32 alt d) := fun h =>
  have hs := encode_select (.encSizeB32 alt d) (Nat.le_trans h (by decide))
  ⟨covers_size rfl hs.1 hs.2.2, by simp [opcodeTable, Instr.row]⟩

theorem encSizeB64 (alt : Bool) (d : Operands) : Statement (.encSizeB64 alt d) := fun h =>
  have hs := encode_select (.encSizeB64 alt d) (Nat.le_trans h (by decide))
  ⟨covers_size rfl hs.1 hs.2.2, by simp [opcodeTable, Instr.row]⟩

theorem decSizeB16 (alt : Bool) (d : Operands) : Statement (.decSizeB16 alt d) := fun h =>
  have hs := encode_select (.decSizeB16 alt d) (Nat.le_trans h (by decide))
  ⟨covers_size rfl hs.1 hs.2.2, by simp [opcodeTable, Instr.row]⟩

theorem decSizeB32 (alt : Bool) (d : Operands) : Statement (.decSizeB32 alt d) := fun h =>
  have hs := encode_select (.decSizeB32 alt d) (Nat.le_trans h (by decide))
  ⟨covers_size rfl hs.1 hs.2.2, by simp [opcodeTable, Instr.row]⟩

theorem decSizeB64 (alt : Bool) (d : Operands) : Statement (.decSizeB64 alt d) := fun h =>
  have hs := encode_select (.decSizeB64 alt d) (Nat.le_trans h (by decide))
  ⟨covers_size rfl hs.1 hs.2.2, by simp [opcodeTable, Instr.row]⟩

theorem encB16 (d : Operands) : Statement (.encB16 d) := fun h =>
  have hs := encode_select (.encB16 d) (Nat.le_trans h (by decide))
  ⟨covers_command rfl hs.2.1 hs.2.2, by simp [opcodeTable, Instr.row]⟩

theorem encB16L (d : Operands) : Statement (.encB16L d) := fun h =>
  have hs := encode_select (.encB16L d) (Nat.le_trans h (by decide))
  ⟨covers_command rfl hs.2.1 hs.2.2, by simp [opcodeTable, Instr.row]⟩

theorem encB32 (d : Operands) : Statement (.encB32 d) := fun h =>
  have hs := encode_select (.encB32 d) (Nat.le_trans h (by decide))
  ⟨covers_command rfl hs.2.1 hs.2.2, by simp [opcodeTable, Instr.row]⟩

theorem encB32Hex (d : Operands) : Statement (.encB32Hex d) := fun h =>
  have hs := encode_select (.encB32Hex d) (Nat.le_trans h (by decide))
  ⟨covers_command rfl hs.2.1 hs.2.2, by simp [opcodeTable, Instr.row]⟩

theorem encB64 (d : Operands) : Statement (.encB64 d) := fun h =>
  have hs := encode_select (.encB64 d) (Nat.le_trans h (by decide))
  ⟨covers_command rfl hs.2.1 hs.2.2, by simp [opcodeTable, Instr.row]⟩

theorem encB64Url (d : Operands) : Statement (.encB64Url d) := fun h =>
  have hs := encode_select (.encB64Url d) (Nat.le_trans h (by decide))
  ⟨covers_command rfl hs.2.1 hs.2.2, by simp [opcodeTable, Instr.row]⟩

theorem decB16 (d : Operands) : Statement (.decB16 d) := fun h =>
  have hs := encode_select (.decB16 d) (Nat.le_trans h (by decide))
  ⟨covers_command rfl hs.2.1 hs.2.2, by simp [opcodeTable, Instr.row]⟩

theorem decB16L (d : Operands) : Statement (.decB16L d) := fun h =>
  have hs := encode_select (.decB16L d) (Nat.le_trans h (by decide))
  ⟨covers_command rfl hs.2.1 hs.2.2, by simp [opcodeTable, Instr.row]⟩

theorem decB32 (d : Operands) : Statement (.decB32 d) := fun h =>
  have hs := encode_select (.decB32 d) (Nat.le_trans h (by decide))
  ⟨covers_command rfl hs.2.1 hs.2.2, by simp [opcodeTable, Instr.row]⟩

theorem decB32Hex (d : Operands) : Statement (.decB32Hex d) := fun h =>
  have hs := encode_select (.decB32Hex d) (Nat.le_trans h (by decide))
  ⟨covers_command rfl hs.2.1 hs.2.2, by simp [opcodeTable, Instr.row]⟩

theorem decB64 (d : Operands) : Statement (.decB64 d) := fun h =>
  have hs := encode_select (.decB64 d) (Nat.le_trans h (by decide))
  ⟨covers_command rfl hs.2.1 hs.2.2, by simp [opcodeTable, Instr.row]⟩

theorem decB64Url (d : Operands) : Statement (.decB64Url d) := fun h =>
  have hs := encode_select (.decB64Url d) (Nat.le_trans h (by decide))
  ⟨covers_command rfl hs.2.1 hs.2.2, by simp [opcodeTable, Instr.row]⟩

end Sys2Proof.Laws.TableRow
end

