-- ==== Sys2Proof/Laws/Runs.lean ====
section
/-! SUPPORT. What a command does from CHECK to DONE, said once for every status: the state of the whole functions
(Machine/Whole.lean) is the one the sequencer reaches, in the number of ticks 70_reset_and_hazards.md R284 gives. -/

namespace Sys2Proof.Machine

/-- A CHECK that passes and a launch that breaks no duty come with both buffers (R286, R287, R289). -/
theorem supplied_of_checks {size : Option Nat} {d : Operands} {s : State} (hl : launchRefusal d s = none)
    (hc : checkStatus size d = none) :
    ∃ ri ro total, Supplied d s ri ro ∧ size = some total ∧ total ≤ d.outCap := by
  unfold checkStatus at hc
  split_ifs at hc with h1
  obtain ⟨hi, ho⟩ : d.inPresent = true ∧ d.outPresent = true := by simpa using h1
  cases hs : size with
  | none => simp [hs] at hc
  | some total =>
    rw [hs] at hc
    have hcap : ¬ d.outCap < total := by
      intro h
      simp [h] at hc
    unfold launchRefusal at hl
    cases h2 : bufferRefusal d.inPresent s.inBuf d.inLen with
    | some r => simp [h2] at hl
    | none =>
      cases h3 : bufferRefusal d.outPresent s.outBuf d.outCap with
      | some r => simp [h2, h3] at hl
      | none =>
        simp only [h2, h3] at hl
        unfold bufferRefusal at h2 h3
        simp only [hi, ho, if_true] at h2 h3
        cases hib : s.inBuf with
        | none => simp [hib] at h2
        | some ri =>
          cases hob : s.outBuf with
          | none => simp [hob] at h3
          | some ro =>
            simp only [hib, hob, ite_eq_right_iff, reduceCtorEq, imp_false, Nat.not_lt] at h2 h3
            simp only [aliasRefusal, hib, hob, hi, ho, Bool.true_and, ite_eq_right_iff, reduceCtorEq, imp_false,
              Bool.not_eq_true] at hl
            exact ⟨ri, ro, total, ⟨hi, ho, hib, hob, h2, h3, hl⟩, rfl, by omega⟩

/-- The duties the statements name are the ones the model tests (R286, R287, R289). -/
theorem launchRefusal_eq_none {d : Operands} {s : State} : launchRefusal d s = none ↔ Complies d s := by
  have hbuf : ∀ (p : Bool) (b : Option Region) (n : Nat), bufferRefusal p b n = none ↔
      (p = true → ∃ r, b = some r ∧ n ≤ r.size) := by
    intro p b n
    unfold bufferRefusal
    cases p <;> cases b <;> simp
  have hover : ∀ a b : Region, a.overlaps b = false ↔
      ∀ x, ¬ (a.base ≤ x ∧ x < a.base + a.size ∧ b.base ≤ x ∧ x < b.base + b.size) := by
    intro a b
    simp only [Region.overlaps, Bool.and_eq_false_iff, decide_eq_false_iff_not]
    constructor
    · intro h x
      omega
    · intro h
      have := h (max a.base b.base)
      omega
  have halias : aliasRefusal d s.inBuf s.outBuf = none ↔ (d.inPresent = true → d.outPresent = true →
      ∀ a b, s.inBuf = some a → s.outBuf = some b →
        ∀ x, ¬ (a.base ≤ x ∧ x < a.base + d.inLen ∧ b.base ≤ x ∧ x < b.base + d.outCap)) := by
    unfold aliasRefusal
    cases s.inBuf with
    | none => simp
    | some a =>
      cases s.outBuf with
      | none => simp
      | some b =>
        have := hover ⟨a.base, d.inLen⟩ ⟨b.base, d.outCap⟩
        cases d.inPresent <;> cases d.outPresent <;> simp_all
  have hsplit : launchRefusal d s = none ↔ bufferRefusal d.inPresent s.inBuf d.inLen = none
      ∧ bufferRefusal d.outPresent s.outBuf d.outCap = none ∧ aliasRefusal d s.inBuf s.outBuf = none := by
    unfold launchRefusal
    cases bufferRefusal d.inPresent s.inBuf d.inLen <;> cases bufferRefusal d.outPresent s.outBuf d.outCap <;> simp
  rw [hsplit, hbuf, hbuf, halias]
  exact ⟨fun ⟨h1, h2, h3⟩ => ⟨h1, h2, h3⟩, fun ⟨h1, h2, h3⟩ => ⟨h1, h2, h3⟩⟩

/-- `firstStop` at an index: it ends the scan and no earlier one does (R199). -/
theorem firstStop_eq_some {cs : List ByteClass} {e : Nat} :
    firstStop cs = some e ↔ e < cs.length ∧ stopsAt cs e = true ∧ ∀ j < e, stopsAt cs j = false := by
  unfold firstStop
  rw [List.find?_range_eq_some]
  simp only [List.mem_range, Bool.not_eq_true', and_left_comm]

theorem firstStop_eq_none {cs : List ByteClass} :
    firstStop cs = none ↔ ∀ j < cs.length, stopsAt cs j = false := by
  simp [firstStop]

/-- Ticks one after the other. -/
theorem runTicks_add (j k : Nat) (s : State) : runTicks (j + k) s = (runTicks j s >>= fun t => runTicks k t) := by
  induction j generalizing s with
  | zero => rw [Nat.zero_add, runTicks, Except.bind_of_ok]
  | succ j ih =>
    rw [show j + 1 + k = (j + k) + 1 by omega]
    by_cases hp : s.phase.inFlight = true
    · rw [runTicks, runTicks, if_pos hp, if_pos hp]
      cases ht : tick s with
      | error e => rfl
      | ok t => simp only [Except.bind_of_ok]; exact ih t
    · have hp' : s.phase.inFlight = false := by simpa using hp
      rw [runTicks_settled hp', runTicks_settled hp', Except.bind_of_ok, runTicks_settled hp']

section
variable {s : State}

/-- A size command is DONE after one tick (R143, R284). -/
theorem encSize_run (hop : s.desc.op = .encSize) (hph : s.phase = .check) (k : Nat) :
    runTicks (1 + k) s = .ok (encSizeEnd s.desc s) := by
  have h : tick s = .ok (encSizeEnd s.desc s) := by
    simp only [tick, hph, hop, encSizeCheck, sizeResult, encSizeEnd]
    cases s.desc.encSize s.sizeW <;> cases ho : s.outBuf <;>
      simp [sizeWhole, commandEnd, outWritten, raise, finish, Memory.writeList, ho]
  rw [Nat.add_comm, runTicks_succ (by rw [hph]; rfl) h, runTicks_settled rfl]

/-- A size command is DONE after one tick (R143, R284). -/
theorem decSize_run (hop : s.desc.op = .decSize) (hph : s.phase = .check) (k : Nat) :
    runTicks (1 + k) s = .ok (decSizeEnd s.desc s) := by
  have h : tick s = .ok (decSizeEnd s.desc s) := by
    simp only [tick, hph, hop, decSizeCheck, sizeResult, decSizeEnd]
    cases s.desc.decSize s.sizeW <;> cases ho : s.outBuf <;>
      simp [sizeWhole, commandEnd, outWritten, raise, finish, Memory.writeList, ho]
  rw [Nat.add_comm, runTicks_succ (by rw [hph]; rfl) h, runTicks_settled rfl]

/-- A command that CHECK ends writes nothing and changes no working register (R252). -/
theorem raise_eq_commandEnd (st : Status) : raise st s = commandEnd s.desc ⟨[], 0, st⟩ s.work s := by
  unfold raise commandEnd outWritten
  cases ho : s.outBuf <;> simp [Memory.writeList]

theorem enc_run_raise (hop : s.desc.op = .enc) (hph : s.phase = .check) {st : Status}
    (hc : checkStatus (s.desc.encSize s.sizeW) s.desc.toOperands = some st) (k : Nat) :
    runTicks (1 + k) s = .ok (encodeEnd s.desc s) := by
  have h : tick s = .ok (encodeEnd s.desc s) := by
    simp only [tick, hph, hop, encCheck, encodeEnd, wholeEncode, hc, raise_eq_commandEnd]
  rw [Nat.add_comm, runTicks_succ (by rw [hph]; rfl) h, runTicks_settled rfl]

theorem dec_run_raise (hop : s.desc.op = .dec) (hph : s.phase = .check) {st : Status}
    (hc : checkStatus (s.desc.decSize s.sizeW) s.desc.toOperands = some st) (k : Nat) :
    runTicks (1 + k) s = .ok (decodeEnd s.desc s) := by
  have h : tick s = .ok (decodeEnd s.desc s) := by
    simp only [tick, hph, hop, decCheck, decodeEnd, wholeDecode, hc, raise_eq_commandEnd]
  rw [Nat.add_comm, runTicks_succ (by rw [hph]; rfl) h, runTicks_settled rfl]

/-- An encode ends, within the ticks R284 counts, in the state of the whole function. -/
theorem enc_run_end (hop : s.desc.op = .enc) (hph : s.phase = .check) (hle : s.desc.leLen ≤ 2)
    (hl : launchRefusal s.desc.toOperands s = none) (k : Nat) :
    runTicks (s.desc.inLen + 5 + k) s = .ok (encodeEnd s.desc s) := by
  cases hc : checkStatus (s.desc.encSize s.sizeW) s.desc.toOperands with
  | some st =>
    rw [show s.desc.inLen + 5 + k = 1 + (s.desc.inLen + 4 + k) by omega]
    exact enc_run_raise hop hph hc _
  | none =>
    obtain ⟨ri, ro, total, hb, ht, hcap⟩ := supplied_of_checks hl hc
    rw [enc_run hop hph hb hle ht hcap]
    have hcol : colAfter s.desc.lineLength 0 (encChars s.desc (Memory.readList s.mem ri.base s.desc.inLen))
        = if s.desc.lineLength = 0 then 0
          else (encChars s.desc (Memory.readList s.mem ri.base s.desc.inLen)).length % s.desc.lineLength := by
      split
      · next h => rw [h, colAfter_zero]
      · next h => rw [colAfter_eq _ (Nat.pos_of_ne_zero h) _ (Nat.pos_of_ne_zero h), Nat.zero_add]
    simp only [encDone, encodeEnd, hc, wholeEncode, inputBytes, hb.inBuf, hcol, commandEnd, outWritten, hb.outBuf,
      encodeWork, finish, State.withMem, State.withWork]

/-- A decode that a byte at index `e` ends is DONE `e + 2` ticks after issue (R196, R284). -/
theorem dec_run_stop {ri ro : Region} (hop : s.desc.op = .dec) (hph : s.phase = .check)
    (hb : Supplied s.desc.toOperands s ri ro) {total : Nat} (ht : s.desc.decSize s.sizeW = some total)
    (hcap : total ≤ s.desc.outCap) {e : Nat} (he : firstStop (inputClasses ri s) = some e) (k : Nat) :
    runTicks (e + 2 + k) s = .ok (decodeEnd s.desc s) := by
  obtain ⟨hlt, hst, hbefore⟩ := firstStop_eq_some.mp he
  have hlen : e < s.desc.inLen := by rw [length_inputClasses] at hlt; exact hlt
  have hc : checkStatus (s.desc.decSize s.sizeW) s.desc.toOperands = none := by
    simp [checkStatus, hb.inPresent, hb.outPresent, ht, Nat.not_lt.mpr hcap]
  have hcs : (inputBytes s s.desc.inLen).map (classify s.desc) = inputClasses ri s := by
    simp only [inputBytes, hb.inBuf, inputClasses]
  rw [show e + 2 + k = 1 + e + (k + 1) by omega, dec_run_body hop hph hb ht hcap e (by omega) hbefore,
    runTicks_succ (by rfl) (dec_tick_stop hop hb ht hcap hlt hst), runTicks_settled rfl]
  simp only [decodeEnd, wholeDecode, hc, hcs, he, decodeWorkEnd, commandEnd, decodeWork, outWritten, hb.outBuf]
  simp only [raise, decAt, putState, decStart, decInit, State.withWork, State.withMem, State.withPhase, Nat.zero_add,
    Nat.add_zero, hb.outBuf]

/-- A decode that reads its whole input is DONE `in_len + 3` ticks after issue (R198, R284). -/
theorem dec_run_through {ri ro : Region} (hop : s.desc.op = .dec) (hph : s.phase = .check)
    (hb : Supplied s.desc.toOperands s ri ro) {total : Nat} (ht : s.desc.decSize s.sizeW = some total)
    (hcap : total ≤ s.desc.outCap) (he : firstStop (inputClasses ri s) = none) (k : Nat) :
    runTicks (s.desc.inLen + 3 + k) s = .ok (decodeEnd s.desc s) := by
  have hc : checkStatus (s.desc.decSize s.sizeW) s.desc.toOperands = none := by
    simp [checkStatus, hb.inPresent, hb.outPresent, ht, Nat.not_lt.mpr hcap]
  have hcs : (inputBytes s s.desc.inLen).map (classify s.desc) = inputClasses ri s := by
    simp only [inputBytes, hb.inBuf, inputClasses]
  have hmove : tick (decAt ro (decStart s) .body s.desc.inLen (inputClasses ri s))
      = .ok (decAt ro (decStart s) .tail s.desc.inLen (inputClasses ri s)) := by
    rw [tick_body_dec (by simp) (by simpa using hop), decBody]
    simp only [decAt_inPos, decAt_desc, decStart_desc, if_true]
    rfl
  have htake : (inputClasses ri s).take s.desc.inLen = inputClasses ri s :=
    List.take_of_length_le (by rw [length_inputClasses])
  have htail := decTail_decAt (ro := ro) (s0 := decStart s) (inputClasses ri s)
  rw [decStart_desc] at htail
  rw [show s.desc.inLen + 3 + k = 1 + s.desc.inLen + ((k + 1) + 1) by omega,
    dec_run_body hop hph hb ht hcap s.desc.inLen (Nat.le_refl _)
      (fun j hj => firstStop_eq_none.mp he j (by rw [length_inputClasses]; exact hj)), htake,
    runTicks_succ (by rfl) hmove,
    runTicks_succ (by rfl) ((tick_tail_dec (by simp) (by simpa using hop)).trans htail), runTicks_settled (by split <;> rfl)]
  simp only [decodeEnd, wholeDecode, hc, hcs, he, decodeWorkEnd, commandEnd, decodeWork, outWritten, hb.outBuf]
  by_cases hs : endStatus s.desc (inputClasses ri s) = .success
  · simp only [hs, if_true, finish, decAt, putState, decStart, decInit, State.withWork, State.withMem, State.withPhase,
      Nat.zero_add, Nat.add_zero, hb.outBuf]
  · simp only [hs, if_false, raise, decAt, putState, decStart, decInit, State.withWork, State.withMem, State.withPhase,
      Nat.zero_add, Nat.add_zero, hb.outBuf]

/-- A decode ends, within the ticks R284 counts, in the state of the whole function. -/
theorem dec_run_end (hop : s.desc.op = .dec) (hph : s.phase = .check)
    (hl : launchRefusal s.desc.toOperands s = none) (k : Nat) :
    runTicks (s.desc.inLen + 3 + k) s = .ok (decodeEnd s.desc s) := by
  cases hc : checkStatus (s.desc.decSize s.sizeW) s.desc.toOperands with
  | some st =>
    rw [show s.desc.inLen + 3 + k = 1 + (s.desc.inLen + 2 + k) by omega]
    exact dec_run_raise hop hph hc _
  | none =>
    obtain ⟨ri, ro, total, hb, ht, hcap⟩ := supplied_of_checks hl hc
    cases he : firstStop (inputClasses ri s) with
    | none => exact dec_run_through hop hph hb ht hcap he k
    | some e =>
      have hlt : e < s.desc.inLen := by
        have := (firstStop_eq_some.mp he).1
        rwa [length_inputClasses] at this
      rw [show s.desc.inLen + 3 + k = e + 2 + (s.desc.inLen + 1 - e + k) by omega]
      exact dec_run_stop hop hph hb ht hcap he _

end

end Sys2Proof.Machine
end

