-- ==== Sys2Proof/Laws/Steps.lean ====
section
/-! SUPPORT. What a command and a step can do, said once: the command every arm of `exec` runs, the conditions under which one
runs at all, and the outcomes of a step between commands. -/

namespace Sys2Proof.Machine

theorem reject_eq_none {sizeW : Nat} {d : Operands} : d.reject sizeW = none ↔ d.wellFormed sizeW = true := by
  unfold Operands.reject Operands.wellFormed
  split
  · next h => simp; omega
  · split <;> simp_all

theorem leLen_le_of_wellFormed {sizeW : Nat} {d : Operands} (h : d.wellFormed sizeW = true) : d.leLen ≤ 2 := by
  simp [Operands.wellFormed] at h
  omega

/-- The selectors and the operands of the command they select (30_encoding.md R96). -/
theorem ofSelector_fields (op : Op) (base : Base) (alt : Bool) (d : Operands) :
    (Instr.ofSelector op base alt d).op = op ∧ (Instr.ofSelector op base alt d).base = base
    ∧ (Instr.ofSelector op base alt d).alt = alt ∧ (Instr.ofSelector op base alt d).operands = d := by
  cases op <;> cases base <;> cases alt <;> exact ⟨rfl, rfl, rfl, rfl⟩

theorem inFlight_eq_false {p : Phase} : p.inFlight = false ↔ p = .idle ∨ p = .done := by
  cases p <;> simp [Phase.inFlight]

/-- Every arm of `exec` runs the command its selectors name. -/
theorem exec_eq_runCommand (i : Instr) (s : State) : exec i s = runCommand i.op i.base i.alt i.operands s := by
  cases i <;> rfl

/-- A command answers a next state only when it can be issued and the host keeps its duties; the next state is then where the
ticks from issue end (10_state.md R40, 70_reset_and_hazards.md R286, R287, R289). -/
theorem runCommand_inv {op : Op} {base : Base} {alt : Bool} {d : Operands} {s t : State}
    (h : runCommand op base alt d s = .next t) : Issuable d s ∧ launchDuty op d s = none
      ∧ runTicks (d.inLen + 6) (issue op base alt d s) = .ok t := by
  unfold runCommand at h
  split at h
  · simp at h
  · next hp =>
    split at h
    · simp at h
    · next hr =>
      split at h
      · simp at h
      · next hl =>
        refine ⟨⟨inFlight_eq_false.mp (by simpa using hp), reject_eq_none.mp hr⟩, hl, ?_⟩
        unfold runToDone at h
        cases hrun : runTicks (tickBound (issue op base alt d s)) (issue op base alt d s) with
        | error f => rw [hrun] at h; simp [outcomeOf] at h
        | ok u => rw [hrun] at h; cases h; exact hrun

/-- A launch at the port is refused by name, or is a command on the supplied buffers (30_encoding.md R99, 20_memory.md R69). -/
theorem present_cases (l : Launch) (s : State) :
    (∃ e, present l s = .settled (.refused (.reservedDescriptor e)))
    ∨ ∃ i, present l s = .run i (s.withBuffers l.inBuf l.outBuf) ∧ decode s.sizeW l.desc = .ok i := by
  unfold present
  split
  · exact .inl ⟨_, rfl⟩
  · next i h => exact .inr ⟨i, rfl, h⟩

/-- A command reset before it is done breaks a duty, or leaves the state of `powerOnReset` with a free index drawn (R280). -/
theorem abandon_cases (i : Instr) (s : State) :
    (∃ r, abandon i s = .refused r)
    ∨ abandon i s = .next (powerOnReset { issue i.op i.base i.alt i.operands s with
      mem := abandonedMem (issue i.op i.base i.alt i.operands s), freeCtr := s.freeCtr + 1 }) := by
  unfold abandon
  split
  · exact .inl ⟨_, rfl⟩
  · exact .inr rfl

/-- Everything a step between commands can do: be refused, wait, run a decoded command, stop a pseudo-command on its error,
store a byte, reset the engine, reset it during a command. -/
theorem step_cases {s : State} (hp : s.phase.inFlight = false) :
    (∃ r, step s = .refused r)
    ∨ step s = .next s
    ∨ (∃ i ri ro rest r, decode s.sizeW r = .ok i ∧ step s = exec i ((s.withHost rest).withBuffers ri ro))
    ∨ (∃ rest, step s = .next (s.withHost rest))
    ∨ (∃ rest a b, step s = .next ((s.withHost rest).withMem (Memory.write s.mem a b)))
    ∨ (∃ rest, step s = .next (powerOnReset (s.withHost rest)))
    ∨ ∃ i ri ro rest, step s = abandon i ((s.withHost rest).withBuffers ri ro) := by
  unfold step
  rw [hp, if_neg (by decide)]
  cases hh : s.host with
  | nil => exact .inr (.inl (by simp only [hostRequest, hh]))
  | cons m rest =>
    cases m with
    | issue l =>
      simp only [hostRequest, hh]
      rcases present_cases l (s.withHost rest) with ⟨e, h⟩ | ⟨i, h, hd⟩
      · exact .inl ⟨_, by rw [h]⟩
      · exact .inr (.inr (.inl ⟨i, _, _, rest, _, hd, by rw [h]⟩))
    | issueWithCount l =>
      simp only [hostRequest, hh, presentWithCount]
      rcases hr : readResult s with _ | ⟨n, st⟩
      · exact .inr (.inl rfl)
      · cases st
        case success =>
          rcases present_cases (l.withCapacity n) (s.withHost rest) with ⟨e, h⟩ | ⟨i, h, hd⟩
          · exact .inl ⟨.reservedDescriptor e, by simp only [h]⟩
          · exact .inr (.inr (.inl ⟨i, (l.withCapacity n).inBuf, (l.withCapacity n).outBuf, rest, _, hd, by simp only [h]⟩))
        all_goals exact .inr (.inr (.inr (.inl ⟨rest, rfl⟩)))
    | store a b => exact .inr (.inr (.inr (.inr (.inl ⟨rest, a, b, by simp only [hostRequest, hh]⟩))))
    | reset => exact .inr (.inr (.inr (.inr (.inr (.inl ⟨rest, by simp only [hostRequest, hh]⟩)))))
    | issueThenReset l =>
      simp only [hostRequest, hh]
      rcases present_cases l (s.withHost rest) with ⟨e, h⟩ | ⟨i, h, hd⟩
      · exact .inl ⟨_, by rw [h]⟩
      · exact .inr (.inr (.inr (.inr (.inr (.inr ⟨i, _, _, rest, by rw [h]⟩)))))

end Sys2Proof.Machine
end

