-- ==== Sys2Proof/Tests/Slice0.lean ====
section
/-! SUPPORT. The model's own tests. Expected results are the spec's: the vectors of 95_test_vectors.md, named in each comment, or a
rule worked by hand. Then the witnesses: for every statement with hypotheses, a state and operands that meet them together. -/

namespace Sys2Proof.Tests

set_option Elab.async false

open Sys2Proof.Machine

/-! A small state: the input from address 0 on, OUT of `cap` bytes behind it, all else as after reset. -/

def withInput (input : List Byte) (cap : Nat) : State :=
  { State.reset with
    mem := Memory.writeList [] 0 input
    inBuf := some ⟨0, input.length⟩
    outBuf := some ⟨input.length, cap⟩ }

/-- The first `n` bytes of OUT, `count` and `status` after a step; none where it stopped. -/
def observed (n : Nat) : Host.Outcome State Fault Refusal → Option (List Byte × Nat × Status)
  | .next t => some ((t.outBuf.map fun r => Memory.readList t.mem r.base n).getD [], t.count, t.status)
  | .fault _ => none
  | .refused _ => none

/-- A step answers a next state with a property. -/
def endsIn (p : State → Bool) : Host.Outcome State Fault Refusal → Bool
  | .next t => p t
  | .fault _ => false
  | .refused _ => false

theorem next_of_endsIn {p : State → Bool} {o : Host.Outcome State Fault Refusal} (h : endsIn p o = true) :
    ∃ t, o = .next t ∧ p t = true := by
  cases o with
  | next t => exact ⟨t, rfl, h⟩
  | fault f => cases h
  | refused r => cases h

/-! WellFormed refuses each ill-formed term; the largest values it admits. -/

theorem test_wellFormed_leLen : (Instr.encB64 { Operands.default with leLen := 3 }).wellFormed 32 = false := by decide
theorem test_wellFormed_lineLength :
    (Instr.encB16 { Operands.default with lineLength := 4294967296 }).wellFormed 32 = false := by decide
theorem test_wellFormed_inLen :
    (Instr.decB32 { Operands.default with inLen := 4294967296 }).wellFormed 32 = false := by decide
theorem test_wellFormed_outCap :
    (Instr.encSizeB16 true { Operands.default with outCap := 4294967296 }).wellFormed 32 = false := by decide
theorem test_wellFormed_largest : (Instr.decB64Url { Operands.default with
    leLen := 2, lineLength := 4294967295, inLen := 4294967295, outCap := 4294967295 }).wellFormed 32 = true := by decide

/-! Decoding: words written out from the field table (30_encoding.md R91). -/

/-- VC1: op 2, base 2, alt 0, use_padding, le_len 1, both present, le0 0x0A. -/
theorem test_decode_encB64 : decode 32 ⟨0x000A0D2A, 76, 1, 4⟩ = .ok (.encB64 (lineOperands [.len 1, .cap 4])) := by decide
/-- VC2: op 2, base 1, alt 1, use_padding, le_len 2, le0 0x0D, le1 0x0A, both present. -/
theorem test_decode_encB32Hex : decode 32 ⟨0x0A0D0E36, 76, 0, 0⟩
    = .ok (.encB32Hex (lineOperands [.leTwo 0x0D 0x0A])) := by decide
/-- VC3: DEC.B64 without padding, strict. -/
theorem test_decode_decB64 : decode 32 ⟨0x000A0D4B, 76, 0, 0⟩
    = .ok (.decB64 (lineOperands [.pad false, .strict true])) := by decide
/-- VC4: the alt bit of a size command is no selector. -/
theorem test_decode_encSizeB64 : decode 32 ⟨0x000A0D38, 76, 0, 0⟩ = .ok (.encSizeB64 true Operands.default) := by decide
/-- VC5: base 3 is reserved. -/
theorem test_decode_reservedBase : decode 32 ⟨0x000A0D2E, 76, 0, 0⟩ = .error .reservedBase := by decide
/-- VC6: le_len 3 is reserved. -/
theorem test_decode_reservedLeLen : decode 32 ⟨0x000A0F2A, 76, 0, 0⟩ = .error .reservedLeLen := by decide
/-- VC7: bits 15:12 are reserved. -/
theorem test_decode_reservedBits : decode 32 ⟨0x000A1D2A, 76, 0, 0⟩ = .error .reservedBits := by decide
/-- VC8: an le1 beyond le_len is not reserved. -/
theorem test_decode_unusedLe1 : decode 32 ⟨0xFF0A0D2A, 76, 0, 0⟩
    = .ok (.encB64 { Operands.default with le1 := 0xFF }) := by decide
/-- An operand of more than SIZE_W bits cannot be presented (R90). -/
theorem test_decode_tooWide : decode 8 ⟨0x000A0D2A, 76, 256, 0⟩ = .error .operandTooWide := by decide
/-- The other selectors, each on the default word 0x000A0D20 (R96). -/
theorem test_decode_selectors :
    decode 32 ⟨0x000A0D20, 76, 0, 0⟩ = .ok (.encSizeB16 false Operands.default)
    ∧ decode 32 ⟨0x000A0D24, 76, 0, 0⟩ = .ok (.encSizeB32 false Operands.default)
    ∧ decode 32 ⟨0x000A0D21, 76, 0, 0⟩ = .ok (.decSizeB16 false Operands.default)
    ∧ decode 32 ⟨0x000A0D25, 76, 0, 0⟩ = .ok (.decSizeB32 false Operands.default)
    ∧ decode 32 ⟨0x000A0D29, 76, 0, 0⟩ = .ok (.decSizeB64 false Operands.default)
    ∧ decode 32 ⟨0x000A0D22, 76, 0, 0⟩ = .ok (.encB16 Operands.default)
    ∧ decode 32 ⟨0x000A0D32, 76, 0, 0⟩ = .ok (.encB16L Operands.default)
    ∧ decode 32 ⟨0x000A0D26, 76, 0, 0⟩ = .ok (.encB32 Operands.default) := by decide
theorem test_decode_selectors_rest :
    decode 32 ⟨0x000A0D3A, 76, 0, 0⟩ = .ok (.encB64Url Operands.default)
    ∧ decode 32 ⟨0x000A0D23, 76, 0, 0⟩ = .ok (.decB16 Operands.default)
    ∧ decode 32 ⟨0x000A0D33, 76, 0, 0⟩ = .ok (.decB16L Operands.default)
    ∧ decode 32 ⟨0x000A0D27, 76, 0, 0⟩ = .ok (.decB32 Operands.default)
    ∧ decode 32 ⟨0x000A0D37, 76, 0, 0⟩ = .ok (.decB32Hex Operands.default)
    ∧ decode 32 ⟨0x000A0D3B, 76, 0, 0⟩ = .ok (.decB64Url Operands.default) := by decide
/-- The encoder writes the words of VC2 and VC3. -/
theorem test_encode : encode (.encB32Hex (lineOperands [.leTwo 0x0D 0x0A])) = ⟨0x0A0D0E36, 76, 0, 0⟩
    ∧ encode (.decB64 (lineOperands [.pad false, .strict true, .len 7])) = ⟨0x000A0D4B, 76, 7, 0⟩ := by decide
/-- A word of the opcode table alone: every later field zero. -/
theorem test_decodeTableWord : (decodeTableWord 32 0x0000000A).map Instr.mnemonic = some "ENC.B64"
    ∧ decodeTableWord 32 0x0000100A = none := by decide
/-- The word placed for the next step is the command that step runs: ENC.B64 with no buffer flag ends in
NullOrMissingArgument (41_encode.md R151). -/
theorem test_withFetchWord : observed 0 (step (State.reset.withFetchWord 32 0x0000000A))
    = some ([], 0, .nullOrMissingArgument) := by decide +kernel
/-- The operands' bits are placed too: DECSIZE.B64 of 715827882 bytes (VZ10). -/
theorem test_withFetchWord_operands :
    observed 0 (step (State.reset.withFetchWord 128 (0x09 + 715827882 * 2 ^ 64))) = some ([], 536870912, .success) := by
  decide +kernel

/-! The commands, at most two small tests each. -/

/-- VZ3. -/
theorem test_encSizeB16 : observed 0 (exec (.encSizeB16 false (lineOperands [.ll 0, .len 536870911])) State.reset)
    = some ([], 1073741822, .success) := by decide +kernel
/-- VZ5. -/
theorem test_encSizeB16_tooLarge : observed 0 (exec (.encSizeB16 false (lineOperands [.len 536870912])) State.reset)
    = some ([], 0, .inputTooLarge) := by decide +kernel
/-- VZ2. -/
theorem test_encSizeB32 : observed 0 (exec (.encSizeB32 false (lineOperands [.ll 0, .len 536870911])) State.reset)
    = some ([], 858993464, .success) := by decide +kernel
/-- The size of the text of VE8 (40_size.md R131). -/
theorem test_encSizeB32_lines : observed 0 (exec (.encSizeB32 false (lineOperands [.ll 8, .leTwo 0x0D 0x0A, .len 6])) State.reset)
    = some ([], 20, .success) := by decide +kernel
/-- VZ4. -/
theorem test_encSizeB64 : observed 0 (exec (.encSizeB64 false (lineOperands [.len 536870911])) State.reset)
    = some ([], 725246671, .success) := by decide +kernel
/-- The size of VE12 and VE17. -/
theorem test_encSizeB64_null : observed 0 (exec (.encSizeB64 false (lineOperands [.nul true, .ll 0, .len 3])) State.reset)
    = some ([], 5, .success) := by decide +kernel
/-- VZ6. -/
theorem test_decSizeB16 : observed 0 (exec (.decSizeB16 false (lineOperands [.len 1073741823])) State.reset)
    = some ([], 536870912, .success) := by decide +kernel
/-- VZ7. -/
theorem test_decSizeB16_tooLarge : observed 0 (exec (.decSizeB16 false (lineOperands [.len 1073741824])) State.reset)
    = some ([], 0, .inputTooLarge) := by decide +kernel
/-- VZ8. -/
theorem test_decSizeB32 : observed 0 (exec (.decSizeB32 false (lineOperands [.len 858993459])) State.reset)
    = some ([], 536870912, .success) := by decide +kernel
/-- VZ9. -/
theorem test_decSizeB32_tooLarge : observed 0 (exec (.decSizeB32 false (lineOperands [.len 858993460])) State.reset)
    = some ([], 0, .inputTooLarge) := by decide +kernel
/-- VZ10. -/
theorem test_decSizeB64 : observed 0 (exec (.decSizeB64 false (lineOperands [.len 715827882])) State.reset)
    = some ([], 536870912, .success) := by decide +kernel
/-- VZ11. -/
theorem test_decSizeB64_tooLarge : observed 0 (exec (.decSizeB64 false (lineOperands [.len 715827883])) State.reset)
    = some ([], 0, .inputTooLarge) := by decide +kernel
/-- VE10. -/
theorem test_encB16 : observed 9 (exec (.encB16 (lineOperands [.ll 2, .len 3, .cap 9])) (withInput [0x66, 0x6F, 0x6F] 9))
    = some ([0x36, 0x36, 0x0A, 0x36, 0x46, 0x0A, 0x36, 0x46, 0x0A], 9, .success) := by decide +kernel
/-- The high half first (41_encode.md R160). -/
theorem test_encB16_high : observed 4 (exec (.encB16 (lineOperands [.len 2, .cap 4])) (withInput [0x0F, 0xA0] 4))
    = some ([0x30, 0x46, 0x41, 0x30], 4, .success) := by decide +kernel
/-- VE11: the marker is not counted. -/
theorem test_encB16L : observed 8 (exec (.encB16L (lineOperands [.nul true, .ll 4, .len 3, .cap 8])) (withInput [0x66, 0x6F, 0x6F] 8))
    = some ([0x36, 0x36, 0x36, 0x66, 0x0A, 0x36, 0x66, 0x00], 7, .success) := by decide +kernel
/-- VE8. -/
theorem test_encB32 : observed 20 (exec (.encB32 (lineOperands [.ll 8, .leTwo 0x0D 0x0A, .len 6, .cap 20])) (withInput [0x66, 0x6F, 0x6F, 0x62, 0x61, 0x72] 20))
    = some ([0x4D, 0x5A, 0x58, 0x57, 0x36, 0x59, 0x54, 0x42, 0x0D, 0x0A, 0x4F, 0x49, 0x3D, 0x3D, 0x3D, 0x3D, 0x3D, 0x3D, 0x0D, 0x0A], 20, .success) := by decide +kernel
/-- The text of VD67 without its padding. -/
theorem test_encB32_bare : observed 7 (exec (.encB32 (lineOperands [.pad false, .len 4, .cap 7])) (withInput [0x66, 0x6F, 0x6F, 0x62] 7))
    = some ([0x4D, 0x5A, 0x58, 0x57, 0x36, 0x59, 0x51], 7, .success) := by decide +kernel
/-- The text of VD81. -/
theorem test_encB32Hex : observed 16 (exec (.encB32Hex (lineOperands [.len 6, .cap 16])) (withInput [0x66, 0x6F, 0x6F, 0x62, 0x61, 0x72] 16))
    = some ([0x43, 0x50, 0x4E, 0x4D, 0x55, 0x4F, 0x4A, 0x31, 0x45, 0x38, 0x3D, 0x3D, 0x3D, 0x3D, 0x3D, 0x3D], 16, .success) := by decide +kernel
/-- VE3: a line ending inside the padding. -/
theorem test_encB64 : observed 5 (exec (.encB64 (lineOperands [.ll 3, .len 1, .cap 5])) (withInput [0x66] 5))
    = some ([0x5A, 0x67, 0x3D, 0x0A, 0x3D], 5, .success) := by decide +kernel
/-- VE16: nothing is written. -/
theorem test_encB64_small : observed 2 (exec (.encB64 (lineOperands [.len 4, .cap 7])) (withInput [0x66, 0x6F, 0x6F, 0x62] 7))
    = some ([0x00, 0x00], 0, .bufferTooSmall) := by decide +kernel
/-- The text of VD46. -/
theorem test_encB64Url : observed 4 (exec (.encB64Url (lineOperands [.len 2, .cap 4])) (withInput [0xFB, 0xFF] 4))
    = some ([0x2D, 0x5F, 0x38, 0x3D], 4, .success) := by decide +kernel
/-- VD52. -/
theorem test_decB16 : observed 3 (exec (.decB16 (lineOperands [.len 6, .cap 3])) (withInput [0x36, 0x36, 0x36, 0x46, 0x36, 0x66] 3))
    = some ([0x66, 0x6F, 0x6F], 3, .success) := by decide +kernel
/-- VD55: the whole byte is written, the count is 0. -/
theorem test_decB16_odd : observed 2 (exec (.decB16 (lineOperands [.len 3, .cap 2])) (withInput [0x36, 0x36, 0x36] 2))
    = some ([0x66, 0x00], 0, .invalidLength) := by decide +kernel
/-- VD50: the letter case is ignored. -/
theorem test_decB16L : observed 3 (exec (.decB16L (lineOperands [.len 6, .cap 3])) (withInput [0x36, 0x36, 0x36, 0x46, 0x36, 0x46] 3))
    = some ([0x66, 0x6F, 0x6F], 3, .success) := by decide +kernel
/-- VD69. -/
theorem test_decB32 : observed 2 (exec (.decB32 (lineOperands [.len 8, .cap 5])) (withInput [0x4D, 0x5A, 0x3D, 0x3D, 0x3D, 0x3D, 0x3D, 0x3D] 5))
    = some ([0x66, 0x00], 1, .success) := by decide +kernel
/-- VD70. -/
theorem test_decB32_strict : observed 2 (exec (.decB32 (lineOperands [.strict true, .len 8, .cap 5])) (withInput [0x4D, 0x5A, 0x3D, 0x3D, 0x3D, 0x3D, 0x3D, 0x3D] 5))
    = some ([0x66, 0x00], 0, .invalidInput) := by decide +kernel
/-- VD84. -/
theorem test_decB32Hex : observed 2 (exec (.decB32Hex (lineOperands [.len 8, .cap 5])) (withInput [0x4D, 0x5A, 0x58, 0x57, 0x36, 0x59, 0x54, 0x42] 5))
    = some ([0x00, 0x00], 0, .invalidCharacter) := by decide +kernel
/-- VD82. -/
theorem test_decB32Hex_bare : observed 6 (exec (.decB32Hex (lineOperands [.pad false, .len 10, .cap 7])) (withInput [0x43, 0x50, 0x4E, 0x4D, 0x55, 0x4F, 0x4A, 0x31, 0x45, 0x38] 7))
    = some ([0x66, 0x6F, 0x6F, 0x62, 0x61, 0x72], 6, .success) := by decide +kernel
/-- VD45: the skip set wins over the alphabet. -/
theorem test_decB64 : observed 4 (exec (.decB64 (lineOperands [.leOne 0x6D, .len 8, .cap 6])) (withInput [0x5A, 0x6D, 0x39, 0x76, 0x59, 0x6D, 0x46, 0x79] 6))
    = some ([0x67, 0xDB, 0xD8, 0x17], 0, .invalidPadding) := by decide +kernel
/-- VD28: a symbol behind the padding. -/
theorem test_decB64_padding : observed 2 (exec (.decB64 (lineOperands [.len 4, .cap 3])) (withInput [0x5A, 0x67, 0x3D, 0x67] 3))
    = some ([0x66, 0x00], 0, .invalidPadding) := by decide +kernel
/-- VD48. -/
theorem test_decB64Url : observed 2 (exec (.decB64Url (lineOperands [.len 4, .cap 3])) (withInput [0x2B, 0x2F, 0x38, 0x3D] 3))
    = some ([0x00, 0x00], 0, .invalidCharacter) := by decide +kernel

/-! The machine. -/

/-- Two steps of the host run ENCODE.B64 (30_encoding.md R102): the size query, then the encode into a buffer of that size. -/
theorem test_pseudoEncode :
    endsIn (fun t => endsIn (fun u => decide (u.count = 4) && decide (u.status = .success)
        && decide (Memory.readList u.mem 1 4 = [0x5A, 0x67, 0x3D, 0x3D])) (step t))
      (step { withInput [0x66] 0 with host := pseudoEncode .b64 false (lineOperands [.len 1]) (some ⟨0, 1⟩) (some ⟨1, 0⟩) })
      = true := by decide +kernel
/-- The size command of a pseudo-command has alt 0, whatever alphabet it is for: the words of P5. -/
theorem test_pseudoEncode_words :
    (pseudoEncode .b16 true (lineOperands [.nul true, .ll 0, .len 3]) none none).map (fun m => match m with
      | .issue l => some l.desc.cmd
      | .issueWithCount l => some l.desc.cmd
      | .store _ _ => none
      | .reset => none
      | .issueThenReset _ => none) = [some 0x000A0DA0, some 0x000A0DB2] := by decide
/-- IN and OUT alias only where they share a byte they have (20_memory.md R60): no input byte, an OUT that starts behind IN in
the same region; one byte earlier it aliases (70_reset_and_hazards.md R289). -/
theorem test_alias_extent :
    observed 0 (exec (.encB64 (lineOperands [.cap 4])) { withInput [0x66] 0 with outBuf := some ⟨0, 4⟩ })
      = some ([], 0, .success)
    ∧ observed 2 (exec (.encB16 (lineOperands [.len 1, .cap 2]))
        { withInput [0x66, 0x6F, 0x6F] 0 with outBuf := some ⟨1, 2⟩ }) = some ([0x36, 0x36], 2, .success)
    ∧ exec (.encB16 (lineOperands [.len 2, .cap 4])) { withInput [0x66, 0x6F, 0x6F, 0x62] 0 with outBuf := some ⟨1, 4⟩ }
      = .refused .aliasedBuffers := ⟨by decide +kernel, by decide +kernel, rfl⟩
/-- A reset leaves open only the bytes the command could have written: one of the three of VD2's buffer, all four of VS1's and
its marker, none where CHECK raises. -/
theorem test_reset_extent :
    (issuedOutput (issue .dec .b64 false (lineOperands [.len 4, .cap 3]) (withInput [0x5A, 0x67, 0x3D, 0x3D] 3))).length = 1
    ∧ (issuedOutput (issue .enc .b64 false (lineOperands [.nul true, .len 1, .cap 5]) (withInput [0x66] 5))).length = 5
    ∧ (issuedOutput (issue .enc .b64 false (lineOperands [.len 1, .cap 3]) (withInput [0x66] 3))).length = 0 := by
  decide +kernel
/-- A command issued while another is in flight is refused (10_state.md R40). -/
theorem test_engineBusy : exec (.encB64 Operands.default) { State.reset with phase := .body } = .refused .engineBusy := rfl
/-- The canonical form: writing what an unlisted byte reads as removes the entry. -/
theorem test_memory_form : Memory.write (Memory.write [] 3 0x41) 3 0x00 = []
    ∧ Memory.wf State.reset.mem = true := by decide

/-! Boundary values of the tables' ranges (30_encoding.md R103 to R111, R113, R114), which stand for the clauses of the statements about
them. -/

theorem test_alphabet_boundaries :
    [0, 25, 26, 51, 52, 61, 62, 63].map (fwd .b64 false)
      = [0x41, 0x5A, 0x61, 0x7A, 0x30, 0x39, 0x2B, 0x2F].map some
    ∧ [61, 62, 63].map (fwd .b64 true) = [0x39, 0x2D, 0x5F].map some
    ∧ [0, 25, 26, 31].map (fwd .b32 false) = [0x41, 0x5A, 0x32, 0x37].map some
    ∧ [0, 9, 10, 31].map (fwd .b32 true) = [0x30, 0x39, 0x41, 0x56].map some
    ∧ [0, 9, 10, 15].map (fwd .b16 false) = [0x30, 0x39, 0x41, 0x46].map some
    ∧ [0, 9, 10, 15].map (fwd .b16 true) = [0x30, 0x39, 0x61, 0x66].map some
    ∧ [fwd .b64 false 64, fwd .b32 false 32, fwd .b16 false 16] = [none, none, none] := by decide
/-- Both cases of base16, the neighbours of its ranges, `=` and 0x80 (R109). -/
theorem test_reverse_boundaries :
    [0x46, 0x66, 0x47, 0x40, 0x60, 0x3D, 0x80, 0xFF].map (rev .b16 false)
      = [0x0F, 0x0F, 0xFF, 0xFF, 0xFF, 0xFF, 0xFF, 0xFF]
    ∧ [0x2B, 0x2D, 0x7A].map (rev .b64 true) = [0xFF, 0x3E, 0x33] := by decide
/-- The position whose symbols leave at least a whole symbol over, and its neighbours (R111). -/
theorem test_required_boundaries : [0, 1, 2, 3, 4, 5, 6, 7].map (required .b32)
      = [some 0, none, some 6, none, some 4, some 3, none, some 1]
    ∧ [0, 1, 2, 3].map (required .b64) = [some 0, none, some 2, some 1]
    ∧ [0, 1].map (required .b16) = [some 0, none] := by decide
/-- A byte of each class: whitespace, the two line-ending bytes, `=`, a symbol, a bad byte (R113, R114). -/
theorem test_class_boundaries :
    [0x20, 0x3B, 0x41, 0x3D, 0x42, 0x21].map (classify (latch .dec .b64 false (lineOperands [.leTwo 0x3B 0x41])))
      = [.skip, .skip, .skip, .pad, .sym 1, .bad]
    ∧ classify (latch .dec .b64 false (lineOperands [.leOne 0x3D])) 0x3D = .skip := by decide

/-! Witnesses. -/

theorem complies_withInput {input : List Byte} {cap : Nat} {d : Operands} (hi : d.inLen ≤ input.length)
    (ho : d.outCap ≤ cap) : Complies d (withInput input cap) where
  input := fun _ => ⟨_, rfl, hi⟩
  output := fun _ => ⟨_, rfl, ho⟩
  apart := fun _ _ a b ha hb x => by
    cases ha
    cases hb
    dsimp only
    omega

/-- The operands of the encode witnesses: a line ending after four characters, the null marker, seven bytes. -/
def encOps : Operands := lineOperands [.ll 4, .nul true, .len 7, .cap 40]

/-- `foobarb` as input. -/
def encState : State := withInput [0x66, 0x6F, 0x6F, 0x62, 0x61, 0x72, 0x62] 40

/-- The operands of the decode witnesses. -/
def decOps : Operands := lineOperands [.len 10, .cap 8]

/-- The text of VS14 as input. -/
def decState : State := withInput [0x5A, 0x6D, 0x39, 0x76, 0x0A, 0x59, 0x67, 0x3D, 0x3D, 0x0A] 8

/-- A command ended with Success. -/
def succeeded (t : State) : Bool := decide (t.status = .success)

theorem encState_ready : Issuable encOps encState ∧ Complies encOps encState :=
  ⟨⟨.inl rfl, by decide⟩, complies_withInput (by decide) (by decide)⟩

theorem decState_ready : Issuable decOps decState ∧ Complies decOps decState :=
  ⟨⟨.inl rfl, by decide⟩, complies_withInput (by decide) (by decide)⟩

theorem witness_DecodeEncodeAgree : (Instr.decB64Url
    ⟨true, true, true, 2, true, true, 0xFF, 0xFF, 4294967295, 4294967295, 4294967295⟩).wellFormed 32 = true := by decide
theorem witness_EncodeDecodeAgree : ∃ i, decode 32 ⟨0x0A0D0EF7, 4294967295, 16, 0⟩ = .ok i := ⟨_, rfl⟩
/-- One state and launch for each of the three reserved codes and each move, and the largest legal fields. -/
theorem witness_ReservedDescriptorRefused :
    (∃ (s : State) (l : Launch), (s.phase = .idle ∨ s.phase = .done) ∧ s.host = .issue l :: [] ∧ bitField l.desc.cmd 2 2 = 3)
    ∧ (∃ (s : State) (l : Launch), (s.phase = .idle ∨ s.phase = .done) ∧ s.host = .issueThenReset l :: []
      ∧ bitField l.desc.cmd 8 2 = 3)
    ∧ (∃ (s : State) (l : Launch), (s.phase = .idle ∨ s.phase = .done) ∧ s.host = .issue l :: []
      ∧ bitField l.desc.cmd 12 4 ≠ 0)
    ∧ (∃ (s : State) (l : Launch), (s.phase = .idle ∨ s.phase = .done) ∧ s.host = .issueWithCount l :: [] ∧ s.done = true
      ∧ s.status = .success ∧ bitField l.desc.cmd 2 2 = 3)
    ∧ ∃ r : Descriptor, bitField r.cmd 2 2 ≠ 3 ∧ bitField r.cmd 8 2 ≠ 3 ∧ bitField r.cmd 12 4 = 0
      ∧ r.lineLen < 2 ^ 32 ∧ r.inLen < 2 ^ 32 ∧ r.outCap < 2 ^ 32 :=
  ⟨⟨{ State.reset with host := [.issue ⟨⟨0x0000000E, 0, 0, 0⟩, none, none⟩] }, ⟨⟨0x0000000E, 0, 0, 0⟩, none, none⟩,
      .inl rfl, rfl, by decide⟩,
    ⟨{ State.reset with host := [.issueThenReset ⟨⟨0x0000030A, 0, 0, 0⟩, none, none⟩] }, ⟨⟨0x0000030A, 0, 0, 0⟩, none, none⟩,
      .inl rfl, rfl, by decide⟩,
    ⟨{ State.reset with host := [.issue ⟨⟨0x0000800A, 0, 0, 0⟩, none, none⟩] }, ⟨⟨0x0000800A, 0, 0, 0⟩, none, none⟩,
      .inl rfl, rfl, by decide⟩,
    ⟨{ State.reset with host := [.issueWithCount ⟨⟨0x0000000E, 0, 0, 0⟩, none, none⟩], phase := .done, done := true },
      ⟨⟨0x0000000E, 0, 0, 0⟩, none, none⟩, .inr rfl, rfl, rfl, rfl, by decide⟩,
    ⟨0xFFFF0EFB, 4294967295, 4294967295, 4294967295⟩, by decide⟩
theorem witness_TableSelectsCommand :
    (∃ row ∈ opcodeTable, (0xFFFF0EFB : BitVec 32) &&& row.mask = row.pattern) ∧ bitField 0xFFFF0EFB 8 2 ≠ 3
    ∧ ∃ i, decode 32 ⟨0xFFFF0EFB, 4294967295, 4294967295, 4294967295⟩ = .ok i :=
  ⟨⟨(Instr.decB64Url Operands.default).row, by decide, by decide⟩, by decide, _, rfl⟩
/-- Two operands that differ only where the sizes do not look, and a state that can issue both. -/
theorem witness_IgnoredFieldsKeepResult :
    (∃ d d' : Operands, d ≠ d' ∧ Issuable d encState ∧ Issuable d' encState ∧ d.usePadding = d'.usePadding
      ∧ d.nulTerm = d'.nulTerm ∧ d.leLen = d'.leLen ∧ d.lineLength = d'.lineLength ∧ d.inLen = d'.inLen)
    ∧ (Issuable encOps encState ∧ Complies encOps encState)
    ∧ Issuable decOps decState ∧ Complies decOps decState ∧ 4294967295 < 2 ^ decState.sizeW :=
  ⟨⟨encOps, { encOps with strict := true, le0 := 0xFF, inPresent := false }, by decide, encState_ready.1,
    ⟨.inl rfl, by decide⟩, rfl, rfl, rfl, rfl, rfl⟩, encState_ready, decState_ready.1, decState_ready.2, by decide⟩
/-- The last length that succeeds and the first that does not (40_size.md R133). -/
theorem witness_EncSizeCompletes : 8 ≤ State.reset.sizeW ∧ Issuable (lineOperands [.len 536870911]) State.reset
    ∧ Issuable (lineOperands [.len 536870912]) State.reset :=
  ⟨by decide, ⟨.inl rfl, by decide⟩, ⟨.inl rfl, by decide⟩⟩
theorem witness_DecSizeCompletes : Issuable (lineOperands [.len 715827882]) State.reset
    ∧ Issuable (lineOperands [.len 715827883]) { State.reset with phase := .done } :=
  ⟨⟨.inl rfl, by decide⟩, ⟨.inr rfl, by decide⟩⟩
theorem witness_SizeOverflowBoundary : encSize 32 .b64 true true 2 1 536870911 = some 2147483653
    ∧ encSize 32 .b64 true true 2 1 536870912 = none ∧ decSize 32 .b32 858993459 = some 536870912
    ∧ decSize 32 .b32 858993460 = none := by decide
theorem witness_EncodeCompletes : Issuable encOps encState ∧ Complies encOps encState := encState_ready
/-- Each test of CHECK with operands that meet it: a capacity of the size, one less, a length too large, no buffer. -/
theorem witness_EncodeCheckOrder :
    (∃ d s, Issuable d s ∧ Complies d s ∧ d.inPresent = false)
    ∧ (∃ d s, Issuable d s ∧ Complies d s ∧ d.inPresent = true ∧ d.outPresent = true
      ∧ encSize s.sizeW .b64 d.usePadding d.nulTerm d.leLen d.lineLength d.inLen = none)
    ∧ (∃ d s, Issuable d s ∧ Complies d s ∧ d.inPresent = true ∧ d.outPresent = true
      ∧ encSize s.sizeW .b64 d.usePadding d.nulTerm d.leLen d.lineLength d.inLen = some (d.outCap + 1))
    ∧ ∃ d s, Issuable d s ∧ Complies d s ∧ d.inPresent = true ∧ d.outPresent = true
      ∧ encSize s.sizeW .b64 d.usePadding d.nulTerm d.leLen d.lineLength d.inLen = some d.outCap :=
  ⟨⟨lineOperands [.inAbsent], withInput [] 0, ⟨.inl rfl, by decide⟩, complies_withInput (by decide) (by decide), rfl⟩,
    ⟨lineOperands [.len 536870912], { State.reset with inBuf := some ⟨0, 536870912⟩, outBuf := some ⟨536870912, 0⟩ },
      ⟨.inl rfl, by decide⟩,
      ⟨fun _ => ⟨_, rfl, by decide⟩, fun _ => ⟨_, rfl, by decide⟩, fun _ _ a b ha hb x ⟨_, h1, h2, _⟩ => by
        cases ha; cases hb; have h1 : x < 0 + 536870912 := h1; dsimp only at h2; omega⟩,
      rfl, rfl, by decide⟩,
    ⟨lineOperands [.len 7, .cap 11], encState, ⟨.inl rfl, by decide⟩, complies_withInput (by decide) (by decide), rfl, rfl,
      by decide⟩,
    ⟨lineOperands [.len 7, .cap 12], encState, ⟨.inl rfl, by decide⟩, complies_withInput (by decide) (by decide), rfl, rfl,
      by decide⟩⟩
theorem witness_EncodeSizeExact : Issuable encOps encState ∧ Complies encOps encState ∧ encOps.inPresent = true
    ∧ encOps.outPresent = true ∧ encSize encState.sizeW .b16 true true 1 4 7 = some 18
    ∧ encSize encState.sizeW .b32 true true 1 4 7 = some 21 ∧ encSize encState.sizeW .b64 true true 1 4 7 = some 16 :=
  ⟨encState_ready.1, encState_ready.2, rfl, rfl, by decide, by decide, by decide⟩
/-- The byte behind the text and its marker stands outside what is stored. -/
theorem witness_EncodeFrame : Issuable encOps encState ∧ Complies encOps encState ∧ ¬ InOutput encState 16 23 := by
  refine ⟨encState_ready.1, encState_ready.2, ?_⟩
  rintro ⟨r, hr, h1, h2⟩
  cases hr
  exact absurd h2 (by decide)
/-- A state of an encode with `n` columns written in lines of four, `p` bytes of the 40 written, and an option `le` set. -/
def emitState (le : LineOption) (n p : Nat) : State :=
  { encState with
    desc := latch .enc .b64 false (le.apply encOps), work := { Working.atReset with outPos := p, col := n } }

/-- No wrapping and a line not yet full, each at the last byte of the buffer, and full lines with each length of the line
ending, which ends the buffer. -/
theorem witness_EmitEffect : (emitState (.ll 0) 0 39).outBuf = some ⟨7, 40⟩ ∧ (emitState (.ll 0) 0 39).desc.outPresent = true
    ∧ (emitState (.ll 0) 0 39).desc.lineLength = 0 ∧ (emitState (.ll 0) 0 39).work.outPos + 1 = 40
    ∧ (emitState (.leTwo 0x0D 0x0A) 2 39).work.col + 1 ≠ (emitState (.leTwo 0x0D 0x0A) 2 39).desc.lineLength
    ∧ (emitState (.leTwo 0x0D 0x0A) 2 39).work.outPos + 1 = (emitState (.leTwo 0x0D 0x0A) 2 39).desc.outCap
    ∧ (emitState .leNone 3 39).desc.leLen = 0 ∧ (emitState (.leOne 0x3B) 3 38).desc.leLen = 1
    ∧ (emitState (.leTwo 0x0D 0x0A) 3 37).desc.leLen = 2
    ∧ (emitState (.leTwo 0x0D 0x0A) 3 37).work.col + 1 = (emitState (.leTwo 0x0D 0x0A) 3 37).desc.lineLength
    ∧ (emitState (.leTwo 0x0D 0x0A) 3 37).work.outPos + 1 + 2 = (emitState (.leTwo 0x0D 0x0A) 3 37).desc.outCap := by decide
/-- Four characters in lines of two: both line endings are full. -/
theorem witness_LineEndingsPlaced : 0 < 2 ∧ 2 * 2 ≤ [(0x41 : Byte), 0x42, 0x43, 0x44].length
    ∧ 1 < [(0x0D : Byte), 0x0A].length := by decide
theorem witness_EncodeB16Digits : Issuable encOps encState ∧ Complies encOps encState ∧ Memory.wf encState.mem = true
    ∧ (∃ t, exec (.encB16 encOps) encState = .next t ∧ succeeded t = true)
    ∧ ∃ t, exec (.encB16L encOps) encState = .next t ∧ succeeded t = true :=
  ⟨encState_ready.1, encState_ready.2, by decide, next_of_endsIn (by decide +kernel), next_of_endsIn (by decide +kernel)⟩
/-- Seven bytes: one full group of five and a final group of two (`5 * 1 < 7`). -/
theorem witness_EncodeB32Groups : Issuable encOps encState ∧ Complies encOps encState ∧ Memory.wf encState.mem = true
    ∧ (∃ t, exec (.encB32 encOps) encState = .next t ∧ succeeded t = true)
    ∧ (∃ t, exec (.encB32Hex encOps) encState = .next t ∧ succeeded t = true) ∧ 5 * 1 < encOps.inLen
    ∧ encOps.usePadding = true :=
  ⟨encState_ready.1, encState_ready.2, by decide, next_of_endsIn (by decide +kernel), next_of_endsIn (by decide +kernel),
    by decide, rfl⟩
/-- Seven bytes: two full groups of three and a final group of one (`3 * 2 < 7`). -/
theorem witness_EncodeB64Groups : Issuable encOps encState ∧ Complies encOps encState ∧ Memory.wf encState.mem = true
    ∧ (∃ t, exec (.encB64 encOps) encState = .next t ∧ succeeded t = true)
    ∧ (∃ t, exec (.encB64Url encOps) encState = .next t ∧ succeeded t = true) ∧ 3 * 2 < encOps.inLen
    ∧ encOps.usePadding = true :=
  ⟨encState_ready.1, encState_ready.2, by decide, next_of_endsIn (by decide +kernel), next_of_endsIn (by decide +kernel),
    by decide, rfl⟩
/-- TERM with room for the marker at the last byte, and TERM without a marker at the capacity. -/
theorem witness_EncodeTerm :
    (∃ (s : State) (r : Region), s.phase = .term ∧ s.desc.op = .enc ∧ s.outBuf = some r ∧ s.desc.outPresent = true
      ∧ s.work.outPos + 1 = s.desc.outCap ∧ s.desc.nulTerm = true)
    ∧ ∃ (s : State) (r : Region), s.phase = .term ∧ s.desc.op = .enc ∧ s.outBuf = some r ∧ s.desc.outPresent = true
      ∧ s.work.outPos = s.desc.outCap ∧ s.desc.nulTerm = false :=
  ⟨⟨{ encState with
        phase := .term, desc := latch .enc .b64 false encOps, work := { Working.atReset with outPos := 39 } }, ⟨7, 40⟩,
      rfl, rfl, rfl, rfl, rfl, rfl⟩,
    ⟨{ encState with
        phase := .term
        desc := latch .enc .b64 false { encOps with nulTerm := false }
        work := { Working.atReset with outPos := 40 } }, ⟨7, 40⟩, rfl, rfl, rfl, rfl, rfl, rfl⟩⟩
/-- A successful encode with the marker and one without. -/
theorem witness_NullMarkerBehindText : Issuable encOps encState ∧ Complies encOps encState ∧ Memory.wf encState.mem = true
    ∧ (∃ t, exec (.encB16L encOps) encState = .next t ∧ succeeded t = true)
    ∧ ∃ t, exec (.encB64 { encOps with nulTerm := false }) encState = .next t ∧ succeeded t = true :=
  ⟨encState_ready.1, encState_ready.2, by decide, next_of_endsIn (by decide +kernel), next_of_endsIn (by decide +kernel)⟩

/-- The operands of the encode witnesses without wrapping and padding. -/
def bareOps : Operands := { encOps with lineLength := 0, usePadding := false }

theorem witness_EncodePrefix : Issuable bareOps encState ∧ Complies bareOps encState ∧ Memory.wf encState.mem = true
    ∧ bareOps.lineLength = 0 ∧ bareOps.usePadding = false ∧ 4 ≤ bareOps.inLen
    ∧ (∃ t, exec (.encB32 bareOps) encState = .next t ∧ succeeded t = true)
    ∧ ∃ t, exec (.encB32 { bareOps with inLen := 4 }) encState = .next t ∧ succeeded t = true :=
  ⟨⟨.inl rfl, by decide⟩, complies_withInput (by decide) (by decide), by decide, rfl, rfl, by decide,
    next_of_endsIn (by decide +kernel), next_of_endsIn (by decide +kernel)⟩
theorem witness_EncodeStepInvariant : Issuable encOps encState ∧ Complies encOps encState
    ∧ checkStatus (encSize encState.sizeW .b32 true true 1 4 7) encOps = none ∧ 7 ≤ encOps.inLen :=
  ⟨encState_ready.1, encState_ready.2, by decide, by decide⟩
theorem witness_DecodeCompletes : Issuable decOps decState ∧ Complies decOps decState := decState_ready
/-- Each test of CHECK with operands that meet it. -/
theorem witness_DecodeCheckOrder :
    (∃ d s, Issuable d s ∧ Complies d s ∧ d.outPresent = false)
    ∧ (∃ d s, Issuable d s ∧ Complies d s ∧ d.inPresent = true ∧ d.outPresent = true ∧ decSize s.sizeW .b64 d.inLen = none)
    ∧ (∃ d s, Issuable d s ∧ Complies d s ∧ d.inPresent = true ∧ d.outPresent = true
      ∧ decSize s.sizeW .b64 d.inLen = some (d.outCap + 1))
    ∧ ∃ d s, Issuable d s ∧ Complies d s ∧ d.inPresent = true ∧ d.outPresent = true
      ∧ decSize s.sizeW .b64 d.inLen = some d.outCap :=
  ⟨⟨lineOperands [.outAbsent], withInput [] 0, ⟨.inl rfl, by decide⟩, complies_withInput (by decide) (by decide), rfl⟩,
    ⟨lineOperands [.len 715827883], { State.reset with inBuf := some ⟨0, 715827883⟩, outBuf := some ⟨715827883, 0⟩ },
      ⟨.inl rfl, by decide⟩,
      ⟨fun _ => ⟨_, rfl, by decide⟩, fun _ => ⟨_, rfl, by decide⟩, fun _ _ a b ha hb x ⟨_, h1, h2, _⟩ => by
        cases ha; cases hb; have h1 : x < 0 + 715827883 := h1; dsimp only at h2; omega⟩,
      rfl, rfl, by decide⟩,
    ⟨lineOperands [.len 10, .cap 7], decState, ⟨.inl rfl, by decide⟩, complies_withInput (by decide) (by decide), rfl, rfl,
      by decide⟩,
    ⟨decOps, decState, decState_ready.1, decState_ready.2, rfl, rfl, by decide⟩⟩
/-- CHECK passes and four bytes are stored: the fifth byte of OUT, address 14, stands outside them. -/
theorem witness_DecodeFrame : Issuable decOps decState ∧ Complies decOps decState
    ∧ checkStatus (decSize decState.sizeW .b64 decOps.inLen) decOps = none
    ∧ (∃ t, exec (.decB64 decOps) decState = .next t ∧ decide (t.work.outPos = 4) = true) ∧ ¬ InOutput decState 4 14 := by
  refine ⟨decState_ready.1, decState_ready.2, by decide, next_of_endsIn (by decide +kernel), ?_⟩
  rintro ⟨r, hr, h1, h2⟩
  cases hr
  exact absurd h2 (by decide)
/-- The texts of VD50 and VD52, equal up to letter case, their line ending a letter they do not hold. -/
theorem witness_DecodeB16OptionsIrrelevant :
    let d := lineOperands [.leOne 0x61, .len 6, .cap 3]
    let s := withInput [0x36, 0x36, 0x36, 0x46, 0x36, 0x46] 3
    let s' := withInput [0x36, 0x36, 0x36, 0x46, 0x36, 0x66] 3
    Issuable d s ∧ Complies d s ∧ Issuable d s' ∧ Complies d s' ∧ s.sizeW = s'.sizeW
    ∧ inputBytes s d.inLen ≠ inputBytes s' d.inLen
    ∧ ∀ (k : Nat) (c c' : Byte), (inputBytes s d.inLen)[k]? = some c → (inputBytes s' d.inLen)[k]? = some c' →
      SameDigit d c c' := by
  refine ⟨⟨.inl rfl, by decide⟩, complies_withInput (by decide) (by decide), ⟨.inl rfl, by decide⟩,
    complies_withInput (by decide) (by decide), rfl, by decide, fun k c c' h h' => ?_⟩
  match k with
  | 0 | 1 | 2 | 3 | 4 => exact .inl (Option.some.inj (h.symm.trans h'))
  | 5 => cases h; cases h'; exact .inr (by decide)
  | k + 6 => cases h
/-- VD15 and VD16: strict decode ends with InvalidInput where lenient decode succeeds. -/
theorem witness_StrictRejectsOnly : Issuable (lineOperands [.len 4, .cap 3]) (withInput [0x5A, 0x68, 0x3D, 0x3D] 3)
    ∧ Complies (lineOperands [.len 4, .cap 3]) (withInput [0x5A, 0x68, 0x3D, 0x3D] 3)
    ∧ (∃ t, exec (.decB64 (lineOperands [.len 4, .cap 3, .strict true])) (withInput [0x5A, 0x68, 0x3D, 0x3D] 3) = .next t
      ∧ decide (t.status = .invalidInput) = true)
    ∧ ∃ t, exec (.decB64 (lineOperands [.len 4, .cap 3, .strict false])) (withInput [0x5A, 0x68, 0x3D, 0x3D] 3) = .next t
      ∧ succeeded t = true :=
  ⟨⟨.inl rfl, by decide⟩, complies_withInput (by decide) (by decide), next_of_endsIn (by decide +kernel),
    next_of_endsIn (by decide +kernel)⟩
/-- The text of VS14, and the same text without its line endings. -/
theorem witness_SkippedBytesContributeNothing :
    Issuable decOps decState ∧ Complies decOps decState
    ∧ Issuable { decOps with inLen := 8 } (withInput [0x5A, 0x6D, 0x39, 0x76, 0x59, 0x67, 0x3D, 0x3D] 8)
    ∧ Complies { decOps with inLen := 8 } (withInput [0x5A, 0x6D, 0x39, 0x76, 0x59, 0x67, 0x3D, 0x3D] 8)
    ∧ (inputBytes decState decOps.inLen).filter (fun c => !isSkip decOps c)
      = (inputBytes (withInput [0x5A, 0x6D, 0x39, 0x76, 0x59, 0x67, 0x3D, 0x3D] 8) 8).filter (fun c => !isSkip decOps c)
    ∧ checkStatus (decSize 32 .b64 decOps.inLen) decOps = none ∧ checkStatus (decSize 32 .b64 8) decOps = none :=
  ⟨decState_ready.1, decState_ready.2, ⟨.inl rfl, by decide⟩, complies_withInput (by decide) (by decide),
    by decide +kernel, by decide, by decide⟩

/-- A decode in BODY about to read the byte at index `i` of the text of VS14, `n` bits pending, `p` padding bytes seen. -/
def bodyState (i n p : Nat) : State :=
  { decState with
    phase := .body
    desc := latch .dec .b64 false decOps
    work := { Working.atReset with inPos := i, nbits := n, outPos := 7, npad := p } }

/-- The class of the byte that `bodyState` is about to read. -/
def bodyClass (i : Nat) : ByteClass := classify (bodyState i 0 0).desc (Memory.read (bodyState i 0 0).mem (0 + i))

/-- The end of the input, a skipped byte, a padding byte, a symbol behind padding, a symbol that fills no byte and one that does,
into the last byte of the buffer; a bad byte, which base32 finds at index 1. -/
theorem witness_DecodeBodyStep : (bodyState 10 0 0).work.inPos = (bodyState 10 0 0).desc.inLen
    ∧ (bodyState 9 0 0).work.inPos < (bodyState 9 0 0).desc.inLen ∧ bodyClass 9 = .skip ∧ bodyClass 7 = .pad
    ∧ bodyClass 0 = .sym 25 ∧ 0 < (bodyState 0 0 1).work.npad
    ∧ (bodyState 0 1 0).work.nbits + symbolWidth .b64 < 8 ∧ 8 ≤ (bodyState 0 2 0).work.nbits + symbolWidth .b64
    ∧ (bodyState 0 2 0).work.outPos + 1 = (bodyState 0 2 0).desc.outCap
    ∧ classify (latch .dec .b32 false decOps) (Memory.read decState.mem 1) = .bad := by decide
/-- A decode at TAIL after `g` symbols of a base64 group that left `n` bits of value `a`, and `p` padding bytes. -/
def tailState (d : Operands) (a : Acc) (n g p : Nat) : State :=
  { decState with
    phase := .tail, desc := latch .dec .b64 false d, work := { Working.atReset with acc := a, nbits := n, gpos := g, npad := p } }

/-- One state for each clause: a whole symbol left over (VD20), the padding missing (VD9) or short (VD13), bits left over in
strict mode (VD16) and in lenient mode (VD15), padding off and none seen (VD8). -/
theorem witness_DecodeTail :
    (tailState decOps 0 6 1 0).phase = .tail ∧ (tailState decOps 0 6 1 0).desc.op = .dec
    ∧ ¬ (tailState decOps 0 6 1 0).work.nbits < symbolWidth .b64
    ∧ required .b64 2 = some 2 ∧ 4 < symbolWidth .b64
    ∧ (tailState decOps 0 4 2 0).work.npad ≠ 2 ∧ (tailState decOps 0 4 2 1).work.npad ≠ 2
    ∧ ((tailState { decOps with strict := true } 1 4 2 2).work.npad = 2
      ∧ (tailState { decOps with strict := true } 1 4 2 2).desc.strict = true
      ∧ (tailState { decOps with strict := true } 1 4 2 2).work.acc ≠ 0)
    ∧ ((tailState decOps 1 4 2 2).work.npad = 2 ∧ (tailState decOps 1 4 2 2).desc.strict = false)
    ∧ ((tailState { decOps with usePadding := false } 0 4 2 0).work.npad = 0
      ∧ (tailState { decOps with usePadding := false } 0 4 2 0).desc.usePadding = false) := by decide
theorem witness_DecodeStepInvariant : Issuable decOps decState ∧ Complies decOps decState
    ∧ checkStatus (decSize decState.sizeW .b64 decOps.inLen) decOps = none ∧ 10 ≤ decOps.inLen
    ∧ ∀ j, j < 10 →
      stopsAt ((inputBytes decState decOps.inLen).map (classify (latch .dec .b64 false decOps))) j = false :=
  ⟨decState_ready.1, decState_ready.2, by decide, by decide, by decide +kernel⟩

/-- The operands of VE3: a line ending inside the padding. -/
def tripOps : Operands := lineOperands [.ll 3, .len 1, .cap 5]

/-- VE3 and VD32: the text is the input of the decode, whose skip set holds the line ending. -/
theorem witness_RoundTrip :
    (∀ c ∈ lineEnding tripOps, isSkip (lineOperands [.len 5, .cap 4]) c = true)
    ∧ (∀ c ∈ lineEnding (lineOperands [.len 5, .cap 4]), c ≠ 0x3D ∧ ∀ v, fwd .b64 false v ≠ some c)
    ∧ Issuable tripOps (withInput [0x66] 5) ∧ Complies tripOps (withInput [0x66] 5)
    ∧ Issuable (lineOperands [.len 5, .cap 4]) (withInput [0x5A, 0x67, 0x3D, 0x0A, 0x3D] 4)
    ∧ Complies (lineOperands [.len 5, .cap 4]) (withInput [0x5A, 0x67, 0x3D, 0x0A, 0x3D] 4)
    ∧ Memory.wf (withInput [0x66] 5).mem = true ∧ Memory.wf (withInput [0x5A, 0x67, 0x3D, 0x0A, 0x3D] 4).mem = true
    ∧ checkStatus (encSize 32 .b64 true false 1 3 1) tripOps = none
    ∧ checkStatus (decSize 32 .b64 5) (lineOperands [.len 5, .cap 4]) = none
    ∧ ∃ t, exec (.encB64 tripOps) (withInput [0x66] 5) = .next t ∧ (decide (t.count = 5)
      && (List.range 5).all fun j => (inputBytes (withInput [0x5A, 0x67, 0x3D, 0x0A, 0x3D] 4) 5)[j]? == outByte t j) = true := by
  refine ⟨by decide, fun c hc => ?_, ⟨.inl rfl, by decide⟩, complies_withInput (by decide) (by decide), ⟨.inl rfl, by decide⟩,
    complies_withInput (by decide) (by decide), by decide, by decide, by decide, by decide,
    next_of_endsIn (by decide +kernel)⟩
  have : c = 0x0A := by simpa [lineEnding, lineOperands, LineOption.apply, Operands.default] using hc
  subst this
  refine ⟨by decide, fun v hv => ?_⟩
  have hlt : v < 64 := by
    by_contra hc
    simp [fwd, show ¬ v < 26 by omega, show ¬ v < 52 by omega, show ¬ v < 62 by omega, show ¬ v = 62 by omega,
      show ¬ v = 63 by omega] at hv
  exact absurd hv ((by decide +kernel : ∀ w < 64, fwd .b64 false w ≠ some 0x0A) v hlt)
/-- A tick of BODY that ends a command: a symbol behind padding. -/
theorem witness_RaiseEffect : (bodyState 0 0 1).phase.inFlight = true
    ∧ ∃ t, tick (bodyState 0 0 1) = .ok t ∧ t.phase = .done ∧ t.status ≠ .success := ⟨rfl, _, rfl, rfl, by decide⟩
theorem witness_AlphabetsOneToOne : fwd .b64 true 63 = some 0x5F ∧ fwd .b16 false 0 = some 0x30 := by decide
/-- A byte of the alphabet, a byte of the other letter case in base16, a byte of no alphabet, the first byte from 0x80 on. -/
theorem witness_ReverseTables : fwd .b64 false 62 = some 0x2B ∧ fwd .b16 true 15 = some 0x66
    ∧ (∀ v, v < 16 → fwd .b16 false v ≠ some 0x47 ∧ fwd .b16 true v ≠ some 0x47) ∧ 0x80 ≤ (0x80 : Byte).toNat := by decide
theorem witness_RequiredTable : 7 < charsPerGroup .b32 ∧ 3 < charsPerGroup .b64 ∧ 1 < charsPerGroup .b16 := by decide
/-- A byte for each clause: whitespace, the line ending, `=`, a symbol, a bad byte. -/
theorem witness_ByteClasses : (0x0A : Byte) ∈ [(0x09 : Byte), 0x0A, 0x0B, 0x0C, 0x0D, 0x20]
    ∧ (0x3B : Byte) = (lineOperands [.leOne 0x3B]).le0 ∧ isSkip decOps 0x3D = false
    ∧ isSkip decOps 0x41 = false ∧ rev .b64 false 0x41 ≠ 0xFF
    ∧ isSkip decOps 0x21 = false ∧ rev .b64 false 0x21 = 0xFF := by decide
/-- A command that ends with Success and one that does not. -/
theorem witness_CompletedCommandResult : (∃ t, exec (.decB64 decOps) decState = .next t ∧ succeeded t = true)
    ∧ ∃ t, exec (.decB16 decOps) decState = .next t ∧ (!succeeded t) = true :=
  ⟨next_of_endsIn (by decide +kernel), next_of_endsIn (by decide +kernel)⟩
theorem witness_StatusesByFamily : (∃ t, exec (.encSizeB64 true encOps) encState = .next t ∧ succeeded t = true)
    ∧ (∃ t, exec (.encB64 { encOps with outCap := 1 }) encState = .next t ∧ decide (t.status = .bufferTooSmall) = true)
    ∧ ∃ t, exec (.decB32 decOps) decState = .next t ∧ decide (t.status = .invalidCharacter) = true :=
  ⟨next_of_endsIn (by decide +kernel), next_of_endsIn (by decide +kernel), next_of_endsIn (by decide +kernel)⟩
/-- Each of the three statuses of CHECK. -/
theorem witness_CheckStatusWritesNothing :
    (∃ t, exec (.encB32 { encOps with inPresent := false }) encState = .next t
      ∧ decide (t.status = .nullOrMissingArgument) = true)
    ∧ (∃ t, exec (.decB64 { decOps with outCap := 7 }) decState = .next t ∧ decide (t.status = .bufferTooSmall) = true)
    ∧ ∃ t, exec (.decSizeB64 false (lineOperands [.len 715827883])) decState = .next t
      ∧ decide (t.status = .inputTooLarge) = true :=
  ⟨next_of_endsIn (by decide +kernel), next_of_endsIn (by decide +kernel), next_of_endsIn (by decide +kernel)⟩
/-- The boundary: the buffer is exactly the size the size command reports. -/
theorem witness_QueriedSizeSuffices :
    (∃ t, exec (Instr.ofSelector .encSize .b64 false encOps) encState = .next t
      ∧ (succeeded t && decide (t.count = 16)) = true)
    ∧ (∃ t, exec (Instr.ofSelector .enc .b64 true { encOps with outCap := 16 }) encState = .next t ∧ succeeded t = true)
    ∧ (∃ t, exec (Instr.ofSelector .decSize .b64 false decOps) decState = .next t
      ∧ (succeeded t && decide (t.count = 8)) = true)
    ∧ ∃ t, exec (Instr.ofSelector .dec .b64 false decOps) decState = .next t ∧ succeeded t = true :=
  ⟨next_of_endsIn (by decide +kernel), next_of_endsIn (by decide +kernel), next_of_endsIn (by decide +kernel),
    next_of_endsIn (by decide +kernel)⟩
/-- Two states of different pasts with the same input. -/
theorem witness_NoHiddenState : encState ≠ { encState with count := 9, phase := .done, status := .invalidPadding }
    ∧ Issuable encOps encState ∧ Issuable encOps { encState with count := 9, phase := .done, status := .invalidPadding }
    ∧ LaunchComplies (.encB32 encOps) encState
    ∧ LaunchComplies (.encB32 encOps) { encState with count := 9, phase := .done, status := .invalidPadding } :=
  ⟨by decide, encState_ready.1, ⟨.inr rfl, by decide⟩, fun _ => encState_ready.2,
    fun _ => ⟨encState_ready.2.input, encState_ready.2.output, encState_ready.2.apart⟩⟩
theorem witness_IssueLatches : (∃ t, tick (issue .enc .b64 false encOps encState) = .ok t)
    ∧ ¬ ((issue .enc .b64 false encOps encState).phase = .idle ∨ (issue .enc .b64 false encOps encState).phase = .done) :=
  ⟨⟨_, rfl⟩, by decide⟩
/-- A tick that writes a byte, and an address behind the buffer. -/
theorem witness_TickFrame : (∃ t u, runTicks 1 (issue .enc .b16 false encOps encState) = .ok t ∧ tick t = .ok u)
    ∧ ¬ InOutput encState encOps.outCap 47 := by
  refine ⟨⟨_, _, rfl, rfl⟩, ?_⟩
  rintro ⟨r, hr, h1, h2⟩
  cases hr
  exact absurd h2 (by decide)
/-- CHECK raises, CHECK passes, a byte ends the scan (base32: the lower-case letter at index 1), no byte does. -/
theorem witness_StepCounts : Issuable decOps decState ∧ Complies decOps decState
    ∧ checkStatus (encSize 32 .b64 true true 1 4 7) { encOps with outCap := 15 } ≠ none
    ∧ checkStatus (encSize 32 .b64 true true 1 4 7) encOps = none
    ∧ checkStatus (decSize 32 .b64 10) { decOps with outCap := 7 } ≠ none ∧ checkStatus (decSize 32 .b64 10) decOps = none
    ∧ firstStop ((inputBytes decState 10).map (classify (latch .dec .b32 false decOps))) = some 1
    ∧ firstStop ((inputBytes decState 10).map (classify (latch .dec .b64 false decOps))) = none :=
  ⟨decState_ready.1, decState_ready.2, by decide, by decide, by decide, by decide, by decide +kernel, by decide +kernel⟩
theorem witness_RefinementAgrees : Issuable (Instr.encB64 encOps).operands encState ∧ LaunchComplies (.encB64 encOps) encState
    ∧ ∃ t, runTicks 1 (issue .enc .b64 false encOps encState) = .ok t ∧ t.phase.inFlight = true :=
  ⟨encState_ready.1, fun _ => encState_ready.2, ⟨_, rfl, rfl⟩⟩

/-- A launch of VS1's command, with its buffers. -/
def launch : Launch := ⟨⟨0x000A0D2A, 76, 1, 4⟩, some ⟨0, 1⟩, some ⟨1, 4⟩⟩

/-- A host about to make the moves `h`, the letter `f` in storage. -/
def hosted (h : List HostMove) : State := { State.reset with mem := [(0, 0x66)], host := h }

theorem inv_hosted (h : List HostMove) : Inv (hosted h) := by
  refine ⟨?_, ?_, rfl, rfl, ?_, ⟨?_, ?_, ?_, ?_, ?_, ?_, ?_⟩, ?_, fun _ => rfl, ?_⟩ <;>
    simp [hosted, State.reset, Config.sizeW, Memory.wf, Memory.risingFrom, Config.unlistedByte, Latched.atReset,
      Operands.wellFormed, Working.atReset]

/-- A host whose size command is done with a count and a status, about to issue the launch with that size. -/
def counted (n : Nat) (st : Status) : State :=
  { hosted [.issueWithCount launch] with phase := .done, done := true, count := n, status := st }

/-- The issue of a launch, and of one that takes the largest size as its capacity. -/
theorem witness_StepRunsDecoded : ((hosted [.issue launch]).phase = .idle ∨ (hosted [.issue launch]).phase = .done)
    ∧ (hosted [.issue launch]).host = [.issue launch]
    ∧ decode (hosted [.issue launch]).sizeW launch.desc = .ok (.encB64 (lineOperands [.len 1, .cap 4]))
    ∧ (counted 4294967295 .success).phase = .done ∧ (counted 4294967295 .success).host = [.issueWithCount launch]
    ∧ (counted 4294967295 .success).done = true ∧ (counted 4294967295 .success).status = .success
    ∧ decode 32 { launch.desc with outCap := 4294967295 } = .ok (.encB64 (lineOperands [.len 1, .cap 4294967295])) :=
  ⟨.inl rfl, rfl, by decide, rfl, rfl, rfl, rfl, by decide⟩
/-- Each move, the size query that failed and the one that is not done among them. -/
theorem witness_MovesWithoutCommand : (hosted []).phase = .idle ∧ (hosted []).host = []
    ∧ (hosted [.store 9 0xFF]).host = [.store 9 0xFF] ∧ (hosted [.reset]).host = [.reset]
    ∧ (counted 0 .inputTooLarge).host = [.issueWithCount launch] ∧ (counted 0 .inputTooLarge).phase = .done
    ∧ (counted 0 .inputTooLarge).done = true ∧ (counted 0 .inputTooLarge).status ≠ .success
    ∧ (hosted [.issueWithCount launch]).host = [.issueWithCount launch]
    ∧ (hosted [.issueWithCount launch]).done = false := by decide
/-- Each breach of the host's duties, the last shared byte among them, and launches that keep them. -/
theorem witness_HostDutiesEnforced : Issuable encOps encState ∧ Complies encOps encState
    ∧ exec (.encB64 encOps) { encState with inBuf := none } = .refused .missingBuffer
    ∧ exec (.encB64 { encOps with outCap := 41 }) encState = .refused .overstatedLength
    ∧ exec (.encB64 encOps) { encState with outBuf := some ⟨6, 40⟩ } = .refused .aliasedBuffers :=
  ⟨encState_ready.1, encState_ready.2, rfl, rfl, rfl⟩
/-- A size that exists and one that does not. -/
theorem witness_PseudoEncodeRuns : Issuable (lineOperands [.len 1]) (hosted (pseudoEncode .b64 false (lineOperands [.len 1])
      (some ⟨0, 1⟩) (some ⟨1, 0⟩))) ∧ (lineOperands [.len 1]).inLen ≤ 1
    ∧ encSize 32 .b64 true false 1 76 1 = some 4 ∧ (∀ x, ¬ (0 ≤ x ∧ x < 0 + 1 ∧ 1 ≤ x ∧ x < 1 + 4))
    ∧ Issuable (lineOperands [.len 536870912]) (hosted (pseudoEncode .b64 false (lineOperands [.len 536870912])
      (some ⟨0, 1⟩) (some ⟨1, 0⟩))) ∧ encSize 32 .b64 true false 1 76 536870912 = none :=
  ⟨⟨.inl rfl, by decide⟩, by decide, by decide, fun x => by omega, ⟨.inl rfl, by decide⟩, by decide⟩
/-- A size that exists and one that does not. -/
theorem witness_PseudoDecodeRuns : Issuable (lineOperands [.len 1]) (hosted (pseudoDecode .b16 false (lineOperands [.len 1])
      (some ⟨0, 1⟩) (some ⟨1, 0⟩))) ∧ (lineOperands [.len 1]).inLen ≤ 1
    ∧ decSize 32 .b16 1 = some 1 ∧ (∀ x, ¬ (0 ≤ x ∧ x < 0 + 1 ∧ 1 ≤ x ∧ x < 1 + 1))
    ∧ Issuable (lineOperands [.len 1073741824]) (hosted (pseudoDecode .b16 false (lineOperands [.len 1073741824])
      (some ⟨0, 1⟩) (some ⟨1, 0⟩))) ∧ decSize 32 .b16 1073741824 = none :=
  ⟨⟨.inl rfl, by decide⟩, by decide, by decide, fun x => by omega, ⟨.inl rfl, by decide⟩, by decide⟩
/-- A reset during VS1's command: its four bytes of OUT, addresses 1 to 4, are open, the byte behind them is not. -/
theorem witness_ResetDuringCommand : (hosted [.issueThenReset launch]).phase = .idle
    ∧ decode 32 launch.desc = .ok (.encB64 (lineOperands [.len 1, .cap 4]))
    ∧ LaunchComplies (.encB64 (lineOperands [.len 1, .cap 4]))
      { hosted [.issueThenReset launch] with host := [], inBuf := launch.inBuf, outBuf := launch.outBuf }
    ∧ (issuedOutput { hosted [] with
        inBuf := launch.inBuf, desc := latch .enc .b64 false (lineOperands [.len 1, .cap 4]) }).length = 4
    ∧ ¬ InOutput { hosted [] with outBuf := launch.outBuf } 4 5 := by
  refine ⟨rfl, by decide, fun _ => ⟨fun _ => ⟨_, rfl, by decide⟩, fun _ => ⟨_, rfl, by decide⟩,
    fun _ _ a b ha hb x ⟨_, h1, h2, _⟩ => ?_⟩, by decide +kernel, ?_⟩
  · cases ha
    cases hb
    have h1 : x < 0 + 1 := h1
    dsimp only at h2
    omega
  · rintro ⟨r, hr, h1, h2⟩
    cases hr
    exact absurd h2 (by decide)
/-- A state of the invariant whose step runs a command. -/
theorem witness_StepKeepsInv : Inv (hosted [.issue launch])
    ∧ ∃ t, step (hosted [.issue launch]) = .next t ∧ succeeded t = true :=
  ⟨inv_hosted _, next_of_endsIn (by decide +kernel)⟩
theorem witness_StepNeverFaults : Inv (hosted [.issue launch]) := inv_hosted _
theorem witness_MemoryCanonical : Memory.wf (Memory.write [(0, 0x66)] 3 0x41) = true ∧ Memory.wf [(0, 0x66), (3, 0x41)] = true
    ∧ Memory.write [(0, 0x66)] 3 0x41 = [(0, 0x66), (3, 0x41)] := by decide

end Sys2Proof.Tests
end

section
/-! SUPPORT. What no tick changes: the latched descriptor, the buffers, the width, the host's moves, the free-draw index, and
every byte of storage outside OUT (10_state.md R40, 20_memory.md R61, R65, R70). -/

namespace Sys2Proof.Machine

/-- A computation with a second part answers when both parts do. -/
theorem Except.bind_eq_ok {α β : Type} {x : Except Fault α} {f : α → Except Fault β} {b : β} :
    (x >>= f) = .ok b ↔ ∃ a, x = .ok a ∧ f a = .ok b := by
  cases x with
  | error e => exact ⟨nofun, nofun⟩
  | ok a => simp

/-- `t` is `s` but for its phase, its working registers, its result and the `out_cap` bytes of OUT. -/
structure OutFrame (s t : State) : Prop where
  desc : t.desc = s.desc
  inBuf : t.inBuf = s.inBuf
  outBuf : t.outBuf = s.outBuf
  sizeW : t.sizeW = s.sizeW
  host : t.host = s.host
  freeCtr : t.freeCtr = s.freeCtr
  /-- no byte outside OUT changes (20_memory.md R61, R65) -/
  mem : ∀ a, ¬ InOutput s s.desc.outCap a → Memory.read t.mem a = Memory.read s.mem a

theorem OutFrame.refl (s : State) : OutFrame s s := ⟨rfl, rfl, rfl, rfl, rfl, rfl, fun _ _ => rfl⟩

theorem OutFrame.trans {s t u : State} (h : OutFrame s t) (h' : OutFrame t u) : OutFrame s u where
  desc := h'.desc.trans h.desc
  inBuf := h'.inBuf.trans h.inBuf
  outBuf := h'.outBuf.trans h.outBuf
  sizeW := h'.sizeW.trans h.sizeW
  host := h'.host.trans h.host
  freeCtr := h'.freeCtr.trans h.freeCtr
  mem a ha := by
    have hsame : InOutput t t.desc.outCap a ↔ InOutput s s.desc.outCap a := by
      unfold InOutput
      rw [h.outBuf, h.desc]
    rw [h'.mem a (mt hsame.mp ha), h.mem a ha]

/-! The updates that write no byte. -/

theorem OutFrame.withPhase {s t : State} (h : OutFrame s t) (p : Phase) : OutFrame s (t.withPhase p) :=
  h.trans ⟨rfl, rfl, rfl, rfl, rfl, rfl, fun _ _ => rfl⟩

theorem OutFrame.withWork {s t : State} (h : OutFrame s t) (w : Working) : OutFrame s (t.withWork w) :=
  h.trans ⟨rfl, rfl, rfl, rfl, rfl, rfl, fun _ _ => rfl⟩

theorem OutFrame.raise {s t : State} (h : OutFrame s t) (st : Status) : OutFrame s (raise st t) :=
  h.trans ⟨rfl, rfl, rfl, rfl, rfl, rfl, fun _ _ => rfl⟩

theorem OutFrame.finish {s t : State} (h : OutFrame s t) (n : Nat) : OutFrame s (finish n t) :=
  h.trans ⟨rfl, rfl, rfl, rfl, rfl, rfl, fun _ _ => rfl⟩

/-! The operations that write. -/

theorem memWriteOut_outFrame {s t : State} {i : Nat} {v : Byte} (h : memWriteOut i v s = .ok t) : OutFrame s t := by
  obtain ⟨ro, hb, -, hi, rfl⟩ := memWriteOut_inv h
  refine ⟨rfl, rfl, rfl, rfl, rfl, rfl, fun a ha => Memory.read_write_ne _ _ ?_⟩
  rintro rfl
  exact ha ⟨ro, hb, by omega, by omega⟩

theorem putOut_outFrame {s t : State} {v : Byte} (h : putOut v s = .ok t) : OutFrame s t := by
  obtain ⟨u, hu, h⟩ := Except.bind_eq_ok.mp h
  cases h
  exact (memWriteOut_outFrame hu).withWork _

theorem putAll_outFrame {vs : List Byte} {s t : State} (h : putAll vs s = .ok t) : OutFrame s t := by
  induction vs generalizing s with
  | nil => cases h; exact .refl _
  | cons v vs ih =>
    obtain ⟨u, hu, h⟩ := Except.bind_eq_ok.mp h
    exact (putOut_outFrame hu).trans (ih h)

theorem emit_outFrame {s t : State} {c : Byte} (h : emit c s = .ok t) : OutFrame s t := by
  obtain ⟨u, hu, h⟩ := Except.bind_eq_ok.mp h
  refine (putOut_outFrame hu).trans ?_
  unfold wrapLine at h
  split_ifs at h
  · cases h; exact .refl _
  · obtain ⟨v, hv, h⟩ := Except.bind_eq_ok.mp h
    cases h
    exact (putAll_outFrame hv).withWork _
  · cases h; exact (OutFrame.refl _).withWork _

theorem emitSymbol_outFrame {s t : State} {v : Nat} (h : emitSymbol v s = .ok t) : OutFrame s t := by
  obtain ⟨c, -, h⟩ := Except.bind_eq_ok.mp h
  exact emit_outFrame h

theorem emitPads_outFrame {n : Nat} {s t : State} (h : emitPads n s = .ok t) : OutFrame s t := by
  induction n generalizing s with
  | zero => cases h; exact .refl _
  | succ n ih =>
    obtain ⟨u, hu, h⟩ := Except.bind_eq_ok.mp h
    exact (emit_outFrame hu).trans (ih h)

theorem drainLoop_outFrame {fuel : Nat} {s t : State} (h : drainLoop fuel s = .ok t) : OutFrame s t := by
  induction fuel generalizing s with
  | zero => cases h; exact .refl _
  | succ fuel ih =>
    rw [drainLoop] at h
    split_ifs at h
    · obtain ⟨u, hu, h⟩ := Except.bind_eq_ok.mp h
      exact ((emitSymbol_outFrame hu).withWork _).trans (ih h)
    · cases h; exact .refl _

theorem extract_outFrame {s t : State} (h : extract s = .ok t) : OutFrame s t := by
  unfold extract at h
  split_ifs at h
  · obtain ⟨u, hu, h⟩ := Except.bind_eq_ok.mp h
    cases h
    exact (putOut_outFrame hu).withWork _
  · cases h; exact .refl _

/-! The phases. -/

theorem sizeResult_outFrame (r : Option Nat) (s : State) : OutFrame s (sizeResult r s) := by
  cases r with
  | none => exact (OutFrame.refl s).raise _
  | some n => exact (OutFrame.refl s).finish n

theorem encCheck_outFrame (s : State) : OutFrame s (encCheck s) := by
  unfold encCheck
  split
  · exact (OutFrame.refl s).raise _
  · exact ((OutFrame.refl s).withWork _).withPhase _

theorem decCheck_outFrame (s : State) : OutFrame s (decCheck s) := by
  unfold decCheck
  split
  · exact (OutFrame.refl s).raise _
  · exact ((OutFrame.refl s).withWork _).withPhase _

theorem encBody_outFrame {s t : State} (h : encBody s = .ok t) : OutFrame s t := by
  unfold encBody at h
  split_ifs at h
  · cases h; exact (OutFrame.refl _).withPhase _
  · obtain ⟨b, -, h⟩ := Except.bind_eq_ok.mp h
    exact ((OutFrame.refl s).withWork _).trans (drainLoop_outFrame h)

theorem encTail_outFrame {s t : State} (h : encTail s = .ok t) : OutFrame s t := by
  unfold encTail at h
  split_ifs at h
  · obtain ⟨u, hu, h⟩ := Except.bind_eq_ok.mp h
    cases h
    exact ((emitSymbol_outFrame hu).withWork _).withPhase _
  · cases h; exact (OutFrame.refl _).withPhase _

theorem encPad_outFrame {s t : State} (h : encPad s = .ok t) : OutFrame s t := by
  obtain ⟨u, hu, h⟩ := Except.bind_eq_ok.mp h
  cases h
  exact (emitPads_outFrame hu).withPhase _

theorem encTerm_outFrame {s t : State} (h : encTerm s = .ok t) : OutFrame s t := by
  unfold encTerm at h
  split_ifs at h
  · obtain ⟨u, hu, h⟩ := Except.bind_eq_ok.mp h
    cases h
    exact (memWriteOut_outFrame hu).finish _
  · cases h; exact (OutFrame.refl _).finish _

theorem decByte_outFrame {c : ByteClass} {s t : State} (h : decByte c s = .ok t) : OutFrame s t := by
  cases c with
  | skip => cases h; exact .refl _
  | pad => cases h; exact (OutFrame.refl _).withWork _
  | bad => cases h; exact (OutFrame.refl _).raise _
  | sym v =>
    rw [decByte, symStep] at h
    split_ifs at h
    · cases h; exact (OutFrame.refl _).raise _
    · exact ((OutFrame.refl s).withWork _).trans (extract_outFrame h)

theorem decBody_outFrame {s t : State} (h : decBody s = .ok t) : OutFrame s t := by
  unfold decBody at h
  split_ifs at h
  · cases h; exact (OutFrame.refl _).withPhase _
  · obtain ⟨c, -, h⟩ := Except.bind_eq_ok.mp h
    exact ((OutFrame.refl s).withWork _).trans (decByte_outFrame h)

theorem decEnd_outFrame (s : State) : OutFrame s (decEnd s) := by
  unfold decEnd
  split
  · exact (OutFrame.refl s).raise _
  · exact ((OutFrame.refl s).withWork _).finish _

theorem decTail_outFrame {s t : State} (h : decTail s = .ok t) : OutFrame s t := by
  unfold decTail at h
  split_ifs at h
  · cases h; exact (OutFrame.refl _).raise _
  · split at h
    · cases h
    · split_ifs at h <;> cases h
      · exact (OutFrame.refl s).raise _
      · exact decEnd_outFrame s
  · cases h; exact decEnd_outFrame s

/-- What no tick changes, in any state. -/
theorem tick_outFrame {s t : State} (h : tick s = .ok t) : OutFrame s t := by
  unfold tick at h
  split at h
  · cases h; exact .refl _
  · cases h; exact .refl _
  · cases h; exact sizeResult_outFrame _ s
  · cases h; exact sizeResult_outFrame _ s
  · cases h; exact encCheck_outFrame s
  · cases h; exact decCheck_outFrame s
  · exact encBody_outFrame h
  · exact decBody_outFrame h
  · exact encTail_outFrame h
  · exact decTail_outFrame h
  · exact encPad_outFrame h
  · exact encTerm_outFrame h
  · cases h

theorem runTicks_outFrame {k : Nat} {s t : State} (h : runTicks k s = .ok t) : OutFrame s t := by
  induction k generalizing s with
  | zero => cases h; exact .refl _
  | succ k ih =>
    rw [runTicks] at h
    split_ifs at h
    · obtain ⟨u, hu, h⟩ := Except.bind_eq_ok.mp h
      exact (tick_outFrame hu).trans (ih h)
    · cases h; exact .refl _

end Sys2Proof.Machine
end

section
/-! The commands as a host sees them (00_scope.md R16): `exec` is the whole function, from issue and from every point between
issue and DONE. -/

namespace Sys2Proof.Machine

/-- The state the whole command of descriptor `d` ends in. -/
def wholeEnd (d : Latched) (s : State) : State :=
  match d.op with
  | .encSize => encSizeEnd d s
  | .decSize => decSizeEnd d s
  | .enc => encodeEnd d s
  | .dec => decodeEnd d s

/-- The duties the model tests of a launch are those the statements name (R286, R287, R289). -/
theorem launchDuty_eq_none {i : Instr} {s : State} : launchDuty i.op i.operands s = none ↔ LaunchComplies i s := by
  unfold LaunchComplies
  cases i.op <;> simp [launchDuty, launchRefusal_eq_none]

/-- An issued command whose launch breaks no duty is, `in_len + 6` ticks later and from then on, in the state of the whole
function (R284). -/
theorem runTicks_issue {op : Op} {d : Operands} {s : State} (hi : Issuable d s) (hl : launchDuty op d s = none)
    (base : Base) (alt : Bool) (k : Nat) :
    runTicks (d.inLen + 6 + k) (issue op base alt d s) = .ok (wholeEnd (latch op base alt d) s) := by
  cases op with
  | encSize =>
    rw [show d.inLen + 6 + k = 1 + (d.inLen + 5 + k) by omega]
    exact encSize_run rfl rfl _
  | decSize =>
    rw [show d.inLen + 6 + k = 1 + (d.inLen + 5 + k) by omega]
    exact decSize_run rfl rfl _
  | enc =>
    rw [show d.inLen + 6 + k = d.inLen + 5 + (1 + k) by omega]
    exact enc_run_end (s := issue .enc base alt d s) rfl rfl (leLen_le_of_wellFormed hi.fits) hl _
  | dec =>
    rw [show d.inLen + 6 + k = d.inLen + 3 + (3 + k) by omega]
    exact dec_run_end (s := issue .dec base alt d s) rfl rfl hl _

/-- A command that can be issued, on a launch that breaks no duty, runs. -/
theorem runCommand_eq_runToDone {op : Op} {d : Operands} {s : State} (hi : Issuable d s)
    (hl : launchDuty op d s = none) (base : Base) (alt : Bool) :
    runCommand op base alt d s = runToDone (issue op base alt d s) := by
  simp [runCommand, inFlight_eq_false.mpr hi.phase, reject_eq_none.mpr hi.fits, hl]

/-- A command runs from issue to the state of the whole function (R16). -/
theorem exec_eq_wholeEnd {i : Instr} {s : State} (hi : Issuable i.operands s) (hc : LaunchComplies i s) :
    exec i s = .next (wholeEnd (latch i.op i.base i.alt i.operands) s) := by
  have hl := launchDuty_eq_none.mpr hc
  rw [exec_eq_runCommand, runCommand_eq_runToDone hi hl, runToDone]
  exact congrArg outcomeOf (runTicks_issue hi hl i.base i.alt 0)

/-- What is left of an issued command, from any point of it, ends in the state of the whole function: the ticks made and the
ticks left are one run, and that run is over by then. -/
theorem runToDone_eq_wholeEnd {op : Op} {base : Base} {alt : Bool} {d : Operands} {s t : State} {k : Nat}
    (hi : Issuable d s) (hl : launchDuty op d s = none) (hrun : runTicks k (issue op base alt d s) = .ok t) :
    runToDone t = .next (wholeEnd (latch op base alt d) s) := by
  have hbound : tickBound t = d.inLen + 6 := by rw [tickBound, (runTicks_outFrame hrun).desc]; rfl
  have hrest : runTicks (d.inLen + 6) t = .ok (wholeEnd (latch op base alt d) s) := by
    calc runTicks (d.inLen + 6) t
        = runTicks (k + (d.inLen + 6)) (issue op base alt d s) := by rw [runTicks_add k, hrun, Except.bind_of_ok]
      _ = .ok (wholeEnd (latch op base alt d) s) := by rw [Nat.add_comm, runTicks_issue hi hl]
  rw [runToDone, hbound, hrest, outcomeOf]

/-- Settles O10: the six ENC commands are the whole function `Encode`. -/
theorem encodeCompletes : Obligations.EncodeCompletes := by
  unfold Obligations.EncodeCompletes
  intro d s hi hc
  exact ⟨exec_eq_wholeEnd (i := .encB16 d) hi fun _ => hc, exec_eq_wholeEnd (i := .encB16L d) hi fun _ => hc,
    exec_eq_wholeEnd (i := .encB32 d) hi fun _ => hc, exec_eq_wholeEnd (i := .encB32Hex d) hi fun _ => hc,
    exec_eq_wholeEnd (i := .encB64 d) hi fun _ => hc, exec_eq_wholeEnd (i := .encB64Url d) hi fun _ => hc⟩

/-- Settles O23: the six DEC commands are the whole function `Decode`. -/
theorem decodeCompletes : Obligations.DecodeCompletes := by
  unfold Obligations.DecodeCompletes
  intro d s hi hc
  exact ⟨exec_eq_wholeEnd (i := .decB16 d) hi fun _ => hc, exec_eq_wholeEnd (i := .decB16L d) hi fun _ => hc,
    exec_eq_wholeEnd (i := .decB32 d) hi fun _ => hc, exec_eq_wholeEnd (i := .decB32Hex d) hi fun _ => hc,
    exec_eq_wholeEnd (i := .decB64 d) hi fun _ => hc, exec_eq_wholeEnd (i := .decB64Url d) hi fun _ => hc⟩

/-- Settles O48: a step of a command in flight makes the ticks that are left, which end where the whole command does. -/
theorem refinementAgrees : Obligations.RefinementAgrees := by
  unfold Obligations.RefinementAgrees
  intro i s t k hi hc hrun hflight
  rw [step, if_pos hflight, runToDone_eq_wholeEnd hi (launchDuty_eq_none.mpr hc) hrun, exec_eq_wholeEnd hi hc]

end Sys2Proof.Machine
end

section
/-! The decoder and the opcode table, each said once as an equivalence (30_encoding.md R91, R96, R99). -/

namespace Sys2Proof

/-! Fields and codes. -/

theorem bitField_lt (w : BitVec 32) (lo n : Nat) : bitField w lo n < 2 ^ n := Nat.mod_lt _ (Nat.two_pow_pos n)

theorem bitOf_flagBit (w : BitVec 32) (k : Nat) : bitOf (flagBit w k) = bitField w k 1 := by
  have hbit : bitField w k 1 = 0 ∨ bitField w k 1 = 1 := by have := bitField_lt w k 1; omega
  rcases hbit with h | h <;> simp [flagBit, bitOf, h]

theorem Op.code_ofCode {n : Nat} (h : n < 4) : (Op.ofCode n).code = n := by
  interval_cases n <;> rfl

theorem Base.ofCode_eq_some {n : Nat} {b : Base} : Base.ofCode n = some b ↔ n = b.code := by
  constructor
  · unfold Base.ofCode
    split_ifs with h0 h1 h2 <;> rintro ⟨⟩ <;> assumption
  · rintro rfl
    exact Base.ofCode_code b

theorem Base.exists_code_of_ne {n : Nat} (h : n < 4) (h3 : n ≠ 3) : ∃ b : Base, n = b.code := by
  obtain rfl | rfl | rfl : n = 0 ∨ n = 1 ∨ n = 2 := by omega
  · exact ⟨.b16, rfl⟩
  · exact ⟨.b32, rfl⟩
  · exact ⟨.b64, rfl⟩

theorem Op.eq_of_code_eq {o o' : Op} (h : o.code = o'.code) : o = o' := by
  rw [← Op.ofCode_code o, h, Op.ofCode_code]

theorem Base.eq_of_code_eq {b b' : Base} (h : b.code = b'.code) : b = b' :=
  Option.some.inj (by rw [← Base.ofCode_code b, h, Base.ofCode_code])

theorem eq_of_bitOf_eq {b b' : Bool} (h : bitOf b = bitOf b') : b = b' := by
  rw [← bitOf_beq b, h, bitOf_beq]

/-! The decoder. -/

/-- Operands that fit their ports, with a legal `le_len`, are those of a command (R90, R99). -/
theorem Descriptor.operands_wellFormed {sizeW : Nat} {r : Descriptor} (hle : bitField r.cmd 8 2 ≠ 3)
    (hline : r.lineLen < 2 ^ sizeW) (hin : r.inLen < 2 ^ sizeW) (hout : r.outCap < 2 ^ sizeW) :
    r.operands.wellFormed sizeW = true := by
  have := bitField_lt r.cmd 8 2
  have hle2 : bitField r.cmd 8 2 ≤ 2 := by omega
  simp [Operands.wellFormed, Descriptor.operands, hle2, hline, hin, hout]

/-- What the decoder accepts, and as which command (R96, R99). -/
theorem decode_eq_ok {sizeW : Nat} {r : Descriptor} {i : Instr} : decode sizeW r = .ok i ↔
    bitField r.cmd 12 4 = 0 ∧ r.operands.wellFormed sizeW = true ∧ ∃ base : Base, bitField r.cmd 2 2 = base.code
      ∧ i = Instr.ofSelector (Op.ofCode (bitField r.cmd 0 2)) base (flagBit r.cmd 4) r.operands := by
  constructor
  · intro h
    unfold decode at h
    split_ifs at h with hz
    split at h
    · cases h
    · next base hb =>
      split at h
      · cases h
      · next hr =>
        cases h
        exact ⟨not_not.mp hz, Machine.reject_eq_none.mp hr, base, Base.ofCode_eq_some.mp hb, rfl⟩
  · rintro ⟨hz, hw, base, hb, rfl⟩
    simp [decode, hz, Base.ofCode_eq_some.mpr hb, Machine.reject_eq_none.mpr hw]

/-- A reserved descriptor is refused as one, even where an operand is too wide besides (R99). -/
theorem decode_reserved (sizeW : Nat) {r : Descriptor}
    (h : bitField r.cmd 2 2 = 3 ∨ bitField r.cmd 8 2 = 3 ∨ bitField r.cmd 12 4 ≠ 0) :
    ∃ e, decode sizeW r = .error e ∧ e ≠ .operandTooWide := by
  unfold decode
  by_cases hz : bitField r.cmd 12 4 = 0
  · rw [if_neg (not_not.mpr hz)]
    cases hb : Base.ofCode (bitField r.cmd 2 2) with
    | none => exact ⟨.reservedBase, rfl, nofun⟩
    | some base =>
      have hbase : bitField r.cmd 2 2 ≠ 3 := by
        have := Base.ofCode_eq_some.mp hb
        have := base.code_le
        omega
      have hle : r.operands.leLen = 3 := (h.resolve_left hbase).resolve_right (not_not.mpr hz)
      exact ⟨.reservedLeLen, by simp [Operands.reject, hle], nofun⟩
  · exact ⟨.reservedBits, if_pos hz, nofun⟩

/-! The opcode table. -/

theorem mem_opcodeTable {row : OpcodeRow} : row ∈ opcodeTable ↔ ∃ i : Instr, i.row = row := by
  constructor
  · intro h
    obtain ⟨i, -, hi⟩ := List.mem_map.mp h
    exact ⟨i, hi⟩
  · rintro ⟨i, rfl⟩
    cases i <;> simp [opcodeTable, Instr.row]

/-- The operation is ENC or DEC, for which `alt` is a selector (R96, R100). -/
def Op.selectsAlt : Op → Bool
  | .encSize => false
  | .decSize => false
  | .enc => true
  | .dec => true

/-- The mask and the pattern of a command's row: `alt` stands in them for ENC and DEC only (R96). -/
theorem row_mask_pattern (i : Instr) : i.row.mask = (if i.op.selectsAlt then 0x0000F01F else 0x0000F00F)
    ∧ i.row.pattern.toNat = i.op.code + 4 * i.base.code + if i.op.selectsAlt then 16 * bitOf i.alt else 0 := by
  cases i <;> exact ⟨rfl, rfl⟩

/-- A word matches the row of a command when its selecting fields are the command's and bits 15:12 are zero (R96). -/
theorem row_matches_iff {w : BitVec 32} {i : Instr} : w &&& i.row.mask = i.row.pattern ↔
    bitField w 0 2 = i.op.code ∧ bitField w 2 2 = i.base.code
      ∧ (i.op.selectsAlt = true → bitField w 4 1 = bitOf i.alt) ∧ bitField w 12 4 = 0 := by
  have hop := i.op.code_le
  have hbase := i.base.code_le
  have halt := bitOf_le i.alt
  obtain ⟨hmask, hpattern⟩ := row_mask_pattern i
  rw [← BitVec.toNat_inj, hmask, hpattern]
  simp only [bitField]
  cases i.op.selectsAlt with
  | true =>
    simp only [if_true, and_maskCommand, forall_const]
    omega
  | false =>
    simp only [Bool.false_eq_true, if_false, and_maskSize, false_implies, true_and]
    omega

/-- A command is the one its selectors and operands name (R96). -/
theorem ofSelector_self (i : Instr) : Instr.ofSelector i.op i.base i.alt i.operands = i := by
  cases i <;> rfl

/-- The selectors fix the row of the command they select, `alt` one of them for ENC and DEC only (R96). -/
theorem row_ofSelector {op : Op} {alt alt' : Bool} (h : op.selectsAlt = true → alt = alt') (base : Base)
    (d d' : Operands) : (Instr.ofSelector op base alt d).row = (Instr.ofSelector op base alt' d').row := by
  cases op with
  | encSize => cases base <;> rfl
  | decSize => cases base <;> rfl
  | enc => obtain rfl := h rfl; cases base <;> cases alt <;> rfl
  | dec => obtain rfl := h rfl; cases base <;> cases alt <;> rfl

theorem row_eq_of_selectors {i j : Instr} (hop : i.op = j.op) (hbase : i.base = j.base)
    (halt : i.op.selectsAlt = true → i.alt = j.alt) : i.row = j.row := by
  rw [← ofSelector_self i, ← ofSelector_self j, ← hop, ← hbase]
  exact row_ofSelector halt ..

/-- A word matches no two rows (R96). -/
theorem row_eq_of_matches {w : BitVec 32} {i j : Instr} (hi : w &&& i.row.mask = i.row.pattern)
    (hj : w &&& j.row.mask = j.row.pattern) : i.row = j.row := by
  obtain ⟨hop, hbase, halt, -⟩ := row_matches_iff.mp hi
  obtain ⟨hop', hbase', halt', -⟩ := row_matches_iff.mp hj
  have hopEq : i.op = j.op := Op.eq_of_code_eq (hop.symm.trans hop')
  exact row_eq_of_selectors hopEq (Base.eq_of_code_eq (hbase.symm.trans hbase'))
    fun h => eq_of_bitOf_eq ((halt h).symm.trans (halt' (hopEq ▸ h)))

/-- The selecting fields of a descriptor the decoder accepts are those of its command (R96). -/
theorem decode_selectors {sizeW : Nat} {r : Descriptor} {i : Instr} (h : decode sizeW r = .ok i) :
    bitField r.cmd 0 2 = i.op.code ∧ bitField r.cmd 2 2 = i.base.code ∧ bitField r.cmd 4 1 = bitOf i.alt := by
  obtain ⟨-, -, base, hb, rfl⟩ := decode_eq_ok.mp h
  obtain ⟨hop, hbase, halt, -⟩ :=
    Machine.ofSelector_fields (Op.ofCode (bitField r.cmd 0 2)) base (flagBit r.cmd 4) r.operands
  rw [hop, hbase, halt, bitOf_flagBit, Op.code_ofCode (bitField_lt r.cmd 0 2)]
  exact ⟨rfl, hb, rfl⟩

/-- The command word of an accepted descriptor matches its command's row (R96). -/
theorem row_matches_of_decode {sizeW : Nat} {r : Descriptor} {i : Instr} (h : decode sizeW r = .ok i) :
    r.cmd &&& i.row.mask = i.row.pattern := by
  obtain ⟨hop, hbase, halt⟩ := decode_selectors h
  obtain ⟨hz, -⟩ := decode_eq_ok.mp h
  exact row_matches_iff.mpr ⟨hop, hbase, fun _ => halt, hz⟩

/-- A descriptor that is not reserved, its operands within their ports, is a command (R90, R99). -/
theorem exists_decode_eq_ok {sizeW : Nat} {r : Descriptor} (hbase : bitField r.cmd 2 2 ≠ 3)
    (hle : bitField r.cmd 8 2 ≠ 3) (hz : bitField r.cmd 12 4 = 0) (hline : r.lineLen < 2 ^ sizeW)
    (hin : r.inLen < 2 ^ sizeW) (hout : r.outCap < 2 ^ sizeW) : ∃ i, decode sizeW r = .ok i := by
  obtain ⟨base, hb⟩ := Base.exists_code_of_ne (bitField_lt r.cmd 2 2) hbase
  exact ⟨_, decode_eq_ok.mpr ⟨hz, r.operands_wellFormed hle hline hin hout, base, hb, rfl⟩⟩

/-- Settles O4: a match fixes the selecting fields, and the selecting fields fix the row. -/
theorem tableSelectsCommand : Obligations.TableSelectsCommand := by
  unfold Obligations.TableSelectsCommand
  refine ⟨fun sizeW r row hrow hmatch hle hline hin hout => ?_, fun sizeW r i h => ?_,
    fun w row row' hrow hrow' hmatch hmatch' => ?_⟩
  · obtain ⟨j, rfl⟩ := mem_opcodeTable.mp hrow
    obtain ⟨-, hbase, -, hz⟩ := row_matches_iff.mp hmatch
    have hne : bitField r.cmd 2 2 ≠ 3 := by have := j.base.code_le; omega
    obtain ⟨i, hi⟩ := exists_decode_eq_ok hne hle hz hline hin hout
    exact ⟨i, hi, row_eq_of_matches (row_matches_of_decode hi) hmatch⟩
  · exact ⟨mem_opcodeTable.mpr ⟨i, rfl⟩, row_matches_of_decode h, decode_selectors h⟩
  · obtain ⟨i, rfl⟩ := mem_opcodeTable.mp hrow
    obtain ⟨j, rfl⟩ := mem_opcodeTable.mp hrow'
    exact row_eq_of_matches hmatch hmatch'

end Sys2Proof
end

section
/-! A reserved descriptor at the port (30_encoding.md R99), and what the host's moves that carry a launch ask of the engine. -/

namespace Sys2Proof.Machine

theorem hostRequest_issue {s : State} {l : Launch} {rest : List HostMove} (h : s.host = .issue l :: rest) :
    hostRequest s = present l (s.withHost rest) := by
  simp only [hostRequest, h]

/-- The second half of a pseudo-command, after Success, issues with the count just read as its capacity (R102). -/
theorem hostRequest_issueWithCount {s : State} {l : Launch} {rest : List HostMove}
    (h : s.host = .issueWithCount l :: rest) (hdone : s.done = true) (hst : s.status = .success) :
    hostRequest s = present (l.withCapacity s.count) (s.withHost rest) := by
  simp only [hostRequest, h, presentWithCount, readResult, hdone, if_true, hst]

/-- A launch that the port settles is settled so when the host means to reset the engine after it. -/
theorem hostRequest_issueThenReset {s : State} {l : Launch} {rest : List HostMove} {o : Host.Outcome State Fault Refusal}
    (h : s.host = .issueThenReset l :: rest) (ho : present l (s.withHost rest) = .settled o) :
    hostRequest s = .settled o := by
  simp only [hostRequest, h, ho]

/-- A move that asks for no command is the whole step. -/
theorem step_eq_of_settled {s : State} {o : Host.Outcome State Fault Refusal} (hp : s.phase = .idle ∨ s.phase = .done)
    (ho : hostRequest s = .settled o) : step s = o := by
  rw [step, if_neg (by simp [inFlight_eq_false.mpr hp]), ho]

/-- The port refuses a reserved descriptor (R99). -/
theorem present_reserved {l : Launch} (s : State)
    (h : bitField l.desc.cmd 2 2 = 3 ∨ bitField l.desc.cmd 8 2 = 3 ∨ bitField l.desc.cmd 12 4 ≠ 0) :
    ∃ e, present l s = .settled (.refused (.reservedDescriptor e)) ∧ e ≠ .operandTooWide := by
  obtain ⟨e, he, hne⟩ := decode_reserved s.sizeW h
  exact ⟨e, by rw [present, he], hne⟩

/-- Settles O3: the decoder refuses a reserved command word, and each issuing move presents its launch's word as it is. -/
theorem reservedDescriptorRefused : Obligations.ReservedDescriptorRefused := by
  unfold Obligations.ReservedDescriptorRefused
  refine ⟨fun s l rest hp hhost hres => ?_, fun sizeW r => exists_decode_eq_ok⟩
  obtain ⟨e, hpresent, hne⟩ := present_reserved (s.withHost rest) hres
  rcases hhost with hh | hh | ⟨hh, hdone, hst⟩
  · exact ⟨e, step_eq_of_settled hp ((hostRequest_issue hh).trans hpresent), hne⟩
  · exact ⟨e, step_eq_of_settled hp (hostRequest_issueThenReset hh hpresent), hne⟩
  · obtain ⟨e', hpresent', hne'⟩ := present_reserved (l := l.withCapacity s.count) (s.withHost rest) hres
    exact ⟨e', step_eq_of_settled hp ((hostRequest_issueWithCount hh hdone hst).trans hpresent'), hne'⟩

end Sys2Proof.Machine
end

section
/-! The classes of a decode input byte (30_encoding.md R113, R114). -/

namespace Sys2Proof.Machine

theorem isWhitespace_iff {c : Byte} :
    isWhitespace c = true ↔ c ∈ [(0x09 : Byte), 0x0A, 0x0B, 0x0C, 0x0D, 0x20] := by
  simp [isWhitespace, or_assoc]

/-- The skip set: whitespace and the bytes of the line ending (R113). -/
theorem isSkip_iff {d : Operands} {c : Byte} : isSkip d c = true ↔
    c ∈ [(0x09 : Byte), 0x0A, 0x0B, 0x0C, 0x0D, 0x20] ∨ (1 ≤ d.leLen ∧ c = d.le0) ∨ (d.leLen = 2 ∧ c = d.le1) := by
  rw [← isWhitespace_iff]
  simp [isSkip, or_assoc]

/-- Settles O38: the tests of `classify` in their order (R114), the first by the skip set. -/
theorem byteClasses : Obligations.ByteClasses := by
  unfold Obligations.ByteClasses
  intro d c skipped
  have hskip : isSkip d.toOperands c = true ↔ skipped := isSkip_iff
  refine ⟨fun h => ?_, fun h hpad => ?_, fun h hpad hrev => ?_, fun h hpad hrev => ?_⟩
  · rw [classify, if_pos (hskip.mpr h)]
  · rw [classify, if_neg (mt hskip.mp h), if_pos (show c = Config.padChar from hpad)]
  · rw [classify, if_neg (mt hskip.mp h), if_neg (show c ≠ Config.padChar from hpad),
      if_pos (show rev d.base d.alt c ≠ Config.invalid from hrev)]
  · rw [classify, if_neg (mt hskip.mp h), if_neg (show c ≠ Config.padChar from hpad),
      if_neg (show ¬ rev d.base d.alt c ≠ Config.invalid from not_not.mpr hrev)]

end Sys2Proof.Machine
end

section
/-! Fields a command does not read (30_encoding.md R100): the result of a command is a function of the fields it reads. -/

namespace Sys2Proof.Machine

/-- The whole function of the command of descriptor `d` (40_size.md R143, 41_encode.md R159, 42_decode.md R199). -/
def commandResult (d : Latched) (s : State) : WholeResult :=
  match d.op with
  | .encSize => sizeWhole (d.encSize s.sizeW)
  | .decSize => sizeWhole (d.decSize s.sizeW)
  | .enc => wholeEncode s.sizeW d (inputBytes s d.inLen)
  | .dec => wholeDecode s.sizeW d (inputBytes s d.inLen)

/-- A whole command leaves the result of its whole function. -/
theorem wholeEnd_eq_commandEnd (d : Latched) (s : State) : ∃ w, wholeEnd d s = commandEnd d (commandResult d s) w s := by
  rw [wholeEnd, commandResult]
  cases d.op <;> exact ⟨_, rfl⟩

theorem runCommand_eq_wholeEnd {op : Op} {d : Operands} {s : State} (hi : Issuable d s) (hl : launchDuty op d s = none)
    (base : Base) (alt : Bool) : runCommand op base alt d s = .next (wholeEnd (latch op base alt d) s) :=
  (runCommand_eq_runToDone hi hl base alt).trans (runToDone_eq_wholeEnd hi hl (k := 0) rfl)

/-- Two commands whose whole functions agree are the same to the host. -/
theorem sameResult_runCommand {op op' : Op} {base base' : Base} {alt alt' : Bool} {d d' : Operands} {s : State}
    (hi : Issuable d s) (hi' : Issuable d' s) (hl : launchDuty op d s = none) (hl' : launchDuty op' d' s = none)
    (h : commandResult (latch op base alt d) s = commandResult (latch op' base' alt' d') s) :
    SameResult (runCommand op base alt d s) (runCommand op' base' alt' d' s) := by
  obtain ⟨w, hw⟩ := wholeEnd_eq_commandEnd (latch op base alt d) s
  obtain ⟨w', hw'⟩ := wholeEnd_eq_commandEnd (latch op' base' alt' d') s
  rw [runCommand_eq_wholeEnd hi hl, runCommand_eq_wholeEnd hi' hl', hw, hw', h]
  exact ⟨_, _, rfl, rfl, rfl, rfl, rfl⟩

/-- ENCSIZE reads five of its operands. -/
theorem encSize_sameResult (base : Base) (alt alt' : Bool) {d d' : Operands} {s : State} (hi : Issuable d s)
    (hi' : Issuable d' s) (hpad : d.usePadding = d'.usePadding) (hnul : d.nulTerm = d'.nulTerm)
    (hle : d.leLen = d'.leLen) (hline : d.lineLength = d'.lineLength) (hin : d.inLen = d'.inLen) :
    SameResult (runCommand .encSize base alt d s) (runCommand .encSize base alt' d' s) := by
  refine sameResult_runCommand hi hi' rfl rfl ?_
  simp only [commandResult, latch, Latched.encSize, hpad, hnul, hle, hline, hin]

/-- DECSIZE reads `in_len` alone of its operands. -/
theorem decSize_sameResult (base : Base) (alt alt' : Bool) {d d' : Operands} {s : State} (hi : Issuable d s)
    (hi' : Issuable d' s) (hin : d.inLen = d'.inLen) :
    SameResult (runCommand .decSize base alt d s) (runCommand .decSize base alt' d' s) := by
  refine sameResult_runCommand hi hi' rfl rfl ?_
  simp only [commandResult, latch, Latched.decSize, hin]

/-- `Encode` does not read `strict`. -/
theorem enc_sameResult_strict (base : Base) (alt b : Bool) {d : Operands} {s : State} (hi : Issuable d s)
    (hc : Complies d s) :
    SameResult (runCommand .enc base alt d s) (runCommand .enc base alt { d with strict := b } s) :=
  have hl : launchDuty .enc d s = none := launchRefusal_eq_none.mpr hc
  sameResult_runCommand hi ⟨hi.phase, hi.fits⟩ hl hl rfl

theorem wellFormed_with_lineLength {sizeW n : Nat} {d : Operands} (hd : d.wellFormed sizeW = true) (hn : n < 2 ^ sizeW)
    (b : Bool) : Operands.wellFormed sizeW { d with nulTerm := b, lineLength := n } = true := by
  simp only [Operands.wellFormed, Bool.and_eq_true, decide_eq_true_eq] at hd ⊢
  obtain ⟨⟨⟨hle, -⟩, hin⟩, hout⟩ := hd
  exact ⟨⟨⟨hle, hn⟩, hin⟩, hout⟩

/-- `Decode` reads neither `nul_term` nor `line_length`. -/
theorem dec_sameResult_nulTerm_lineLength (base : Base) (alt b : Bool) {n : Nat} {d : Operands} {s : State}
    (hi : Issuable d s) (hc : Complies d s) (hn : n < 2 ^ s.sizeW) :
    SameResult (runCommand .dec base alt d s) (runCommand .dec base alt { d with nulTerm := b, lineLength := n } s) :=
  have hl : launchDuty .dec d s = none := launchRefusal_eq_none.mpr hc
  sameResult_runCommand hi ⟨hi.phase, wellFormed_with_lineLength hi.fits hn b⟩ hl hl rfl

/-! Base16: two characters a byte, so no group is ever short. -/

theorem charCount_b16 (usePadding : Bool) (n : Nat) : charCount .b16 usePadding n = 2 * n := by
  cases usePadding <;> simp [charCount, symbolCount, roundUp, ceilDiv, symbolWidth, charsPerGroup] <;> omega

theorem encSize_b16 (sizeW : Nat) (p p' nulTerm : Bool) (leLen lineLength n : Nat) :
    encSize sizeW .b16 p nulTerm leLen lineLength n = encSize sizeW .b16 p' nulTerm leLen lineLength n := by
  simp only [encSize, charCount_b16]

theorem pads_b16 {d : Latched} (h : d.base = .b16) : d.pads = 0 := by
  simp [Latched.pads, h, padCount]

theorem encSizeB16_sameResult_usePadding (alt b : Bool) {d : Operands} {s : State} (hi : Issuable d s) :
    SameResult (runCommand .encSize .b16 alt d s) (runCommand .encSize .b16 alt { d with usePadding := b } s) := by
  refine sameResult_runCommand hi ⟨hi.phase, hi.fits⟩ rfl rfl ?_
  exact congrArg sizeWhole (encSize_b16 s.sizeW d.usePadding b d.nulTerm d.leLen d.lineLength d.inLen)

theorem encB16_sameResult_usePadding (alt b : Bool) {d : Operands} {s : State} (hi : Issuable d s) (hc : Complies d s) :
    SameResult (runCommand .enc .b16 alt d s) (runCommand .enc .b16 alt { d with usePadding := b } s) := by
  have hl : launchDuty .enc d s = none := launchRefusal_eq_none.mpr hc
  refine sameResult_runCommand hi ⟨hi.phase, hi.fits⟩ hl hl ?_
  have hsize : (latch .enc .b16 alt d).encSize s.sizeW = (latch .enc .b16 alt { d with usePadding := b }).encSize s.sizeW :=
    encSize_b16 s.sizeW d.usePadding b d.nulTerm d.leLen d.lineLength d.inLen
  have hchars : encChars (latch .enc .b16 alt d) = encChars (latch .enc .b16 alt { d with usePadding := b }) := by
    funext input
    rw [encChars, encChars, pads_b16 rfl, pads_b16 rfl]
    rfl
  simp only [commandResult, latch_op, wholeEncode, encText, hsize, hchars]
  rfl

/-- Settles O6: each family's whole function on the fields it reads; for base16 no padding is ever due. -/
theorem ignoredFieldsKeepResult : Obligations.IgnoredFieldsKeepResult := by
  unfold Obligations.IgnoredFieldsKeepResult
  refine ⟨fun alt alt' d d' s hi hi' hpad hnul hle hline hin => ?_, fun alt alt' d d' s hi hi' hin => ?_,
    fun d s b hi hc => ?_, fun d s b n hi hc hn => ?_, fun alt d s b hi => ?_⟩
  · have h (base : Base) := encSize_sameResult base alt alt' hi hi' hpad hnul hle hline hin
    exact ⟨h .b16, h .b32, h .b64⟩
  · have h (base : Base) := decSize_sameResult base alt alt' hi hi' hin
    exact ⟨h .b16, h .b32, h .b64⟩
  · have h (base : Base) (alt : Bool) := enc_sameResult_strict base alt b hi hc
    exact ⟨h .b16 false, h .b16 true, h .b32 false, h .b32 true, h .b64 false, h .b64 true⟩
  · have h (base : Base) (alt : Bool) := dec_sameResult_nulTerm_lineLength base alt b hi hc hn
    exact ⟨h .b16 false, h .b16 true, h .b32 false, h .b32 true, h .b64 false, h .b64 true⟩
  · exact ⟨encSizeB16_sameResult_usePadding alt b hi, fun hc =>
      ⟨encB16_sameResult_usePadding false b hi hc, encB16_sameResult_usePadding true b hi hc⟩⟩

end Sys2Proof.Machine
end

section
/-! The size commands (40_size.md R131 to R139, R143): the closed forms of `N`, the second test of `EncSize` that never fires,
and the whole function of a size command as the state the statements write out. -/

namespace Sys2Proof

/-- The four selecting bits of a command word are `{base, op}` (30_encoding.md R96). -/
theorem bitField_encode_select (i : Instr) (h : i.operands.leLen ≤ 2) :
    bitField (encode i).cmd 0 4 = i.op.code + 4 * i.base.code := by
  obtain ⟨hlow, -⟩ := encode_select i (Nat.le_trans h (by decide))
  simpa [bitField] using hlow

end Sys2Proof

namespace Sys2Proof.Machine

/-! The closed forms of `N` (R135, R136); base16's is `charCount_b16`. -/

theorem charCount_b32 (usePadding : Bool) (n : Nat) :
    charCount .b32 usePadding n = if usePadding then 8 * ceilDiv n 5 else ceilDiv (8 * n) 5 := by
  cases usePadding <;> simp [charCount, symbolCount, roundUp, ceilDiv, symbolWidth, charsPerGroup] <;> omega

theorem charCount_b64 (usePadding : Bool) (n : Nat) :
    charCount .b64 usePadding n = if usePadding then 4 * ceilDiv n 3 else ceilDiv (8 * n) 6 := by
  cases usePadding <;> simp [charCount, symbolCount, roundUp, ceilDiv, symbolWidth, charsPerGroup] <;> omega

/-! The second test of `EncSize` (R133). -/

theorem lineBreaks_le (lineLength chars : Nat) : lineBreaks lineLength chars ≤ chars := by
  unfold lineBreaks
  split
  · exact Nat.div_le_self ..
  · exact Nat.zero_le _

/-- Three bytes a character and a null marker: no more than the product the first test bounds, once `n` is at least 7, and 49
below that (R133). -/
theorem three_mul_charCount_le (base : Base) (usePadding : Bool) (n : Nat) :
    3 * charCount base usePadding n + 1 ≤ max (n * 8) 49 := by
  cases base with
  | b16 => rw [charCount_b16]; omega
  | b32 => rw [charCount_b32]; unfold ceilDiv; split <;> omega
  | b64 => rw [charCount_b64]; unfold ceilDiv; split <;> omega

/-- `T <= 3 * N + 1`: a line ending has at most two bytes, and there are no more of them than characters (R133). -/
theorem encSize_total_le {leLen : Nat} (hle : leLen ≤ 2) (nulTerm : Bool) (lineLength chars : Nat) :
    chars + lineBreaks lineLength chars * leLen + bitOf nulTerm ≤ 3 * chars + 1 := by
  have hbreaks : lineBreaks lineLength chars * leLen ≤ chars * 2 := Nat.mul_le_mul (lineBreaks_le ..) hle
  have hnul := bitOf_le nulTerm
  omega

theorem le_sizeMax {sizeW : Nat} (hw : 8 ≤ sizeW) : 255 ≤ sizeMax sizeW := by
  have hpow : 2 ^ 8 ≤ 2 ^ sizeW := Nat.pow_le_pow_right (by decide) hw
  unfold sizeMax
  omega

/-- At a width of at least 8 `EncSize` is too large exactly when its first test is (R131, R133). -/
theorem encSize_eq {sizeW leLen : Nat} (hw : 8 ≤ sizeW) (hle : leLen ≤ 2) (base : Base) (usePadding nulTerm : Bool)
    (lineLength n : Nat) : encSize sizeW base usePadding nulTerm leLen lineLength n =
      if sizeMax sizeW < n * 8 then none
      else some (charCount base usePadding n + lineBreaks lineLength (charCount base usePadding n) * leLen
        + bitOf nulTerm) := by
  have htotal := encSize_total_le hle nulTerm lineLength (charCount base usePadding n)
  have hchars := three_mul_charCount_le base usePadding n
  have hmax := le_sizeMax hw
  unfold encSize
  split_ifs with hfirst
  · rfl
  · exact if_neg (by omega)

/-! The commands. -/

theorem outWritten_nil (s : State) : outWritten s [] = s.mem := by
  unfold outWritten
  cases s.outBuf <;> rfl

/-- A command that ends with a computed size, and writes nothing, leaves what the statements call `sizeNext` (R143). -/
theorem commandEnd_sizeWhole (d : Latched) (r : Option Nat) (s : State) :
    commandEnd d (sizeWhole r) s.work s = sizeNext d r s := by
  cases r <;> simp [commandEnd, sizeWhole, sizeNext, outWritten_nil]

/-- ENCSIZE with `N` characters runs to its size (R143). -/
theorem exec_encSize {i : Instr} {s : State} {chars : Nat} (hop : i.op = .encSize) (hw : 8 ≤ s.sizeW)
    (hi : Issuable i.operands s) (hchars : charCount i.base i.operands.usePadding i.operands.inLen = chars) :
    exec i s = .next (sizeNext (latch .encSize i.base i.alt i.operands)
      (if sizeMax s.sizeW < i.operands.inLen * 8 then none
        else some (chars + lineBreaks i.operands.lineLength chars * i.operands.leLen + bitOf i.operands.nulTerm)) s) := by
  rw [exec_eq_wholeEnd hi (by simp [LaunchComplies, hop]), hop, wholeEnd, ← hchars,
    ← encSize_eq hw (leLen_le_of_wellFormed hi.fits)]
  exact congrArg Host.Outcome.next (commandEnd_sizeWhole ..)

/-- DECSIZE runs to its size (R143). -/
theorem exec_decSize {i : Instr} {s : State} (hop : i.op = .decSize) (hi : Issuable i.operands s) :
    exec i s = .next (sizeNext (latch .decSize i.base i.alt i.operands)
      (decSize s.sizeW i.base i.operands.inLen) s) := by
  rw [exec_eq_wholeEnd hi (by simp [LaunchComplies, hop]), hop]
  exact congrArg Host.Outcome.next (commandEnd_sizeWhole ..)

/-- Settles O7: the closed form of `N` for each base, in a total that the second test of `EncSize` never stops. -/
theorem encSizeCompletes : Obligations.EncSizeCompletes := by
  unfold Obligations.EncSizeCompletes
  intro alt d s hw hi
  have hle : d.leLen ≤ 2 := leLen_le_of_wellFormed hi.fits
  exact ⟨bitField_encode_select (.encSizeB16 alt d) hle, bitField_encode_select (.encSizeB32 alt d) hle,
    bitField_encode_select (.encSizeB64 alt d) hle,
    exec_encSize (i := .encSizeB16 alt d) rfl hw hi (charCount_b16 d.usePadding d.inLen),
    exec_encSize (i := .encSizeB32 alt d) rfl hw hi (charCount_b32 d.usePadding d.inLen),
    exec_encSize (i := .encSizeB64 alt d) rfl hw hi (charCount_b64 d.usePadding d.inLen)⟩

/-- Settles O8: `DecSize` at each symbol width, the fraction `sw / 8` in lowest terms. -/
theorem decSizeCompletes : Obligations.DecSizeCompletes := by
  unfold Obligations.DecSizeCompletes
  intro alt d s hi
  have hle : d.leLen ≤ 2 := leLen_le_of_wellFormed hi.fits
  have h16 : ceilDiv (d.inLen * 4) 8 = ceilDiv d.inLen 2 := by unfold ceilDiv; omega
  have h32 : ceilDiv (d.inLen * 5) 8 = ceilDiv (5 * d.inLen) 8 := by rw [Nat.mul_comm]
  have h64 : ceilDiv (d.inLen * 6) 8 = ceilDiv (3 * d.inLen) 4 := by unfold ceilDiv; omega
  rw [← h16, ← h32, ← h64]
  exact ⟨bitField_encode_select (.decSizeB16 alt d) hle, bitField_encode_select (.decSizeB32 alt d) hle,
    bitField_encode_select (.decSizeB64 alt d) hle,
    exec_decSize (i := .decSizeB16 alt d) rfl hi, exec_decSize (i := .decSizeB32 alt d) rfl hi,
    exec_decSize (i := .decSizeB64 alt d) rfl hi⟩

end Sys2Proof.Machine
end

section
/-! `Emit` and TERM (41_encode.md R153, R158). -/

namespace Sys2Proof.Machine

/-- What one emission writes: the character and, when it fills the line, the line ending behind it (R153). -/
theorem wrapFrom_singleton (L : Nat) (e : List Byte) (col : Nat) (c : Byte) :
    wrapFrom L e col [c] = c :: if L ≠ 0 ∧ col + 1 = L then e else [] := by
  by_cases hL : L = 0
  · simp [wrapFrom, hL]
  · by_cases hfull : col + 1 = L <;> simp [wrapFrom, hL, hfull]

/-- The column after one emission (R153). -/
theorem colAfter_singleton (L col : Nat) (c : Byte) :
    colAfter L col [c] = if L = 0 then col else if col + 1 = L then 0 else col + 1 := rfl

/-- One emission, with room for what it writes, leaves those bytes at the output cursor, which moves past them (R153). -/
theorem emit_eq_of_room {c : Byte} {s : State} {r : Region} {bs : List Byte} {col : Nat} (hb : s.outBuf = some r)
    (hp : s.desc.outPresent = true)
    (hbs : wrapFrom s.desc.lineLength (lineEnding s.desc.toOperands) s.work.col [c] = bs)
    (hcol : colAfter s.desc.lineLength s.work.col [c] = col) (hroom : s.work.outPos + bs.length ≤ s.desc.outCap) :
    emit c s = .ok { s with
      mem := Memory.writeList s.mem (r.base + s.work.outPos) bs
      work := { s.work with outPos := s.work.outPos + bs.length, col := col } } := by
  subst hbs hcol
  exact emit_ok hb hp c hroom

/-- An emission that fills its line ends it with the bytes `e` of the line ending (R153). -/
theorem emit_eq_of_full_line {c : Byte} {s : State} {r : Region} {e : List Byte} (hb : s.outBuf = some r)
    (hp : s.desc.outPresent = true) (hL : 0 < s.desc.lineLength) (hfull : s.work.col + 1 = s.desc.lineLength)
    (he : lineEnding s.desc.toOperands = e) (hroom : s.work.outPos + 1 + e.length ≤ s.desc.outCap) :
    emit c s = .ok { s with
      mem := Memory.writeList s.mem (r.base + s.work.outPos) (c :: e)
      work := { s.work with outPos := s.work.outPos + (e.length + 1), col := 0 } } := by
  refine emit_eq_of_room (bs := c :: e) hb hp ?_ ?_ (by rw [List.length_cons]; omega)
  · rw [wrapFrom_singleton, if_pos ⟨by omega, hfull⟩, he]
  · rw [colAfter_singleton, if_neg (by omega), if_pos hfull]

/-- Settles O14: no line to fill, a line not yet full, and a full line with an ending of 0, 1 or 2 bytes. -/
theorem emitEffect : Obligations.EmitEffect := by
  unfold Obligations.EmitEffect
  intro c s r hb hp hpos a m left
  refine ⟨fun hL => ?_, fun hL hcol => ?_, fun hL hfull hroom => ⟨fun hle => ?_, fun hle => ?_, fun hle => ?_⟩⟩
  · refine emit_eq_of_room (bs := [c]) hb hp ?_ ?_ hpos
    · rw [wrapFrom_singleton, if_neg (by omega)]
    · rw [colAfter_singleton, if_pos hL]
  · refine emit_eq_of_room (bs := [c]) hb hp ?_ ?_ hpos
    · rw [wrapFrom_singleton, if_neg (by omega)]
    · rw [colAfter_singleton, if_neg (by omega), if_neg hcol]
  · exact emit_eq_of_full_line (e := []) hb hp hL hfull (by rw [lineEnding, hle]; rfl) (by rwa [hle] at hroom)
  · exact emit_eq_of_full_line (e := [s.desc.le0]) hb hp hL hfull (by rw [lineEnding, hle]; rfl) (by rwa [hle] at hroom)
  · exact emit_eq_of_full_line (e := [s.desc.le0, s.desc.le1]) hb hp hL hfull (by rw [lineEnding, hle]; rfl)
      (by rwa [hle] at hroom)

/-- Settles O19: the marker, when asked for, is the one write. -/
theorem encodeTerm : Obligations.EncodeTerm := by
  unfold Obligations.EncodeTerm
  intro s r hph hop hb hp hroom
  rw [tick_term_enc hph hop, encTerm]
  cases hnul : s.desc.nulTerm with
  | false => rfl
  | true =>
    have hpos : s.work.outPos < s.desc.outCap := hroom.resolve_right (by simp [hnul])
    rw [if_pos rfl, memWriteOut_ok hb hp hpos]
    rfl

end Sys2Proof.Machine
end

section
/-! The symbols of an encode and the bytes they are cut from (20_memory.md R66, 41_encode.md R155, R160 to R165). -/

namespace Sys2Proof.Machine

/-! A symbol is cut from two neighbouring bytes, whatever group it stands in (R66). -/

theorem valueOf_take (w : Nat) (P : List Bool) : valueOf (P.take w) = valueOf P / 2 ^ (P.length - w) := by
  have hlt := valueOf_lt (P.drop w)
  rw [List.length_drop] at hlt
  conv_rhs => rw [← List.take_append_drop w P, valueOf_append, List.take_append_drop, List.length_drop,
    Nat.mul_comm, Nat.mul_add_div (Nat.two_pow_pos _), Nat.div_eq_of_lt hlt, Nat.add_zero]

theorem valueOf_drop (w : Nat) (P : List Bool) : valueOf (P.drop w) = valueOf P % 2 ^ (P.length - w) := by
  have hlt := valueOf_lt (P.drop w)
  rw [List.length_drop] at hlt
  conv_rhs => rw [← List.take_append_drop w P, valueOf_append, List.take_append_drop, List.length_drop,
    Nat.mul_add_mod_self_right, Nat.mod_eq_of_lt hlt]

theorem drop_bitString (w k : Nat) (vs : List Nat) : (bitString w vs).drop (w * k) = bitString w (vs.drop k) := by
  induction k generalizing vs with
  | zero => rfl
  | succ k ih =>
    cases vs with
    | nil => simp
    | cons v vs =>
      rw [bitString_cons, Nat.mul_succ, Nat.add_comm, ← List.drop_drop, List.drop_left' (length_bitsOf w v), ih,
        List.drop_succ_cons]

/-- Zero bits behind a bit string change no piece of it (R159: the last piece is padded with them). -/
theorem piece_append_zeros (w n j : Nat) (bits : List Bool) :
    piece w (bits ++ List.replicate n false) j = piece w bits j := by
  have hzeros (P : List Bool) (a : Nat) : (P ++ List.replicate a false).take w
      ++ List.replicate (w - ((P ++ List.replicate a false).take w).length) false
      = P.take w ++ List.replicate (w - (P.take w).length) false := by
    rw [List.take_append, List.take_replicate, List.append_assoc, List.replicate_append_replicate]
    congr 2
    simp only [List.length_append, List.length_take, List.length_replicate]
    omega
  simp only [piece]
  rw [List.drop_append, List.drop_replicate, hzeros]

/-- Symbol `j` of `w` bits of the bit string of the bytes `b 0`, `b 1`, ...: it starts in byte `j * w / 8` at bit `j * w % 8`,
and no symbol reaches past the next byte. -/
def symbolAt (w : Nat) (b : Nat → Nat) (j : Nat) : Nat :=
  (256 * b (j * w / 8) + b (j * w / 8 + 1)) % 2 ^ (16 - j * w % 8) / 2 ^ (16 - j * w % 8 - w)

/-- `w` bits from bit `r` of two bytes on, whatever comes behind them. -/
theorem valueOf_window {r w x y : Nat} (h : r + w ≤ 16) (hx : x < 2 ^ 8) (hy : y < 2 ^ 8) (R : List Bool) :
    valueOf (((bitsOf 8 x ++ (bitsOf 8 y ++ R)).drop r).take w) = (256 * x + y) % 2 ^ (16 - r) / 2 ^ (16 - r - w) := by
  have hlen : (bitsOf 8 x ++ bitsOf 8 y).length = 16 := by simp [length_bitsOf]
  rw [← List.append_assoc, List.drop_append_of_le_length (by omega),
    List.take_append_of_le_length (by rw [List.length_drop]; omega), valueOf_take, valueOf_drop, List.length_drop, hlen,
    valueOf_append, valueOf_bitsOf, valueOf_bitsOf, length_bitsOf, Nat.mod_eq_of_lt hx, Nat.mod_eq_of_lt hy, Nat.mul_comm]
  rfl

/-- The pieces of `Encode` (R159) that start within the input, by `symbolAt`. -/
theorem piece_eq_symbolAt {w j : Nat} (hw : w ≤ 8) {input : List Byte} (hj : j * w / 8 < input.length) :
    piece w (bitString 8 (input.map BitVec.toNat)) j = symbolAt w (fun k => ((input[k]?).getD 0).toNat) j := by
  set q := j * w / 8 with hq
  set vs := (input ++ [0]).map BitVec.toNat with hvs
  have hpad : bitString 8 (input.map BitVec.toNat) ++ List.replicate 8 false = bitString 8 vs := by
    rw [hvs, List.map_append, bitString_append]
    rfl
  have hlen : vs.length = input.length + 1 := by simp [hvs]
  have hdrop : vs.drop q = vs[q] :: vs[q + 1] :: vs.drop (q + 2) := by
    rw [List.drop_eq_getElem_cons, List.drop_eq_getElem_cons]
  have hbyte (k : Nat) (hk : k < vs.length) : vs[k] = ((input[k]?).getD 0).toNat := by
    by_cases hin : k < input.length
    · simp [hvs, hin]
    · simp [hvs, show k = input.length by omega]
  rw [← piece_append_zeros w 8, hpad, piece_full _ _ (by rw [length_bitString]; omega),
    show j * w = 8 * q + j * w % 8 by omega, ← List.drop_drop, drop_bitString, hdrop, bitString_cons, bitString_cons,
    valueOf_window (by omega) (hbyte q _ ▸ BitVec.isLt _) (hbyte (q + 1) _ ▸ BitVec.isLt _), hbyte, hbyte]
  simp only [symbolAt, ← hq]

/-! The symbols of a group, as the rules of the commands write them (41_encode.md R160 to R165). -/

/-- The symbols of the group of the bytes `b 0`, `b 1`, ... (R160, R162, R164). -/
def groupSymbols (b : Nat → Nat) : Base → List Nat
  | .b16 => [b 0 / 16, b 0 % 16]
  | .b32 => [b 0 / 8, b 0 % 8 * 4 + b 1 / 64, b 1 / 2 % 32, b 1 % 2 * 16 + b 2 / 16, b 2 % 16 * 2 + b 3 / 128,
      b 3 / 4 % 32, b 3 % 4 * 8 + b 4 / 32, b 4 % 32]
  | .b64 => [b 0 / 4, b 0 % 4 * 16 + b 1 / 16, b 1 % 16 * 4 + b 2 / 64, b 2 % 64]

/-- The shifts and masks of the rules are windows on two neighbouring bytes, symbol by symbol. -/
theorem groupSymbols_getElem? {base : Base} {b : Nat → Nat} (hb : ∀ k, b k < 256) {m : Nat} (hm : m < charsPerGroup base) :
    (groupSymbols b base)[m]? = some (symbolAt (symbolWidth base) b m) := by
  have h0 := hb 0
  have h1 := hb 1
  have h2 := hb 2
  have h3 := hb 3
  have h4 := hb 4
  have h5 := hb 5
  cases base <;> simp only [charsPerGroup] at hm <;> interval_cases m
  all_goals
    refine congrArg some ?_
    simp only [symbolAt, symbolWidth, Nat.reduceMul, Nat.reduceDiv, Nat.reduceMod, Nat.reduceSub, Nat.reducePow,
      Nat.reduceAdd]
    omega

/-- A group holds whole bytes: its characters are cut from its own bytes alone (00_scope.md R6). -/
theorem charsPerGroup_mul_symbolWidth (base : Base) :
    charsPerGroup base * symbolWidth base = 8 * bytesPerGroup base := by cases base <;> rfl

theorem symbolAt_group (base : Base) (b : Nat → Nat) (g m : Nat) :
    symbolAt (symbolWidth base) b (charsPerGroup base * g + m)
      = symbolAt (symbolWidth base) (fun k => b (bytesPerGroup base * g + k)) m := by
  have hbit : (charsPerGroup base * g + m) * symbolWidth base = 8 * (bytesPerGroup base * g) + m * symbolWidth base := by
    rw [Nat.add_mul, Nat.mul_right_comm, charsPerGroup_mul_symbolWidth, Nat.mul_assoc]
  have hbyte : (8 * (bytesPerGroup base * g) + m * symbolWidth base) / 8
      = bytesPerGroup base * g + m * symbolWidth base / 8 := by omega
  simp only [symbolAt, hbit, hbyte, Nat.mul_add_mod, Nat.add_assoc]

/-- A symbol that starts within the input is one of the input's symbols. -/
theorem lt_symbolCount_iff {base : Base} {n j : Nat} : j < symbolCount base n ↔ j * symbolWidth base / 8 < n := by
  cases base <;> simp only [symbolCount, ceilDiv, symbolWidth] <;> omega

theorem symbolCount_le_charCount (base : Base) (p : Bool) (n : Nat) : symbolCount base n ≤ charCount base p n := by
  cases base <;> cases p <;> simp [charCount, roundUp, ceilDiv, charsPerGroup] <;> omega

/-- The number of symbols of a group with `rest` input bytes from its first one on (R162, R164). -/
def groupFill (base : Base) (rest : Nat) : Nat := min (charsPerGroup base) (ceilDiv (8 * rest) (symbolWidth base))

/-- Symbol `j` of group `g` is one of the input's exactly when the group is filled so far. -/
theorem group_lt_symbolCount_iff {base : Base} {n g j : Nat} (hg : bytesPerGroup base * g < n)
    (hj : j < charsPerGroup base) :
    charsPerGroup base * g + j < symbolCount base n ↔ j < groupFill base (n - bytesPerGroup base * g) := by
  cases base <;> simp only [groupFill, symbolCount, ceilDiv, symbolWidth, charsPerGroup, bytesPerGroup] at * <;> omega

/-- With padding on, a group that holds an input byte is a whole group of characters. -/
theorem group_lt_charCount {base : Base} {n g j : Nat} (hg : bytesPerGroup base * g < n) (hj : j < charsPerGroup base) :
    charsPerGroup base * g + j < charCount base true n := by
  cases base <;>
    simp only [charCount, symbolCount, roundUp, ceilDiv, symbolWidth, charsPerGroup, bytesPerGroup, if_true] at * <;> omega

end Sys2Proof.Machine
end

section
/-! The text of an encode, character by character (41_encode.md R159 to R165): the symbol a character stands for, and where the
line endings leave it. -/

namespace Sys2Proof.Machine

/-! The characters of `Encode` (R159). -/

theorem getElem?_symChars {base : Base} {alt : Bool} {vs : List Nat} (h : ∀ v ∈ vs, v < 2 ^ symbolWidth base) (j : Nat) :
    (symChars base alt vs)[j]? = vs[j]?.bind (fwd base alt) := by
  induction vs generalizing j with
  | nil => rfl
  | cons v vs ih =>
    obtain ⟨c, hc⟩ := fwd_some base alt (h v (by simp))
    rw [symChars_cons hc]
    cases j with
    | zero => exact hc.symm
    | succ j => exact ih (fun u hu => h u (by simp [hu])) j

/-- The symbols of an encode. -/
def encSymbols (d : Latched) (input : List Byte) : List Nat :=
  pieces (symbolWidth d.base) (bitString 8 (input.map BitVec.toNat))

theorem encChars_eq (d : Latched) (input : List Byte) : encChars d input
    = symChars d.base d.alt (encSymbols d input) ++ List.replicate d.pads Config.padChar := rfl

theorem length_encSymbols (d : Latched) (input : List Byte) :
    (encSymbols d input).length = symbolCount d.base input.length := by
  rw [encSymbols, length_pieces, length_bitString, List.length_map, symbolCount]

theorem lt_of_mem_encSymbols {d : Latched} {input : List Byte} : ∀ v ∈ encSymbols d input, v < 2 ^ symbolWidth d.base :=
  fun _ hv => lt_of_mem_pieces hv

theorem length_symChars_encSymbols (d : Latched) (input : List Byte) :
    (symChars d.base d.alt (encSymbols d input)).length = symbolCount d.base input.length := by
  rw [length_symChars _ _ _ lt_of_mem_encSymbols, length_encSymbols]

theorem encChars_symbol {d : Latched} {input : List Byte} {j : Nat} (hj : j < symbolCount d.base input.length) :
    (encChars d input)[j]?
      = fwd d.base d.alt (symbolAt (symbolWidth d.base) (fun k => ((input[k]?).getD 0).toNat) j) := by
  have hw := (symbolWidth_bounds d.base).2
  rw [encChars_eq, List.getElem?_append_left (by rwa [length_symChars_encSymbols]),
    getElem?_symChars lt_of_mem_encSymbols,
    List.getElem?_eq_getElem (by rwa [length_encSymbols]), Option.bind_some]
  simp only [encSymbols, pieces, List.getElem_map, List.getElem_range]
  rw [piece_eq_symbolAt (by omega) (lt_symbolCount_iff.mp hj)]

theorem encChars_pad {d : Latched} {input : List Byte} (hn : input.length = d.inLen) (hpad : d.usePadding = true) {j : Nat}
    (hj : symbolCount d.base input.length ≤ j) (hlt : j < charCount d.base true input.length) :
    (encChars d input)[j]? = some Config.padChar := by
  have hlen := length_encChars d input hn
  rw [hpad, encChars_eq, List.length_append, length_symChars_encSymbols, List.length_replicate] at hlen
  rw [encChars_eq, List.getElem?_append_right (by rwa [length_symChars_encSymbols]), length_symChars_encSymbols,
    List.getElem?_replicate, if_pos (by omega)]

/-! Where the line endings leave a character (R153). -/

/-- A character that starts a text stands first in it. -/
theorem getElem?_wrapFrom_cons (L : Nat) (e : List Byte) (col : Nat) (c : Byte) (C : List Byte) :
    (wrapFrom L e col (c :: C))[0]? = some c := by
  rw [wrapFrom]
  split_ifs <;> rfl

/-- Character `j` stands behind the characters before it and the line endings of the lines these fill (R153). -/
theorem getElem?_wrapText (L : Nat) (e : List Byte) {C : List Byte} {j : Nat} (hj : j < C.length) :
    (wrapText L e C)[j + lineBreaks L j * e.length]? = C[j]? := by
  have hbefore : (C.take j).length = j := by rw [List.length_take]; omega
  have hlen := length_wrapFrom L e 0 (by omega) (C.take j)
  rw [hbefore, Nat.zero_add] at hlen
  have htext : wrapText L e C
      = wrapFrom L e 0 (C.take j) ++ wrapFrom L e (colAfter L 0 (C.take j)) (C[j] :: C.drop (j + 1)) := by
    rw [wrapText_eq, ← wrapFrom_append, ← List.drop_eq_getElem_cons hj, List.take_append_drop]
  rw [htext, ← hlen, List.getElem?_append_right (Nat.le_refl _), Nat.sub_self, getElem?_wrapFrom_cons,
    List.getElem?_eq_getElem hj]

/-! The text in the output buffer. -/

theorem checkStatus_ne_success {size : Option Nat} {d : Operands} : checkStatus size d ≠ some .success := by
  unfold checkStatus
  split_ifs
  · nofun
  · cases size with
    | none => nofun
    | some t =>
      simp only
      split_ifs <;> nofun

/-- The bytes a command has written read back from the output buffer. -/
theorem outByte_outWritten {s t : State} {r : Region} {bs : List Byte} (hr : s.outBuf = some r) (hbuf : t.outBuf = some r)
    (hwf : Memory.wf s.mem = true) (hmem : t.mem = outWritten s bs) {i : Nat} (hi : i < bs.length) :
    outByte t i = bs[i]? := by
  simp only [outByte, hbuf, hmem, outWritten, hr, Option.map_some, Memory.read_writeList_inside hwf r.base bs i hi,
    List.getElem?_eq_getElem hi]

/-- `t` is what a successful encode of descriptor `d` leaves of `s`, as far as the output buffer `r` and `count` show (R159). -/
structure Encoded (d : Latched) (s t : State) (r : Region) : Prop where
  leLen : d.leLen ≤ 2
  input : (inputBytes s d.inLen).length = d.inLen
  outBuf : s.outBuf = some r
  outBuf_kept : t.outBuf = some r
  mem : t.mem = outWritten s (encText d (inputBytes s d.inLen) ++ if d.nulTerm then [0x00] else [])
  count : t.count = (encText d (inputBytes s d.inLen)).length

/-- An ENC command that answers Success has encoded its input. -/
theorem encoded_of_exec {i : Instr} {s t : State} (hop : i.op = .enc) (hi : Issuable i.operands s)
    (hc : Complies i.operands s) (h : exec i s = .next t) (hs : t.status = .success) :
    ∃ r, Encoded (latch .enc i.base i.alt i.operands) s t r := by
  set d := latch .enc i.base i.alt i.operands with hd
  have hend : exec i s = .next (encodeEnd d s) := by
    rw [exec_eq_wholeEnd hi fun _ => hc, hop, wholeEnd]
    rfl
  obtain rfl : encodeEnd d s = t := by rw [h] at hend; injection hend with hend; exact hend.symm
  have hcheck : checkStatus (d.encSize s.sizeW) d.toOperands = none := by
    cases hst : checkStatus (d.encSize s.sizeW) d.toOperands with
    | none => rfl
    | some st =>
      simp only [encodeEnd, wholeEncode, hst, commandEnd] at hs
      exact absurd (hs ▸ hst) checkStatus_ne_success
  obtain ⟨ri, ro, total, hb, -, -⟩ := supplied_of_checks (launchRefusal_eq_none.mpr hc) hcheck
  refine ⟨ro, leLen_le_of_wellFormed hi.fits, ?_, hb.outBuf, hb.outBuf, ?_, ?_⟩
  · rw [inputBytes, hb.inBuf]
    exact length_readList ..
  · simp only [encodeEnd, wholeEncode, hcheck, commandEnd]
  · simp only [encodeEnd, wholeEncode, hcheck, commandEnd]

section
variable {d : Latched} {s t : State} {r : Region}

/-- The characters of the text stand in the output buffer, the line endings between them. -/
theorem Encoded.textChar_eq (h : Encoded d s t r) (hwf : Memory.wf s.mem = true) {j : Nat}
    (hj : j < (encChars d (inputBytes s d.inLen)).length) :
    textChar d.toOperands t j = (encChars d (inputBytes s d.inLen))[j]? := by
  have hchar := getElem?_wrapText d.lineLength (lineEnding d.toOperands) hj
  rw [length_lineEnding _ h.leLen] at hchar
  have hpos : j + lineBreaks d.lineLength j * d.leLen < (encText d (inputBytes s d.inLen)).length := by
    rw [List.getElem?_eq_getElem hj] at hchar
    exact (List.getElem?_eq_some_iff.mp hchar).1
  rw [textChar, outByte_outWritten h.outBuf h.outBuf_kept hwf h.mem (by rw [List.length_append]; omega),
    List.getElem?_append_left hpos, encText, hchar]

/-- A symbol that starts within the input is a character of the text (R154 to R156). -/
theorem Encoded.textChar_symbol (h : Encoded d s t r) (hwf : Memory.wf s.mem = true) {j : Nat}
    (hj : j * symbolWidth d.base / 8 < d.inLen) :
    textChar d.toOperands t j
      = fwd d.base d.alt (symbolAt (symbolWidth d.base) (inputOrZero s d.inLen) j) := by
  have hcount : j < symbolCount d.base (inputBytes s d.inLen).length := by rwa [h.input, lt_symbolCount_iff]
  have hle := symbolCount_le_charCount d.base d.usePadding (inputBytes s d.inLen).length
  rw [h.textChar_eq hwf (by rw [length_encChars _ _ h.input]; omega), encChars_symbol hcount]
  rfl

/-- With padding on, the text is filled up to whole groups (R157). -/
theorem Encoded.textChar_pad (h : Encoded d s t r) (hwf : Memory.wf s.mem = true) (hpad : d.usePadding = true) {j : Nat}
    (hj : symbolCount d.base d.inLen ≤ j) (hlt : j < charCount d.base true d.inLen) :
    textChar d.toOperands t j = some Config.padChar := by
  rw [← h.input] at hj hlt
  rw [h.textChar_eq hwf (by rwa [length_encChars _ _ h.input, hpad]), encChars_pad h.input hpad hj hlt]

/-- Group `g` of the text: the symbols of its bytes, then the padding when asked for (R162, R164). -/
theorem Encoded.group (h : Encoded d s t r) (hwf : Memory.wf s.mem = true) {g : Nat}
    (hg : bytesPerGroup d.base * g < d.inLen) :
    let full := groupFill d.base (d.inLen - bytesPerGroup d.base * g)
    (∀ j, j < full → textChar d.toOperands t (charsPerGroup d.base * g + j)
      = (groupSymbols (fun k => inputOrZero s d.inLen (bytesPerGroup d.base * g + k)) d.base)[j]?.bind (fwd d.base d.alt))
    ∧ (d.usePadding = true → ∀ j, full ≤ j → j < charsPerGroup d.base →
      textChar d.toOperands t (charsPerGroup d.base * g + j) = some Config.padChar) := by
  intro full
  refine ⟨fun j hj => ?_, fun hpad j hj hlt => ?_⟩
  · have hlt : j < charsPerGroup d.base := Nat.lt_of_lt_of_le hj (Nat.min_le_left ..)
    rw [h.textChar_symbol hwf (lt_symbolCount_iff.mp ((group_lt_symbolCount_iff hg hlt).mpr hj)), symbolAt_group,
      groupSymbols_getElem? (fun _ => BitVec.isLt _) hlt]
    rfl
  · exact h.textChar_pad hwf hpad (Nat.not_lt.mp (mt (group_lt_symbolCount_iff hg hlt).mp (Nat.not_lt.mpr hj)))
      (group_lt_charCount hg hlt)

/-- Base16: no group is short and none is padded, so each byte is its two digits (R160, R161). -/
theorem Encoded.digits {alt : Bool} {d : Operands} (h : Encoded (latch .enc .b16 alt d) s t r)
    (hwf : Memory.wf s.mem = true) {k : Nat} (hk : k < d.inLen) :
    textChar d t (2 * k) = fwd .b16 alt (inputOrZero s d.inLen k / 16)
    ∧ textChar d t (2 * k + 1) = fwd .b16 alt (inputOrZero s d.inLen k % 16) := by
  have hg : 1 * k < d.inLen := by omega
  have hfull : groupFill .b16 (d.inLen - 1 * k) = 2 := by
    simp only [groupFill, charsPerGroup, symbolWidth, ceilDiv]
    omega
  obtain ⟨hchars, -⟩ := h.group hwf hg
  have hhigh := hchars 0 (hfull ▸ by decide)
  have hlow := hchars 1 (hfull ▸ by decide)
  simp only [bytesPerGroup, charsPerGroup, groupSymbols, latch_base, Nat.one_mul] at hhigh hlow
  exact ⟨hhigh, hlow⟩

end

/-- Settles O16: the count by the size law, the digits as groups of one byte. -/
theorem encodeB16Digits : Obligations.EncodeB16Digits := by
  unfold Obligations.EncodeB16Digits
  intro d s hi hc hwf digits
  have hcount {alt : Bool} {t : State} {r : Region} (he : Encoded (latch .enc .b16 alt d) s t r) :
      t.count = 2 * d.inLen + lineBreaks d.lineLength (2 * d.inLen) * d.leLen := by
    rw [he.count, length_encText _ _ he.leLen he.input, he.input]
    simp only [latch_base, charCount_b16]
    rfl
  refine ⟨fun t h hs => ?_, fun t h hs => ?_⟩
  · obtain ⟨r, he⟩ := encoded_of_exec (i := .encB16 d) rfl hi hc h hs
    exact ⟨hcount he, fun k hk => he.digits hwf hk⟩
  · obtain ⟨r, he⟩ := encoded_of_exec (i := .encB16L d) rfl hi hc h hs
    exact ⟨hcount he, fun k hk => he.digits hwf hk⟩

/-- Settles O17: both commands by the group law at base32. -/
theorem encodeB32Groups : Obligations.EncodeB32Groups := by
  unfold Obligations.EncodeB32Groups
  intro d s hi hc hwf groups
  refine ⟨fun t h hs g hg => ?_, fun t h hs g hg => ?_⟩
  · obtain ⟨r, he⟩ := encoded_of_exec (i := .encB32 d) rfl hi hc h hs
    exact he.group hwf hg
  · obtain ⟨r, he⟩ := encoded_of_exec (i := .encB32Hex d) rfl hi hc h hs
    exact he.group hwf hg

/-- Settles O18: both commands by the group law at base64. -/
theorem encodeB64Groups : Obligations.EncodeB64Groups := by
  unfold Obligations.EncodeB64Groups
  intro d s hi hc hwf groups
  refine ⟨fun t h hs g hg => ?_, fun t h hs g hg => ?_⟩
  · obtain ⟨r, he⟩ := encoded_of_exec (i := .encB64 d) rfl hi hc h hs
    exact he.group hwf hg
  · obtain ⟨r, he⟩ := encoded_of_exec (i := .encB64Url d) rfl hi hc h hs
    exact he.group hwf hg

end Sys2Proof.Machine
end

section
/-! BODY and TAIL of a decode, one lemma for each shared operation, for every state (42_decode.md R193 to R198). -/

namespace Sys2Proof.Machine

theorem memReadIn_ok {s : State} {r : Region} (hb : s.inBuf = some r) (hp : s.desc.inPresent = true) {i : Nat}
    (hi : i < s.desc.inLen) : memReadIn s i = .ok (Memory.read s.mem (r.base + i)) := by
  simp [memReadIn, hb, hp, hi]

/-- `and_accMask` as a word, for every `n`: past 13 bits the mask keeps the whole accumulator. -/
theorem and_accMask_eq_ofNat (a : Acc) (n : Nat) : a &&& accMask n = BitVec.ofNat 13 (a.toNat % 2 ^ n) := by
  rw [accMask, ← Nat.and_two_pow_sub_one_eq_mod, BitVec.ofNat_and, BitVec.ofNat_toNat, BitVec.setWidth_eq]

theorem setWidth_ushiftRight_eq_ofNat (a : Acc) (k : Nat) : (a >>> k).setWidth 8 = BitVec.ofNat 8 (a.toNat / 2 ^ k) := by
  apply BitVec.eq_of_toNat_eq
  rw [BitVec.toNat_setWidth, BitVec.toNat_ushiftRight, BitVec.toNat_ofNat, Nat.shiftRight_eq_div_pow]

/-- `Extract` does nothing with less than a byte pending (R197). -/
theorem extract_eq_self {s : State} (hn : s.work.nbits < 8) : extract s = .ok s := by
  rw [extract, if_neg (Nat.not_le.mpr hn)]

/-- `Extract` with a byte pending and room for it: the top eight bits are written, the bits below them stay (R197). -/
theorem extract_eq_of_byte {s : State} {r : Region} (hb : s.outBuf = some r) (hp : s.desc.outPresent = true)
    (hn : 8 ≤ s.work.nbits) (hroom : s.work.outPos < s.desc.outCap) :
    extract s = .ok { s with
      mem := Memory.write s.mem (r.base + s.work.outPos) (BitVec.ofNat 8 (s.work.acc.toNat / 2 ^ (s.work.nbits - 8)))
      work := { s.work with
        acc := BitVec.ofNat 13 (s.work.acc.toNat % 2 ^ (s.work.nbits - 8))
        nbits := s.work.nbits - 8
        outPos := s.work.outPos + 1 } } := by
  rw [extract, if_pos hn, putOut_ok hb hp hroom, setWidth_ushiftRight_eq_ofNat, ← and_accMask_eq_ofNat]
  rfl

/-- Before the end of the input a BODY step consumes one byte and acts on its class (R193). -/
theorem decBody_eq_decByte {s : State} {r : Region} {cls : ByteClass} (hb : s.inBuf = some r)
    (hp : s.desc.inPresent = true) (hi : s.work.inPos < s.desc.inLen)
    (hc : classify s.desc (Memory.read s.mem (r.base + s.work.inPos)) = cls) :
    decBody s = decByte cls (s.withWork { s.work with inPos := s.work.inPos + 1 }) := by
  rw [decBody, if_neg (Nat.ne_of_lt hi), memReadIn_ok hb hp hi, Except.bind_of_ok, hc]

theorem paddingSeen_iff {s : State} : paddingSeen s = true ↔ 0 < s.work.npad := decide_eq_true_iff

/-- A symbol behind padding ends the command (R196). -/
theorem symStep_of_padding {s : State} (h : 0 < s.work.npad) (v : Nat) : symStep v s = .ok (raise .invalidPadding s) := by
  rw [symStep, if_pos (paddingSeen_iff.mpr h)]

/-- A symbol with no padding before it is shifted in, and a whole byte is then extracted (R196). -/
theorem symStep_of_no_padding {s : State} (h : s.work.npad = 0) (v : Nat) :
    symStep v s = extract (s.withWork { s.work with
      acc := (s.work.acc <<< symbolWidth s.desc.base) ||| BitVec.ofNat 13 v
      nbits := s.work.nbits + symbolWidth s.desc.base
      gpos := (s.work.gpos + 1) % charsPerGroup s.desc.base }) := by
  rw [symStep, if_neg (mt paddingSeen_iff.mp (Nat.not_lt.mpr (Nat.le_of_eq h)))]

/-- Settles O29: the end of the input, then each class of byte; a symbol with no padding before it is `Extract`'s to settle. -/
theorem decodeBodyStep : Obligations.DecodeBodyStep := by
  unfold Obligations.DecodeBodyStep
  intro s ri ro hph hop hib hob hip hop'
  rw [tick_body_dec hph hop]
  refine ⟨fun hend => ?_, fun hi => ?_⟩
  · rw [decBody, if_pos hend]
    rfl
  · intro cls w raised
    have hread {c : ByteClass} (hc : cls = c) : decBody s = decByte c (s.withWork w) := decBody_eq_decByte hib hip hi hc
    refine ⟨hread, hread, hread, fun v hc => ?_⟩
    rw [hread hc, decByte]
    refine ⟨fun hpad => symStep_of_padding (s := s.withWork w) hpad v, fun hpad hn => ?_, fun hpad hn hroom => ?_⟩
    · exact (symStep_of_no_padding (s := s.withWork w) hpad v).trans (extract_eq_self hn)
    · exact (symStep_of_no_padding (s := s.withWork w) hpad v).trans (extract_eq_of_byte hob hop' hn hroom)

/-- The padding test of TAIL: with padding seen or asked for, the count must be the one its group position requires (R198). -/
theorem decTail_eq_of_short {s : State} {n : Nat} (hshort : s.work.nbits < symbolWidth s.desc.base)
    (hreq : required s.desc.base s.work.gpos = some n) :
    decTail s = .ok (if (0 < s.work.npad ∨ s.desc.usePadding = true) → s.work.npad = n then decEnd s
      else raise .invalidPadding s) := by
  rw [decTail, if_neg (Nat.not_le.mpr hshort), hreq]
  simp only [paddingSeen_iff]
  by_cases hpad : 0 < s.work.npad ∨ s.desc.usePadding = true
  · by_cases hn : s.work.npad = n <;> simp [hpad, hn]
  · simp [hpad]

/-- Settles O30: the length test, the padding test, then `decEnd`, which tests the leftover bits in strict mode. -/
theorem decodeTail : Obligations.DecodeTail := by
  unfold Obligations.DecodeTail
  intro s hph hop raised short padded
  rw [tick_tail_dec hph hop]
  refine ⟨fun hlong => ?_, fun n hreq => ⟨fun hshort hpad => ?_, fun hshort hpad hstrict hacc => ?_,
    fun hshort hpad hend => ?_⟩⟩
  · rw [decTail, if_pos (Nat.not_lt.mp hlong)]
    rfl
  · rw [decTail_eq_of_short hshort hreq, if_neg hpad]
    rfl
  · rw [decTail_eq_of_short hshort hreq, if_pos hpad, decEnd, if_pos ⟨hstrict, hacc⟩]
    rfl
  · have hend' : ¬ (s.desc.strict = true ∧ s.work.acc ≠ 0) := fun ⟨hstrict, hacc⟩ =>
      hend.elim (fun h => by simp [h] at hstrict) hacc
    rw [decTail_eq_of_short hshort hreq, if_pos hpad, decEnd, if_neg hend']
    rfl

end Sys2Proof.Machine
end

section
/-! The result of a decode by the scan of its classes (42_decode.md R199): what the scan accepts, and the class that stops it,
one byte at a time. A skipped byte leaves both as they are (R194). -/

namespace Sys2Proof.Machine

/-- A byte of this class behind accepted bytes of classes `pre` ends the scan (R196, R199). -/
def ByteClass.stops (pre : List ByteClass) : ByteClass → Bool
  | .skip => false
  | .pad => false
  | .sym _ => pre.contains .pad
  | .bad => true

theorem stopsAt_length (cs : List ByteClass) (c : ByteClass) : stopsAt (cs ++ [c]) cs.length = c.stops cs := by
  rw [stopsAt_of_getElem (by simp)]
  cases c <;> simp [ByteClass.stops]

theorem stopsAt_append_left {cs : List ByteClass} {i : Nat} (hi : i < cs.length) (ds : List ByteClass) :
    stopsAt (cs ++ ds) i = stopsAt cs i := by
  rw [stopsAt, stopsAt, List.getElem?_append_left hi, List.take_append_of_le_length (Nat.le_of_lt hi)]

/-- One more byte stops the scan only when no earlier one has. -/
theorem firstStop_snoc (cs : List ByteClass) (c : ByteClass) :
    firstStop (cs ++ [c]) = (firstStop cs).or (if c.stops cs then some cs.length else none) := by
  have hfront : (List.range cs.length).find? (stopsAt (cs ++ [c])) = firstStop cs :=
    List.find?_congr fun i hi => stopsAt_append_left (List.mem_range.mp hi) [c]
  rw [firstStop, List.length_append, List.length_singleton, List.range_succ, List.find?_append, hfront,
    List.find?_singleton, stopsAt_length]

/-- The classes the scan accepts, and the class of the byte that ends it. -/
def scan (cs : List ByteClass) : List ByteClass × Option ByteClass :=
  match firstStop cs with
  | some e => (cs.take e, cs[e]?)
  | none => (cs, none)

theorem scan_of_firstStop {cs : List ByteClass} {e : Nat} (h : firstStop cs = some e) : scan cs = (cs.take e, cs[e]?) := by
  rw [scan, h]

theorem scan_of_no_stop {cs : List ByteClass} (h : firstStop cs = none) : scan cs = (cs, none) := by
  rw [scan, h]

/-- A scan that has stopped stays as it is. -/
theorem scan_snoc_of_stopped {cs : List ByteClass} {x : ByteClass} (h : (scan cs).2 = some x) (c : ByteClass) :
    scan (cs ++ [c]) = scan cs := by
  cases hf : firstStop cs with
  | none => rw [scan_of_no_stop hf] at h; cases h
  | some e =>
    obtain ⟨he, -, -⟩ := firstStop_eq_some.mp hf
    rw [scan_of_firstStop hf, scan_of_firstStop (e := e) (by rw [firstStop_snoc, hf, Option.some_or]),
      List.take_append_of_le_length (Nat.le_of_lt he), List.getElem?_append_left he]

/-- A scan that runs on stops at the next byte or accepts it. -/
theorem scan_snoc_of_running {cs : List ByteClass} (h : (scan cs).2 = none) (c : ByteClass) :
    (scan cs).1 = cs ∧ scan (cs ++ [c]) = if c.stops cs then (cs, some c) else (cs ++ [c], none) := by
  cases hf : firstStop cs with
  | some e =>
    obtain ⟨he, -, -⟩ := firstStop_eq_some.mp hf
    rw [scan_of_firstStop hf, List.getElem?_eq_getElem he] at h
    cases h
  | none =>
    have hnext : firstStop (cs ++ [c]) = if c.stops cs then some cs.length else none := by
      rw [firstStop_snoc, hf, Option.none_or]
    refine ⟨by rw [scan_of_no_stop hf], ?_⟩
    by_cases hc : c.stops cs
    · rw [if_pos hc] at hnext ⊢
      rw [scan_of_firstStop hnext, List.take_left, List.getElem?_concat_length]
    · rw [if_neg hc] at hnext ⊢
      rw [scan_of_no_stop hnext]

/-- The classes that are not SKIP. -/
def dropSkips (cs : List ByteClass) : List ByteClass := cs.filter (· ≠ .skip)

theorem dropSkips_snoc_skip (cs : List ByteClass) : dropSkips (cs ++ [.skip]) = dropSkips cs := by
  simp [dropSkips]

theorem dropSkips_snoc {c : ByteClass} (h : c ≠ .skip) (cs : List ByteClass) :
    dropSkips (cs ++ [c]) = dropSkips cs ++ [c] := by
  simp [dropSkips, h]

theorem count_pad_dropSkips (cs : List ByteClass) : (dropSkips cs).count .pad = cs.count .pad :=
  List.count_filter rfl

theorem symValues_dropSkips (cs : List ByteClass) : symValues (dropSkips cs) = symValues cs := by
  rw [symValues, dropSkips, List.filterMap_filter]
  refine List.filterMap_congr fun c _ => ?_
  cases c <;> rfl

theorem stops_dropSkips (c : ByteClass) (pre : List ByteClass) : c.stops (dropSkips pre) = c.stops pre := by
  cases c with
  | sym v => simp [ByteClass.stops, dropSkips]
  | skip | pad | bad => rfl

/-- The scan of the bytes that are not skipped stops at the same byte, having accepted the same others. -/
theorem scan_dropSkips (cs : List ByteClass) : scan (dropSkips cs) = (dropSkips (scan cs).1, (scan cs).2) := by
  induction cs using List.reverseRecOn with
  | nil => rfl
  | append_singleton cs c ih =>
    cases hstop : (scan cs).2 with
    | some x =>
      have hstop' : (scan (dropSkips cs)).2 = some x := by rw [ih, hstop]
      rw [scan_snoc_of_stopped hstop, ← ih]
      by_cases hc : c = .skip
      · rw [hc, dropSkips_snoc_skip]
      · rw [dropSkips_snoc hc, scan_snoc_of_stopped hstop']
    | none =>
      obtain ⟨hall, hnext⟩ := scan_snoc_of_running hstop c
      have hstop' : (scan (dropSkips cs)).2 = none := by rw [ih, hstop]
      rw [hnext]
      by_cases hc : c = .skip
      · rw [hc, dropSkips_snoc_skip, ih, hall, hstop]
        simp [ByteClass.stops, dropSkips_snoc_skip]
      · rw [dropSkips_snoc hc, (scan_snoc_of_running hstop' c).2, stops_dropSkips]
        by_cases hs : c.stops cs
        · rw [if_pos hs, if_pos hs]
        · rw [if_neg hs, if_neg hs, dropSkips_snoc hc]

/-- The result of a decode past CHECK whose scan ended as `r` says (R199). -/
def scanResult (d : Latched) (r : List ByteClass × Option ByteClass) : WholeResult :=
  let bytes := decodedBytes (symbolWidth d.base) (symValues r.1)
  match r.2 with
  | some c => ⟨bytes, 0, if c = .bad then .invalidCharacter else .invalidPadding⟩
  | none => ⟨bytes, if endStatus d r.1 = .success then bytes.length else 0, endStatus d r.1⟩

/-- `Decode` past CHECK reads its input through the scan of its classes. -/
theorem wholeDecode_eq_scanResult {sizeW : Nat} {d : Latched} (h : checkStatus (d.decSize sizeW) d.toOperands = none)
    (input : List Byte) : wholeDecode sizeW d input = scanResult d (scan (input.map (classify d))) := by
  simp only [wholeDecode, h]
  cases hf : firstStop (input.map (classify d)) with
  | none => rw [scan_of_no_stop hf, scanResult]
  | some e =>
    obtain ⟨he, -, -⟩ := firstStop_eq_some.mp hf
    rw [scan_of_firstStop hf, scanResult]
    simp only [List.getElem?_eq_getElem he, Option.some.injEq]

theorem endStatus_dropSkips (d : Latched) (cs : List ByteClass) : endStatus d (dropSkips cs) = endStatus d cs := by
  rw [endStatus, endStatus, symValues_dropSkips, count_pad_dropSkips]

/-- Skipped bytes contribute nothing to the result (R194). -/
theorem scanResult_dropSkips (d : Latched) (cs : List ByteClass) :
    scanResult d (scan (dropSkips cs)) = scanResult d (scan cs) := by
  rw [scan_dropSkips, scanResult, scanResult, symValues_dropSkips, endStatus_dropSkips]

theorem classify_eq_skip_iff {d : Latched} {c : Byte} : classify d c = .skip ↔ isSkip d.toOperands c = true := by
  unfold classify
  split_ifs <;> simp_all

theorem dropSkips_map_classify (d : Latched) (input : List Byte) :
    dropSkips (input.map (classify d)) = (input.filter fun c => !isSkip d.toOperands c).map (classify d) := by
  rw [dropSkips, List.filter_map]
  congr 1
  refine List.filter_congr fun c _ => ?_
  simp [classify_eq_skip_iff]

/-- The result of a decode that passes CHECK is that of its input without the skipped bytes. -/
theorem wholeDecode_eq_of_filter_eq {sizeW sizeW' : Nat} {d d' : Latched} {input input' : List Byte}
    (hd : checkStatus (d.decSize sizeW) d.toOperands = none) (hd' : checkStatus (d'.decSize sizeW') d'.toOperands = none)
    (hresult : scanResult d = scanResult d') (hclass : classify d = classify d')
    (hinput : input.filter (fun c => !isSkip d.toOperands c) = input'.filter (fun c => !isSkip d'.toOperands c)) :
    wholeDecode sizeW d input = wholeDecode sizeW' d' input' := by
  rw [wholeDecode_eq_scanResult hd, wholeDecode_eq_scanResult hd', ← scanResult_dropSkips,
    ← scanResult_dropSkips d', dropSkips_map_classify, dropSkips_map_classify, hinput, hclass, hresult]

/-- Two commands on two states whose whole functions agree answer alike and write the same bytes of OUT. -/
theorem runCommand_agree {op : Op} {base : Base} {alt : Bool} {d d' : Operands} {s s' : State} (hi : Issuable d s)
    (hi' : Issuable d' s') (hl : launchDuty op d s = none) (hl' : launchDuty op d' s' = none)
    (h : commandResult (latch op base alt d) s = commandResult (latch op base alt d') s') :
    ∃ t t' bytes, runCommand op base alt d s = .next t ∧ runCommand op base alt d' s' = .next t' ∧ t.status = t'.status
      ∧ t.count = t'.count ∧ t.mem = outWritten s bytes ∧ t'.mem = outWritten s' bytes := by
  obtain ⟨w, hw⟩ := wholeEnd_eq_commandEnd (latch op base alt d) s
  obtain ⟨w', hw'⟩ := wholeEnd_eq_commandEnd (latch op base alt d') s'
  rw [runCommand_eq_wholeEnd hi hl, runCommand_eq_wholeEnd hi' hl', hw, hw', h]
  exact ⟨_, _, _, rfl, rfl, rfl, rfl, rfl, rfl⟩

/-- Settles O28: the whole function of a decode sees its input without the skipped bytes, and past CHECK does not read
`in_len`. -/
theorem skippedBytesContributeNothing : Obligations.SkippedBytesContributeNothing := by
  unfold Obligations.SkippedBytesContributeNothing
  intro d s s' n hi hc hi' hc' hinput same
  have hsame (base : Base) (alt : Bool) (h : checkStatus (decSize s.sizeW base d.inLen) d = none)
      (h' : checkStatus (decSize s'.sizeW base n) d = none) :=
    runCommand_agree (op := .dec) (base := base) (alt := alt) hi hi' (launchRefusal_eq_none.mpr hc)
      (launchRefusal_eq_none.mpr hc') (wholeDecode_eq_of_filter_eq h h' rfl rfl hinput)
  exact ⟨hsame .b16 false, hsame .b16 true, hsame .b32 false, hsame .b32 true, hsame .b64 false, hsame .b64 true⟩

end Sys2Proof.Machine
end

section
/-! Base16 decode: a byte is two digits, so past the length test no bit is left over, no padding is due and no option is read;
both letter cases of a digit are one symbol (30_encoding.md R109, 42_decode.md R198, R200, R201). -/

namespace Sys2Proof.Machine

/-- An even number of digits leaves no bit over and requires no padding, whatever `use_padding` and `strict` say (R198). -/
theorem endStatus_b16 {d : Latched} (h : d.base = .b16) (cs : List ByteClass) : endStatus d cs =
    if symbolWidth .b16 ≤ (symValues cs).length * symbolWidth .b16 % 8 then .invalidLength
    else if 0 < min (cs.count .pad) 7 then .invalidPadding else .success := by
  rw [endStatus, h]
  by_cases hlong : symbolWidth .b16 ≤ (symValues cs).length * symbolWidth .b16 % 8
  · rw [if_pos hlong, if_pos hlong]
  · have heven : ¬ 4 ≤ (symValues cs).length * 4 % 8 := hlong
    have hreq : required .b16 ((symValues cs).length % charsPerGroup .b16) = some 0 :=
      if_pos (show (symValues cs).length % 2 = 0 by omega)
    have hleft : leftoverBits (symbolWidth .b16) (symValues cs) = [] := by
      rw [← List.length_eq_zero_iff, length_leftoverBits]
      change (symValues cs).length * 4 % 8 = 0
      omega
    rw [if_neg hlong, if_neg hlong, hreq, hleft]
    by_cases hpad : 0 < min (cs.count .pad) 7
    · rw [if_pos ⟨.inl hpad, by simpa using Nat.ne_of_gt hpad⟩, if_pos hpad]
    · rw [if_neg fun ⟨_, hne⟩ => hne (congrArg some (Nat.eq_zero_of_not_pos hpad)), if_neg hpad]
      simp

theorem scanResult_b16 {d d' : Latched} (h : d.base = .b16) (h' : d'.base = .b16) : scanResult d = scanResult d' := by
  funext r
  simp only [scanResult, endStatus_b16 h, endStatus_b16 h', h, h']

/-- The result of a base16 decode is a function of its CHECK and of the classes of its input. -/
theorem wholeDecode_b16 {sizeW sizeW' : Nat} {d d' : Latched} {input input' : List Byte} (h : d.base = .b16)
    (h' : d'.base = .b16)
    (hcheck : checkStatus (d.decSize sizeW) d.toOperands = checkStatus (d'.decSize sizeW') d'.toOperands)
    (hclass : checkStatus (d.decSize sizeW) d.toOperands = none → input.map (classify d) = input'.map (classify d')) :
    wholeDecode sizeW d input = wholeDecode sizeW' d' input' := by
  cases hst : checkStatus (d.decSize sizeW) d.toOperands with
  | some st => rw [wholeDecode, wholeDecode, ← hcheck, hst]
  | none =>
    rw [wholeDecode_eq_scanResult hst, wholeDecode_eq_scanResult (hcheck ▸ hst), scanResult_b16 h h', hclass hst]

/-- Base16 decode reads neither `alt`, nor `use_padding`, nor `strict`. -/
theorem decB16_sameResult (alt alt' pad strict : Bool) {d : Operands} {s : State} (hi : Issuable d s) (hc : Complies d s) :
    SameResult (runCommand .dec .b16 alt d s)
      (runCommand .dec .b16 alt' { d with usePadding := pad, strict := strict } s) :=
  have hl : launchDuty .dec d s = none := launchRefusal_eq_none.mpr hc
  sameResult_runCommand hi ⟨hi.phase, hi.fits⟩ hl hl (wholeDecode_b16 rfl rfl rfl fun _ => rfl)

/-! Letter case. -/

theorem hexUpper_eq_self_or_mem (c : Byte) : hexUpper c = c ∨ c ∈ [(0x61 : Byte), 0x62, 0x63, 0x64, 0x65, 0x66] := by
  by_cases h : 0x61 ≤ c ∧ c ≤ 0x66
  · right
    simp only [List.mem_cons, List.not_mem_nil, or_false]
    bv_omega
  · exact .inl (if_neg h)

/-- REV gives `a` to `f` the values of `A` to `F` (R109 step 3). -/
theorem rev_b16_hexUpper (alt : Bool) (c : Byte) : rev .b16 alt (hexUpper c) = rev .b16 alt c := by
  have hletters : ∀ c ∈ [(0x61 : Byte), 0x62, 0x63, 0x64, 0x65, 0x66], rev .b16 alt (hexUpper c) = rev .b16 alt c := by
    cases alt <;> decide
  exact (hexUpper_eq_self_or_mem c).elim (fun h => by rw [h]) (hletters c)

theorem hexUpper_eq_padChar_iff (c : Byte) : hexUpper c = Config.padChar ↔ c = Config.padChar := by
  have hletters : ∀ c ∈ [(0x61 : Byte), 0x62, 0x63, 0x64, 0x65, 0x66],
      hexUpper c = Config.padChar ↔ c = Config.padChar := by decide
  exact (hexUpper_eq_self_or_mem c).elim (fun h => by rw [h]) (hletters c)

/-- The two letter cases of a digit are of one class. -/
theorem classify_eq_of_sameDigit {d : Latched} (hb : d.base = .b16) {c c' : Byte} (h : SameDigit d.toOperands c c') :
    classify d c = classify d c' := by
  obtain rfl | ⟨hs, hs', hup⟩ := h
  · rfl
  · have hpad : c = Config.padChar ↔ c' = Config.padChar := by
      rw [← hexUpper_eq_padChar_iff, hup, hexUpper_eq_padChar_iff]
    have hrev : rev d.base d.alt c = rev d.base d.alt c' := by
      rw [hb, ← rev_b16_hexUpper, hup, rev_b16_hexUpper]
    simp only [classify, hs, hs', hpad, hrev]

theorem length_inputBytes {s : State} {r : Region} (h : s.inBuf = some r) (n : Nat) : (inputBytes s n).length = n := by
  rw [inputBytes, h]
  exact length_readList ..

/-- Inputs that agree up to letter case have the same classes. -/
theorem map_classify_eq_of_sameDigit {d : Latched} (hb : d.base = .b16) {input input' : List Byte}
    (hlen : input.length = input'.length)
    (h : ∀ (k : Nat) (c c' : Byte), input[k]? = some c → input'[k]? = some c' → SameDigit d.toOperands c c') :
    input.map (classify d) = input'.map (classify d) := by
  refine List.ext_getElem (by simpa) fun k hk hk' => ?_
  rw [List.length_map] at hk hk'
  rw [List.getElem_map, List.getElem_map]
  exact classify_eq_of_sameDigit hb (h k _ _ (List.getElem?_eq_getElem hk) (List.getElem?_eq_getElem hk'))

/-- Settles O26: the options and `alt` are not read, and inputs that differ in letter case alone are of the same classes. -/
theorem decodeB16OptionsIrrelevant : Obligations.DecodeB16OptionsIrrelevant := by
  unfold Obligations.DecodeB16OptionsIrrelevant
  intro d s pad strict hi hc
  refine ⟨decB16_sameResult false true d.usePadding d.strict hi hc, decB16_sameResult false false pad strict hi hc,
    decB16_sameResult true true pad strict hi hc, fun s' hw hi' hc' hinput => ?_⟩
  have hresult (alt : Bool) : commandResult (latch .dec .b16 alt d) s = commandResult (latch .dec .b16 alt d) s' := by
    refine wholeDecode_b16 rfl rfl (by rw [hw]) fun hcheck => ?_
    obtain ⟨ri, ro, -, hb, -, -⟩ := supplied_of_checks (launchRefusal_eq_none.mpr hc) hcheck
    obtain ⟨ri', hri', -⟩ := hc'.input hb.inPresent
    exact map_classify_eq_of_sameDigit rfl ((length_inputBytes hb.inBuf _).trans (length_inputBytes hri' _).symm) hinput
  have hagree (alt : Bool) : ∃ t t' bytes, runCommand .dec .b16 alt d s = .next t
      ∧ runCommand .dec .b16 alt d s' = .next t' ∧ t.count = t'.count ∧ t.status = t'.status
      ∧ t.mem = outWritten s bytes ∧ t'.mem = outWritten s' bytes := by
    obtain ⟨t, t', bytes, ht, ht', hstatus, hcount, hmem⟩ :=
      runCommand_agree (op := .dec) hi hi' (launchRefusal_eq_none.mpr hc) (launchRefusal_eq_none.mpr hc') (hresult alt)
    exact ⟨t, t', bytes, ht, ht', hcount, hstatus, hmem⟩
  exact ⟨hagree false, hagree true⟩

end Sys2Proof.Machine
end

section
/-! Taking an exception (60_exceptions.md R252): each phase ends a command with an error by `raise` alone, from the
state it began in or, in BODY, from that state with the cursor past the byte it has read (42_decode.md R193). -/

namespace Sys2Proof.Machine

/-! The operations inside a phase leave it. -/

theorem emitSymbol_phase {s t : State} {v : Nat} (h : emitSymbol v s = .ok t) : t.phase = s.phase := by
  obtain ⟨c, -, h⟩ := Except.bind_eq_ok.mp h
  obtain ⟨ro, -, -, -, rfl⟩ := emit_inv h
  exact emitState_phase ro [c] s

theorem drainLoop_phase {fuel : Nat} {s t : State} (h : drainLoop fuel s = .ok t) : t.phase = s.phase := by
  induction fuel generalizing s with
  | zero => cases h; rfl
  | succ fuel ih =>
    rw [drainLoop] at h
    split_ifs at h
    · obtain ⟨u, hu, h⟩ := Except.bind_eq_ok.mp h
      rw [ih h, State.withWork_phase, emitSymbol_phase hu]
    · cases h; rfl

theorem extract_phase {s t : State} (h : extract s = .ok t) : t.phase = s.phase := by
  unfold extract at h
  split_ifs at h
  · obtain ⟨u, hu, h⟩ := Except.bind_eq_ok.mp h
    obtain ⟨ro, -, -, -, rfl⟩ := putOut_inv hu
    cases h
    rfl
  · cases h; rfl

/-- If `t` is the end of a command with an error, it is what `raise` makes of `u`. -/
def RaisedFrom (u t : State) : Prop := t.phase = .done → t.status ≠ .success → t = raise t.status u

theorem raisedFrom_raise (st : Status) (u : State) : RaisedFrom u (raise st u) := fun _ _ => rfl

theorem raisedFrom_of_success {u t : State} (h : t.status = .success) : RaisedFrom u t := fun _ hs => absurd h hs

theorem raisedFrom_of_phase {u t : State} (h : t.phase ≠ .done) : RaisedFrom u t := fun hd => absurd hd h

/-! The phases. -/

theorem sizeResult_raisedFrom (r : Option Nat) (s : State) : RaisedFrom s (sizeResult r s) := by
  cases r with
  | none => exact raisedFrom_raise _ s
  | some n => exact raisedFrom_of_success rfl

theorem encCheck_raisedFrom (s : State) : RaisedFrom s (encCheck s) := by
  unfold encCheck
  split
  · exact raisedFrom_raise _ s
  · exact raisedFrom_of_phase nofun

theorem decCheck_raisedFrom (s : State) : RaisedFrom s (decCheck s) := by
  unfold decCheck
  split
  · exact raisedFrom_raise _ s
  · exact raisedFrom_of_phase nofun

/-- A BODY step of an encode goes to TAIL or stays in BODY. -/
theorem encBody_phase_ne_done {s t : State} (hp : s.phase = .body) (h : encBody s = .ok t) : t.phase ≠ .done := by
  unfold encBody at h
  split_ifs at h
  · cases h; nofun
  · obtain ⟨b, -, h⟩ := Except.bind_eq_ok.mp h
    rw [drainLoop_phase h, State.withWork_phase, hp]
    nofun

theorem encTail_phase {s t : State} (h : encTail s = .ok t) : t.phase = .pad := by
  unfold encTail at h
  split_ifs at h
  · obtain ⟨u, -, h⟩ := Except.bind_eq_ok.mp h
    cases h
    rfl
  · cases h; rfl

theorem encPad_phase {s t : State} (h : encPad s = .ok t) : t.phase = .term := by
  obtain ⟨u, -, h⟩ := Except.bind_eq_ok.mp h
  cases h
  rfl

theorem encTerm_status {s t : State} (h : encTerm s = .ok t) : t.status = .success := by
  unfold encTerm at h
  split_ifs at h
  · obtain ⟨u, -, h⟩ := Except.bind_eq_ok.mp h
    cases h
    rfl
  · cases h; rfl

theorem decByte_raisedFrom {c : ByteClass} {s t : State} (hp : s.phase ≠ .done) (h : decByte c s = .ok t) :
    RaisedFrom s t := by
  cases c with
  | skip => cases h; exact raisedFrom_of_phase hp
  | pad => cases h; exact raisedFrom_of_phase hp
  | bad => cases h; exact raisedFrom_raise _ s
  | sym v =>
    rw [decByte, symStep] at h
    split_ifs at h
    · cases h; exact raisedFrom_raise _ s
    · exact raisedFrom_of_phase (extract_phase h ▸ hp)

/-- A BODY step raises with the byte it has read already consumed (R193). -/
theorem decBody_raisedFrom {s t : State} (hp : s.phase = .body) (h : decBody s = .ok t) :
    RaisedFrom (s.withWork { s.work with inPos := s.work.inPos + 1 }) t := by
  unfold decBody at h
  split_ifs at h
  · cases h; exact raisedFrom_of_phase nofun
  · obtain ⟨c, -, h⟩ := Except.bind_eq_ok.mp h
    exact decByte_raisedFrom (by simp [hp]) h

theorem decEnd_raisedFrom (s : State) : RaisedFrom s (decEnd s) := by
  unfold decEnd
  split
  · exact raisedFrom_raise _ s
  · exact raisedFrom_of_success rfl

theorem decTail_raisedFrom {s t : State} (h : decTail s = .ok t) : RaisedFrom s t := by
  unfold decTail at h
  split_ifs at h
  · cases h; exact raisedFrom_raise _ s
  · split at h
    · cases h
    · split_ifs at h <;> cases h
      · exact raisedFrom_raise _ s
      · exact decEnd_raisedFrom s
  · cases h; exact decEnd_raisedFrom s

/-- The state a tick raises from: the one it began in, in BODY with the cursor past the byte read (R193). -/
def raisePoint (s : State) : State :=
  s.withWork { s.work with inPos := s.work.inPos + if s.phase = .body then 1 else 0 }

theorem raisePoint_of_body {s : State} (hp : s.phase = .body) :
    raisePoint s = s.withWork { s.work with inPos := s.work.inPos + 1 } := by
  rw [raisePoint, if_pos hp]

theorem raisePoint_of_ne_body {s : State} (hp : s.phase ≠ .body) : raisePoint s = s := by
  rw [raisePoint, if_neg hp]
  rfl

/-- Outside BODY a tick that raises does so from the state it began in. -/
theorem RaisedFrom.of_ne_body {s t : State} (h : RaisedFrom s t) (hp : s.phase ≠ .body) : RaisedFrom (raisePoint s) t := by
  rwa [raisePoint_of_ne_body hp]

/-- A tick of a command in flight ends it with an error by `raise` alone (R252). -/
theorem tick_raisedFrom {s t : State} (hf : s.phase.inFlight = true) (h : tick s = .ok t) :
    RaisedFrom (raisePoint s) t := by
  unfold tick at h
  split at h
  next hp => rw [hp] at hf; cases hf
  next hp => rw [hp] at hf; cases hf
  next hp _ => cases h; exact (sizeResult_raisedFrom _ s).of_ne_body (by simp [hp])
  next hp _ => cases h; exact (sizeResult_raisedFrom _ s).of_ne_body (by simp [hp])
  next hp _ => cases h; exact (encCheck_raisedFrom s).of_ne_body (by simp [hp])
  next hp _ => cases h; exact (decCheck_raisedFrom s).of_ne_body (by simp [hp])
  next hp _ => exact raisedFrom_of_phase (encBody_phase_ne_done hp h)
  next hp _ => rw [raisePoint_of_body hp]; exact decBody_raisedFrom hp h
  next => exact raisedFrom_of_phase (by simp [encTail_phase h])
  next hp _ => exact (decTail_raisedFrom h).of_ne_body (by simp [hp])
  next => exact raisedFrom_of_phase (by simp [encPad_phase h])
  next => exact raisedFrom_of_success (encTerm_status h)
  next => cases h

/-- Settles O39: an erroneous end is `raise` from `raisePoint`, which differs from the state before the tick by the cursor. -/
theorem raiseEffect : Obligations.RaiseEffect := by
  unfold Obligations.RaiseEffect
  intro s t hf h hdone hstatus
  have hraise : t = raise t.status (raisePoint s) := tick_raisedFrom hf h hdone hstatus
  have hcursor : t.work.inPos = s.work.inPos + (if s.phase = .body then 1 else 0) :=
    congrArg (fun u : State => u.work.inPos) hraise
  exact ⟨by rw [hcursor]; exact hraise, hcursor⟩

end Sys2Proof.Machine
end

section
/-! The number of ticks of a command (70_reset_and_hazards.md R284): a command seen in flight has been so since
issue, so it takes exactly `k + 1` ticks when it is in flight after `k` of them and DONE after one more. -/

namespace Sys2Proof.Machine

/-- A command in flight after `k` ticks has been in flight since issue: from DONE or IDLE no tick leads back. -/
theorem inFlight_of_le {j k : Nat} {s t : State} (hrun : runTicks k s = .ok t) (ht : t.phase.inFlight = true)
    (hjk : j ≤ k) : ∃ u, runTicks j s = .ok u ∧ u.phase.inFlight = true := by
  obtain ⟨m, rfl⟩ := Nat.exists_eq_add_of_le hjk
  rw [runTicks_add] at hrun
  obtain ⟨u, hu, hrest⟩ := Except.bind_eq_ok.mp hrun
  refine ⟨u, hu, ?_⟩
  by_contra hsettled
  rw [runTicks_settled (Bool.eq_false_of_not_eq_true hsettled)] at hrest
  cases hrest
  exact hsettled ht

theorem doneAfter_succ {k : Nat} {s t u : State} (hrun : runTicks k s = .ok t) (ht : t.phase.inFlight = true)
    (hend : runTicks (k + 1) s = .ok u) (hu : u.phase = .done ∧ u.done = true) : DoneAfter (k + 1) s :=
  ⟨fun _ hj => inFlight_of_le hrun ht (Nat.le_of_lt_succ hj), u, hend, hu⟩

/-- A command that its CHECK ends takes one tick. -/
theorem doneAfter_one {s u : State} (hph : s.phase = .check) (hend : runTicks 1 s = .ok u)
    (hu : u.phase = .done ∧ u.done = true) : DoneAfter 1 s :=
  doneAfter_succ (k := 0) rfl (by rw [hph]; rfl) hend hu

/-- BODY of a decode at the end of the input moves on to TAIL (42_decode.md R193). -/
theorem dec_tick_at_end {s : State} (hph : s.phase = .body) (hop : s.desc.op = .dec) (h : s.work.inPos = s.desc.inLen) :
    tick s = .ok (s.withPhase .tail) := by
  rw [tick_body_dec hph hop, decBody, if_pos h]

section
variable {s : State}

/-- An encode past CHECK takes CHECK, `in_len` bytes, the move out of BODY, TAIL, PAD and TERM. -/
theorem enc_doneAfter (hop : s.desc.op = .enc) (hph : s.phase = .check) (hle : s.desc.leLen ≤ 2)
    (hl : launchRefusal s.desc.toOperands s = none)
    (hc : checkStatus (s.desc.encSize s.sizeW) s.desc.toOperands = none) : DoneAfter (s.desc.inLen + 5) s := by
  obtain ⟨ri, ro, total, hb, ht, hcap⟩ := supplied_of_checks hl hc
  exact doneAfter_succ (enc_run_to_term hop hph hb hle ht hcap 0) rfl (enc_run_end hop hph hle hl 0) ⟨rfl, rfl⟩

theorem map_classify_inputBytes {ri : Region} (hb : s.inBuf = some ri) :
    (inputBytes s s.desc.inLen).map (classify s.desc) = inputClasses ri s := by
  rw [inputBytes, hb, inputClasses]

/-- A decode past CHECK that input index `e` ends takes CHECK and `e + 1` bytes. -/
theorem dec_doneAfter_of_stop (hop : s.desc.op = .dec) (hph : s.phase = .check)
    (hl : launchRefusal s.desc.toOperands s = none)
    (hc : checkStatus (s.desc.decSize s.sizeW) s.desc.toOperands = none) {e : Nat}
    (he : firstStop ((inputBytes s s.desc.inLen).map (classify s.desc)) = some e) : DoneAfter (e + 2) s := by
  obtain ⟨ri, ro, total, hb, ht, hcap⟩ := supplied_of_checks hl hc
  rw [map_classify_inputBytes hb.inBuf] at he
  obtain ⟨hlt, -, hbefore⟩ := firstStop_eq_some.mp he
  have hbody := dec_run_body hop hph hb ht hcap e (Nat.le_of_lt (length_inputClasses ▸ hlt)) hbefore 0
  rw [show 1 + e + 0 = e + 1 by omega] at hbody
  exact doneAfter_succ hbody rfl (dec_run_stop hop hph hb ht hcap he 0) ⟨rfl, rfl⟩

/-- A decode past CHECK that no byte ends takes CHECK, `in_len` bytes, the move out of BODY and TAIL. -/
theorem dec_doneAfter_of_no_stop (hop : s.desc.op = .dec) (hph : s.phase = .check)
    (hl : launchRefusal s.desc.toOperands s = none)
    (hc : checkStatus (s.desc.decSize s.sizeW) s.desc.toOperands = none)
    (hnone : firstStop ((inputBytes s s.desc.inLen).map (classify s.desc)) = none) :
    DoneAfter (s.desc.inLen + 3) s := by
  obtain ⟨ri, ro, total, hb, ht, hcap⟩ := supplied_of_checks hl hc
  rw [map_classify_inputBytes hb.inBuf] at hnone
  have hmove := dec_tick_at_end (s := decAt ro (decStart s) .body s.desc.inLen ((inputClasses ri s).take s.desc.inLen))
    rfl hop rfl
  have htail := dec_run_body hop hph hb ht hcap s.desc.inLen (Nat.le_refl _)
    (fun j hj => firstStop_eq_none.mp hnone j (by rwa [length_inputClasses])) 1
  rw [runTicks_succ rfl hmove, show 1 + s.desc.inLen + 1 = s.desc.inLen + 2 by omega] at htail
  exact doneAfter_succ htail rfl (dec_run_end hop hph hl 0) ⟨rfl, rfl⟩

end

/-- Settles O47: one tick where CHECK ends the command, and past CHECK the ticks of its phases. -/
theorem stepCounts : Obligations.StepCounts := by
  unfold Obligations.StepCounts
  intro base alt d s hi encCheck decCheck stop
  refine ⟨doneAfter_one rfl (encSize_run rfl rfl 0) ⟨rfl, rfl⟩, doneAfter_one rfl (decSize_run rfl rfl 0) ⟨rfl, rfl⟩,
    fun hcomplies => ?_⟩
  have hl : launchRefusal d s = none := launchRefusal_eq_none.mpr hcomplies
  refine ⟨fun hraise => ?_, fun hpass => ?_, fun hraise => ?_, fun hpass e => ?_, fun hpass => ?_⟩
  · obtain ⟨st, hst⟩ := Option.ne_none_iff_exists'.mp hraise
    exact doneAfter_one rfl (enc_run_raise (s := issue .enc base alt d s) rfl rfl hst 0) ⟨rfl, rfl⟩
  · exact enc_doneAfter (s := issue .enc base alt d s) rfl rfl (leLen_le_of_wellFormed hi.fits) hl hpass
  · obtain ⟨st, hst⟩ := Option.ne_none_iff_exists'.mp hraise
    exact doneAfter_one rfl (dec_run_raise (s := issue .dec base alt d s) rfl rfl hst 0) ⟨rfl, rfl⟩
  · exact dec_doneAfter_of_stop (s := issue .dec base alt d s) rfl rfl hl hpass
  · exact dec_doneAfter_of_no_stop (s := issue .dec base alt d s) rfl rfl hl hpass

end Sys2Proof.Machine
end

section
/-! The encoder and the decoder are inverse on well-formed commands and accepted descriptors (30_encoding.md R91, R96, R99). -/

namespace Sys2Proof

/-! The fields of the command that selectors and operands name (R96). -/

section
variable (op : Op) (base : Base) (alt : Bool) (d : Operands)

@[simp] theorem ofSelector_op : (Instr.ofSelector op base alt d).op = op := (Machine.ofSelector_fields op base alt d).1
@[simp] theorem ofSelector_base : (Instr.ofSelector op base alt d).base = base :=
  (Machine.ofSelector_fields op base alt d).2.1
@[simp] theorem ofSelector_alt : (Instr.ofSelector op base alt d).alt = alt :=
  (Machine.ofSelector_fields op base alt d).2.2.1
@[simp] theorem ofSelector_operands : (Instr.ofSelector op base alt d).operands = d :=
  (Machine.ofSelector_fields op base alt d).2.2.2

end

/-! Encoding and decoding. -/

/-- The decoder reads from a command's descriptor the operands the encoder wrote (R91). -/
theorem operands_encode {i : Instr} (h : i.operands.leLen ≤ 3) : (encode i).operands = i.operands := by
  obtain ⟨-, -, -, hpad, hstrict, hnul, hle, hin, hout, -, hle0, hle1⟩ := commandWord_fields i.op i.base i.alt h
  simp only [encode, Descriptor.operands, flagBit, hpad, hstrict, hnul, hle, hin, hout, hle0, hle1, bitOf_beq,
    BitVec.ofNat_toNat, BitVec.setWidth_eq]

/-- Settles O1: each field of the command word reads back as it was written. -/
theorem decodeEncodeAgree : Obligations.DecodeEncodeAgree := by
  unfold Obligations.DecodeEncodeAgree
  intro sizeW i hwf
  have hle : i.operands.leLen ≤ 3 := Nat.le_succ_of_le (Machine.leLen_le_of_wellFormed hwf)
  obtain ⟨hop, hbase, halt, -, -, -, -, -, -, hzero, -, -⟩ := commandWord_fields i.op i.base i.alt hle
  have halt' : flagBit (encode i).cmd 4 = i.alt := by rw [flagBit, encode, halt, bitOf_beq]
  refine decode_eq_ok.mpr ⟨hzero, by rwa [operands_encode hle], i.base, hbase, ?_⟩
  rw [operands_encode hle, halt', show bitField (encode i).cmd 0 2 = i.op.code from hop, Op.ofCode_code, ofSelector_self]

/-- A command word whose reserved bits are zero is the sum of its fields (R91). -/
theorem commandWord_of_fields {r : Descriptor} {base : Base} (hzero : bitField r.cmd 12 4 = 0)
    (hbase : bitField r.cmd 2 2 = base.code) :
    commandWord (Op.ofCode (bitField r.cmd 0 2)) base (flagBit r.cmd 4) r.operands = r.cmd := by
  have hle : r.operands.leLen ≤ 3 := Nat.le_of_lt_succ (bitField_lt r.cmd 8 2)
  apply BitVec.eq_of_toNat_eq
  rw [commandWord_toNat _ _ _ hle, Op.code_ofCode (bitField_lt r.cmd 0 2), ← hbase]
  simp only [Descriptor.operands, bitOf_flagBit, BitVec.toNat_ofNat]
  simp only [bitField] at hzero ⊢
  have hlt := r.cmd.isLt
  omega

/-- Settles O2: the fields of an accepted word are its command's, and they make up the whole word. -/
theorem encodeDecodeAgree : Obligations.EncodeDecodeAgree := by
  unfold Obligations.EncodeDecodeAgree
  intro sizeW r i h
  obtain ⟨hzero, hwf, base, hbase, rfl⟩ := decode_eq_ok.mp h
  refine ⟨by rwa [Instr.wellFormed, ofSelector_operands], ?_⟩
  rw [encode, ofSelector_op, ofSelector_base, ofSelector_alt, ofSelector_operands, commandWord_of_fields hzero hbase]
  rfl

/-- Settles O5: five words, field by field. -/
theorem writtenWordsDecode : Obligations.WrittenWordsDecode := by
  unfold Obligations.WrittenWordsDecode
  exact ⟨rfl, rfl, rfl, rfl, rfl⟩

end Sys2Proof
end

section
/-! The outcome of a command (00_scope.md R16): it is refused, or it ends in the state of its whole function; CHECK, said once
(41_encode.md R151, 42_decode.md R191); and the statuses a whole function answers. -/

namespace Sys2Proof.Machine

/-! The outcome of a command. -/

/-- A command answers a next state only where it can be issued and its launch breaks no duty, and then its whole function's. -/
theorem exec_inv {i : Instr} {s t : State} (h : exec i s = .next t) :
    Issuable i.operands s ∧ LaunchComplies i s ∧ t = wholeEnd (latch i.op i.base i.alt i.operands) s := by
  obtain ⟨hi, hl, -⟩ := runCommand_inv (exec_eq_runCommand i s ▸ h)
  have hc := launchDuty_eq_none.mp hl
  rw [exec_eq_wholeEnd hi hc] at h
  exact ⟨hi, hc, (Host.Outcome.next.inj h).symm⟩

/-- A command is refused or runs; it does not fault. -/
theorem exec_cases (i : Instr) (s : State) : (∃ r, exec i s = .refused r)
    ∨ Issuable i.operands s ∧ LaunchComplies i s := by
  by_cases hp : s.phase.inFlight
  · exact .inl ⟨.engineBusy, by rw [exec_eq_runCommand, runCommand, if_pos hp]⟩
  cases hr : i.operands.reject s.sizeW with
  | some e => exact .inl ⟨.reservedDescriptor e, by simp only [exec_eq_runCommand, runCommand, if_neg hp, hr]⟩
  | none =>
    cases hl : launchDuty i.op i.operands s with
    | some r => exact .inl ⟨r, by simp only [exec_eq_runCommand, runCommand, if_neg hp, hr, hl]⟩
    | none =>
      exact .inr ⟨⟨inFlight_eq_false.mp (Bool.eq_false_iff.mpr hp), reject_eq_none.mp hr⟩, launchDuty_eq_none.mp hl⟩

/-- The whole command as its result and its working registers. -/
theorem wholeEnd_eq (d : Latched) (s : State) :
    wholeEnd d s = commandEnd d (commandResult d s) (wholeEnd d s).work s := by
  obtain ⟨w, hw⟩ := wholeEnd_eq_commandEnd d s
  rw [hw]
  rfl

section
variable (d : Latched) (s : State)

@[simp] theorem wholeEnd_phase : (wholeEnd d s).phase = .done := by rw [wholeEnd_eq]; rfl
@[simp] theorem wholeEnd_desc : (wholeEnd d s).desc = d := by rw [wholeEnd_eq]; rfl
@[simp] theorem wholeEnd_count : (wholeEnd d s).count = (commandResult d s).count := by rw [wholeEnd_eq]; rfl
@[simp] theorem wholeEnd_status : (wholeEnd d s).status = (commandResult d s).status := by rw [wholeEnd_eq]; rfl
@[simp] theorem wholeEnd_done : (wholeEnd d s).done = true := by rw [wholeEnd_eq]; rfl
@[simp] theorem wholeEnd_mem : (wholeEnd d s).mem = outWritten s (commandResult d s).written := by rw [wholeEnd_eq]; rfl
@[simp] theorem wholeEnd_inBuf : (wholeEnd d s).inBuf = s.inBuf := by rw [wholeEnd_eq]; rfl
@[simp] theorem wholeEnd_outBuf : (wholeEnd d s).outBuf = s.outBuf := by rw [wholeEnd_eq]; rfl
@[simp] theorem wholeEnd_sizeW : (wholeEnd d s).sizeW = s.sizeW := by rw [wholeEnd_eq]; rfl
@[simp] theorem wholeEnd_host : (wholeEnd d s).host = s.host := by rw [wholeEnd_eq]; rfl
@[simp] theorem wholeEnd_freeCtr : (wholeEnd d s).freeCtr = s.freeCtr := by rw [wholeEnd_eq]; rfl

end

/-! CHECK (41_encode.md R151, 42_decode.md R191). -/

section
variable {size : Option Nat} {d : Operands}

theorem checkStatus_of_absent (h : d.inPresent = false ∨ d.outPresent = false) :
    checkStatus size d = some .nullOrMissingArgument := if_pos h

theorem checkStatus_none (hin : d.inPresent = true) (hout : d.outPresent = true) :
    checkStatus none d = some .inputTooLarge := if_neg (by simp [hin, hout])

theorem checkStatus_some (hin : d.inPresent = true) (hout : d.outPresent = true) (t : Nat) :
    checkStatus (some t) d = if d.outCap < t then some .bufferTooSmall else none := if_neg (by simp [hin, hout])

/-- CHECK passes with both buffers present and room for the size (R151, R191). -/
theorem checkStatus_eq_none : checkStatus size d = none ↔
    d.inPresent = true ∧ d.outPresent = true ∧ ∃ t, size = some t ∧ t ≤ d.outCap := by
  by_cases h : d.inPresent = false ∨ d.outPresent = false
  · rw [checkStatus_of_absent h]
    rcases h with h | h <;> simp [h]
  · simp only [not_or, Bool.not_eq_false] at h
    obtain ⟨hin, hout⟩ := h
    cases size with
    | none => simp [checkStatus_none hin hout]
    | some t => simp [checkStatus_some hin hout, hin, hout]

/-- The statuses CHECK raises. -/
theorem mem_of_checkStatus_eq_some {st : Status} (h : checkStatus size d = some st) :
    st ∈ [Status.nullOrMissingArgument, .bufferTooSmall, .inputTooLarge] := by
  unfold checkStatus at h
  split at h
  · cases h; decide
  · split at h
    · cases h; decide
    · split at h
      · cases h; decide
      · cases h

/-- A capacity of at least the size is not too small (R151, R191). -/
theorem checkStatus_ne_bufferTooSmall {t : Nat} (hsize : size = some t) (hcap : t ≤ d.outCap) :
    checkStatus size d ≠ some .bufferTooSmall := by
  subst hsize
  simp [checkStatus, Nat.not_lt.mpr hcap]

end

section
variable {d : Latched} {s : State}

theorem encodeEnd_of_raise {st : Status} (h : checkStatus (d.encSize s.sizeW) d.toOperands = some st) :
    encodeEnd d s = commandEnd d ⟨[], 0, st⟩ s.work s := by
  simp only [encodeEnd, wholeEncode, h]

theorem encodeEnd_of_pass (h : checkStatus (d.encSize s.sizeW) d.toOperands = none) :
    encodeEnd d s = commandEnd d ⟨encText d (inputBytes s d.inLen) ++ (if d.nulTerm then [0x00] else []),
      (encText d (inputBytes s d.inLen)).length, .success⟩ (encodeWork d (inputBytes s d.inLen) s.work) s := by
  simp only [encodeEnd, wholeEncode, h]

theorem decodeEnd_of_raise {st : Status} (h : checkStatus (d.decSize s.sizeW) d.toOperands = some st) :
    decodeEnd d s = commandEnd d ⟨[], 0, st⟩ s.work s := by
  simp only [decodeEnd, wholeDecode, h]

theorem decodeEnd_of_pass (h : checkStatus (d.decSize s.sizeW) d.toOperands = none) :
    decodeEnd d s = commandEnd d (scanResult d (scan ((inputBytes s d.inLen).map (classify d))))
      (decodeWorkEnd d ((inputBytes s d.inLen).map (classify d)) s.work) s := by
  simp only [decodeEnd, wholeDecode_eq_scanResult h, h]

/-- What CHECK raises is `raise` from the issued state: nothing is read, written or initialised (log 7). -/
theorem commandEnd_of_raise (st : Status) : commandEnd d ⟨[], 0, st⟩ s.work s
    = { s with phase := .done, desc := d, done := true, count := 0, status := st } := by
  rw [commandEnd, outWritten_nil]

end

/-! The status of a whole function (60_exceptions.md R240). -/

/-- The end-of-input tests: InvalidInput only in strict mode (42_decode.md R198). -/
theorem endStatus_cases (d : Latched) (cs : List ByteClass) :
    endStatus d cs ∈ [Status.success, .invalidLength, .invalidPadding]
    ∨ endStatus d cs = .invalidInput ∧ d.strict = true := by
  simp only [endStatus]
  split_ifs with hlen hpad hstrict
  · exact .inl (by decide)
  · exact .inl (by decide)
  · exact .inr ⟨rfl, hstrict.1⟩
  · exact .inl (by decide)

/-- The statuses of a decode past CHECK. -/
theorem scanResult_status_cases (d : Latched) (r : List ByteClass × Option ByteClass) :
    (scanResult d r).status ∈ [Status.success, .invalidCharacter, .invalidPadding, .invalidLength]
    ∨ (scanResult d r).status = .invalidInput ∧ d.strict = true := by
  obtain ⟨cs, _ | c⟩ := r
  · rcases endStatus_cases d cs with h | h
    · refine .inl ?_
      simp only [List.mem_cons, List.not_mem_nil, or_false] at h
      rcases h with h | h | h <;> simp [scanResult, h]
    · exact .inr h
  · refine .inl ?_
    simp only [scanResult]
    split <;> decide

/-- A decode past CHECK counts the bytes it wrote on Success, and nothing else (R198, R252). -/
theorem scanResult_count (d : Latched) (r : List ByteClass × Option ByteClass) : (scanResult d r).count
    = if (scanResult d r).status = .success then (scanResult d r).written.length else 0 := by
  obtain ⟨cs, _ | c⟩ := r
  · rfl
  · simp only [scanResult]
    split <;> rfl

theorem commandResult_count_of_failed {d : Latched} {s : State} (h : (commandResult d s).status ≠ .success) :
    (commandResult d s).count = 0 := by
  unfold commandResult at h ⊢
  cases hop : d.op <;> simp only [hop] at h ⊢
  case encSize => cases hn : d.encSize s.sizeW <;> simp_all [sizeWhole]
  case decSize => cases hn : d.decSize s.sizeW <;> simp_all [sizeWhole]
  case enc =>
    unfold wholeEncode at h ⊢
    split at h
    · rfl
    · exact absurd rfl h
  case dec =>
    cases hc : checkStatus (d.decSize s.sizeW) d.toOperands with
    | some st => simp only [wholeDecode, hc]
    | none =>
      rw [wholeDecode_eq_scanResult hc] at h ⊢
      rw [scanResult_count, if_neg h]

end Sys2Proof.Machine
end

section
/-! What every command leaves and may answer (10_state.md R29, R40, 60_exceptions.md R240 to R255), read off its outcome. -/

namespace Sys2Proof.Machine

/-! No command and no step faults (10_state.md R27). -/

theorem exec_ne_fault (i : Instr) (s : State) (f : Fault) : exec i s ≠ .fault f := by
  rcases exec_cases i s with ⟨r, h⟩ | ⟨hi, hc⟩
  · rw [h]
    nofun
  · rw [exec_eq_wholeEnd hi hc]
    nofun

/-- Settles O58: a step between commands runs a command, which does not fault, or makes a move of the host. -/
theorem stepNeverFaults : Obligations.StepNeverFaults := by
  unfold Obligations.StepNeverFaults
  intro s hinv
  refine ⟨fun f hf => ?_, fun i f => exec_ne_fault i s f⟩
  rcases step_cases hinv.phase with
    ⟨r, h⟩ | h | ⟨i, ri, ro, rest, r, -, h⟩ | ⟨rest, h⟩ | ⟨rest, a, b, h⟩ | ⟨rest, h⟩ | ⟨i, ri, ro, rest, h⟩
    <;> rw [h] at hf
  · cases hf
  · cases hf
  · exact exec_ne_fault i _ f hf
  · cases hf
  · cases hf
  · cases hf
  · rcases abandon_cases i ((s.withHost rest).withBuffers ri ro) with ⟨r, ha⟩ | ha <;> rw [ha] at hf <;> cases hf

/-! Results. -/

/-- Settles O40: the whole command ends so, and its result counts nothing on an error. -/
theorem completedCommandResult : Obligations.CompletedCommandResult := by
  unfold Obligations.CompletedCommandResult
  intro i s t h
  obtain ⟨-, -, rfl⟩ := exec_inv h
  refine ⟨wholeEnd_phase .., wholeEnd_done .., wholeEnd_desc .., fun hs => ?_⟩
  rw [wholeEnd_status] at hs
  rw [wholeEnd_count, commandResult_count_of_failed hs]

section
variable {d : Latched} {s : State}

theorem sizeWhole_status (r : Option Nat) : (sizeWhole r).status ∈ [Status.success, .inputTooLarge] := by
  cases r <;> simp [sizeWhole]

theorem wholeEncode_of_raise {sizeW : Nat} {st : Status} (h : checkStatus (d.encSize sizeW) d.toOperands = some st)
    (input : List Byte) : wholeEncode sizeW d input = ⟨[], 0, st⟩ := by
  simp only [wholeEncode, h]

theorem wholeDecode_of_raise {sizeW : Nat} {st : Status} (h : checkStatus (d.decSize sizeW) d.toOperands = some st)
    (input : List Byte) : wholeDecode sizeW d input = ⟨[], 0, st⟩ := by
  simp only [wholeDecode, h]

theorem wholeEncode_status (sizeW : Nat) (d : Latched) (input : List Byte) : (wholeEncode sizeW d input).status
    = (checkStatus (d.encSize sizeW) d.toOperands).getD .success := by
  unfold wholeEncode
  cases checkStatus (d.encSize sizeW) d.toOperands <;> rfl

/-- The statuses of a decode: those of CHECK, or those past it. -/
theorem wholeDecode_status_cases (sizeW : Nat) (d : Latched) (input : List Byte) :
    checkStatus (d.decSize sizeW) d.toOperands = some (wholeDecode sizeW d input).status
    ∨ (wholeDecode sizeW d input).status ∈ [Status.success, .invalidCharacter, .invalidPadding, .invalidLength]
    ∨ (wholeDecode sizeW d input).status = .invalidInput ∧ d.strict = true := by
  cases hc : checkStatus (d.decSize sizeW) d.toOperands with
  | some st => exact .inl (by rw [wholeDecode_of_raise hc])
  | none =>
    rw [wholeDecode_eq_scanResult hc]
    exact .inr (scanResult_status_cases ..)

end

/-- Settles O41: the statuses of each family's whole function. -/
theorem statusesByFamily : Obligations.StatusesByFamily := by
  unfold Obligations.StatusesByFamily
  refine ⟨fun i s t h => ?_, by decide⟩
  obtain ⟨-, -, rfl⟩ := exec_inv h
  rw [wholeEnd_status, commandResult, latch_op]
  refine ⟨?_, fun hop => ?_, fun hop => ?_⟩
  · rintro (hop | hop) <;> simp only [hop] <;> exact sizeWhole_status _
  · simp only [hop, wholeEncode_status]
    cases hc : checkStatus _ (latch Op.enc i.base i.alt i.operands).toOperands with
    | none => decide
    | some st => exact List.mem_cons_of_mem _ (mem_of_checkStatus_eq_some hc)
  · simp only [hop]
    rcases wholeDecode_status_cases s.sizeW (latch .dec i.base i.alt i.operands)
      (inputBytes s (latch .dec i.base i.alt i.operands).inLen) with hst | hst | ⟨hst, hstrict⟩
    · have hmem := mem_of_checkStatus_eq_some hst
      exact ⟨fun h => absurd (h ▸ hmem) (by decide), fun _ h => absurd (h ▸ hmem) (by decide)⟩
    · exact ⟨fun h => absurd (h ▸ hst) (by decide), fun _ h => absurd (h ▸ hst) (by decide)⟩
    · rw [hst]
      exact ⟨nofun, fun h => absurd (h.symm.trans hstrict) nofun⟩

section
variable {d : Latched} {s : State}

/-- The statuses CHECK raises, as the statements list them. -/
def Status.ofCheck (st : Status) : Prop := st = .nullOrMissingArgument ∨ st = .bufferTooSmall ∨ st = .inputTooLarge

theorem encodeEnd_of_ofCheck (h : (encodeEnd d s).status.ofCheck) :
    checkStatus (d.encSize s.sizeW) d.toOperands = some (encodeEnd d s).status := by
  cases hc : checkStatus (d.encSize s.sizeW) d.toOperands with
  | some st => rw [encodeEnd_of_raise hc]; rfl
  | none =>
    rw [encodeEnd_of_pass hc] at h
    rcases h with h | h | h <;> cases h

theorem decodeEnd_of_ofCheck (h : (decodeEnd d s).status.ofCheck) :
    checkStatus (d.decSize s.sizeW) d.toOperands = some (decodeEnd d s).status := by
  replace h : (wholeDecode s.sizeW d (inputBytes s d.inLen)).status.ofCheck := h
  rcases wholeDecode_status_cases s.sizeW d (inputBytes s d.inLen) with hc | hc | ⟨hc, -⟩
  · exact hc
  · rcases h with h | h | h <;> exact absurd (h ▸ hc) (by decide)
  · rcases h with h | h | h <;> exact absurd (hc.symm.trans h) nofun

/-- A whole command that ends with a status of CHECK leaves the storage and the working registers (R252, R253). -/
theorem wholeEnd_of_ofCheck (h : (wholeEnd d s).status.ofCheck) :
    (wholeEnd d s).mem = s.mem ∧ (wholeEnd d s).work = s.work := by
  unfold wholeEnd at h ⊢
  cases hop : d.op <;> simp only [hop] at h ⊢
  case encSize => rw [encSizeEnd, commandEnd_sizeWhole]; exact ⟨rfl, rfl⟩
  case decSize => rw [decSizeEnd, commandEnd_sizeWhole]; exact ⟨rfl, rfl⟩
  case enc => rw [encodeEnd_of_raise (encodeEnd_of_ofCheck h), commandEnd_of_raise]; exact ⟨rfl, rfl⟩
  case dec => rw [decodeEnd_of_raise (decodeEnd_of_ofCheck h), commandEnd_of_raise]; exact ⟨rfl, rfl⟩

end

/-- Settles O42: only CHECK raises these statuses, before anything is written. -/
theorem checkStatusWritesNothing : Obligations.CheckStatusWritesNothing := by
  unfold Obligations.CheckStatusWritesNothing
  intro i s t h hst
  obtain ⟨-, -, rfl⟩ := exec_inv h
  exact wholeEnd_of_ofCheck hst

/-! The queried size (R255). -/

theorem sizeWhole_success {r : Option Nat} (h : (sizeWhole r).status = .success) : r = some (sizeWhole r).count := by
  cases r with
  | none => cases h
  | some n => rfl

theorem encSize_of_exec {base : Base} {alt : Bool} {d : Operands} {s t : State}
    (h : exec (Instr.ofSelector .encSize base alt d) s = .next t) (hs : t.status = .success) :
    encSize s.sizeW base d.usePadding d.nulTerm d.leLen d.lineLength d.inLen = some t.count := by
  obtain ⟨-, -, rfl⟩ := exec_inv h
  simp only [ofSelector_op, ofSelector_base, ofSelector_alt, ofSelector_operands] at hs ⊢
  exact sizeWhole_success hs

theorem decSize_of_exec {base : Base} {alt : Bool} {d : Operands} {s t : State}
    (h : exec (Instr.ofSelector .decSize base alt d) s = .next t) (hs : t.status = .success) :
    decSize s.sizeW base d.inLen = some t.count := by
  obtain ⟨-, -, rfl⟩ := exec_inv h
  simp only [ofSelector_op, ofSelector_base, ofSelector_alt, ofSelector_operands] at hs ⊢
  exact sizeWhole_success hs

/-- Settles O43: the count the size command left is the size CHECK tests. -/
theorem queriedSizeSuffices : Obligations.QueriedSizeSuffices := by
  unfold Obligations.QueriedSizeSuffices
  intro base alt alt' d d' s s' t t' hw hpad hnul hle hline hin hs hcap
  refine ⟨fun hsize hrun hsmall => ?_, fun hsize hrun hsmall => ?_⟩
  · have hcount := encSize_of_exec hsize hs
    rw [hw, hpad, hnul, hle, hline, hin] at hcount
    obtain ⟨-, -, rfl⟩ := exec_inv hrun
    simp only [ofSelector_op, ofSelector_base, ofSelector_alt, ofSelector_operands] at hsmall
    exact checkStatus_ne_bufferTooSmall hcount hcap
      ((encodeEnd_of_ofCheck (.inr (.inl hsmall))).trans (congrArg some hsmall))
  · have hcount := decSize_of_exec hsize hs
    rw [hw, hin] at hcount
    obtain ⟨-, -, rfl⟩ := exec_inv hrun
    simp only [ofSelector_op, ofSelector_base, ofSelector_alt, ofSelector_operands] at hsmall
    exact checkStatus_ne_bufferTooSmall hcount hcap
      ((decodeEnd_of_ofCheck (.inr (.inl hsmall))).trans (congrArg some hsmall))

/-! No hidden state (10_state.md section 6). -/

/-- The result is a function of the descriptor, the width and, with the input present, the input. -/
theorem commandResult_congr {d : Latched} {s s' : State} (hw : s.sizeW = s'.sizeW)
    (hin : d.op = .enc ∨ d.op = .dec → d.inPresent = true → inputBytes s d.inLen = inputBytes s' d.inLen) :
    commandResult d s = commandResult d s' := by
  unfold commandResult
  cases hop : d.op <;> simp only [hw]
  case enc =>
    by_cases hp : d.inPresent = true
    · rw [hin (.inl hop) hp]
    · have hc := checkStatus_of_absent (size := d.encSize s'.sizeW) (.inl (Bool.eq_false_iff.mpr hp))
      rw [wholeEncode_of_raise hc, wholeEncode_of_raise hc]
  case dec =>
    by_cases hp : d.inPresent = true
    · rw [hin (.inr hop) hp]
    · have hc := checkStatus_of_absent (size := d.decSize s'.sizeW) (.inl (Bool.eq_false_iff.mpr hp))
      rw [wholeDecode_of_raise hc, wholeDecode_of_raise hc]

/-- Settles O44: the two whole functions are one. -/
theorem noHiddenState : Obligations.NoHiddenState := by
  unfold Obligations.NoHiddenState
  intro i s s' hw hi hi' hc hc' hin
  obtain ⟨t, t', bytes, ht, ht', hstatus, hcount, hmem, hmem'⟩ := runCommand_agree hi hi' (launchDuty_eq_none.mpr hc)
    (launchDuty_eq_none.mpr hc') (commandResult_congr (d := latch i.op i.base i.alt i.operands) hw hin)
  exact ⟨t, t', bytes, by rw [exec_eq_runCommand, ht], by rw [exec_eq_runCommand, ht'], hcount, hstatus, hmem, hmem'⟩

/-! What issue latches and no tick changes (10_state.md R40, 20_memory.md R61, R65, R70). -/

theorem exec_of_inFlight (i : Instr) {s : State} (h : s.phase.inFlight = true) : exec i s = .refused .engineBusy := by
  rw [exec_eq_runCommand, runCommand, if_pos h]

/-- Settles O45: issue by its definition; no tick changes the latched descriptor. -/
theorem issueLatches : Obligations.IssueLatches := by
  unfold Obligations.IssueLatches
  refine ⟨fun op base alt d s => rfl, fun s t h => (tick_outFrame h).desc, fun i s h => ?_⟩
  exact exec_of_inFlight i (Bool.of_not_eq_false (mt inFlight_eq_false.mp h))

/-- Settles O46: the frame of a tick. -/
theorem tickFrame : Obligations.TickFrame := by
  unfold Obligations.TickFrame
  intro s t h
  have hf := tick_outFrame h
  exact ⟨hf.mem, hf.inBuf, hf.outBuf, hf.sizeW, hf.host, hf.freeCtr⟩

end Sys2Proof.Machine
end

section
/-! The canonical form of storage decides it (log 4). -/

namespace Sys2Proof.Machine

theorem Memory.read_head (k : Nat) (v : Byte) (m : Memory) : Memory.read ((k, v) :: m) k = v := if_pos rfl

theorem Memory.risingFrom_cons_iff {lo : Option Nat} {k : Nat} {v : Byte} {m : Memory} :
    Memory.risingFrom lo ((k, v) :: m) = true
      ↔ (∀ l, lo = some l → l < k) ∧ v ≠ Config.unlistedByte ∧ Memory.risingFrom (some k) m = true := by
  cases lo <;> simp [Memory.risingFrom, and_assoc]

/-- In canonical form the first entry of one storage is no lower than that of another that reads alike. -/
theorem Memory.head_le_of_read_eq {k : Nat} {v : Byte} {m m' : Memory} {lo : Option Nat} {k' : Nat} {v' : Byte}
    (hm : Memory.risingFrom lo ((k, v) :: m) = true) (hm' : Memory.risingFrom lo ((k', v') :: m') = true)
    (hread : Memory.read ((k, v) :: m) k = Memory.read ((k', v') :: m') k) : k' ≤ k := by
  by_contra hlt
  obtain ⟨-, hv, -⟩ := Memory.risingFrom_cons_iff.mp hm
  obtain ⟨-, hv', hrest⟩ := Memory.risingFrom_cons_iff.mp hm'
  have hbelow : Memory.risingFrom (some k) ((k', v') :: m') = true :=
    Memory.risingFrom_cons_iff.mpr ⟨fun l hl => by cases hl; omega, hv', hrest⟩
  rw [Memory.read_head, Memory.read_below hbelow (Nat.le_refl k)] at hread
  exact hv hread

theorem Memory.eq_of_read_eq {lo : Option Nat} {m m' : Memory} (hm : Memory.risingFrom lo m = true)
    (hm' : Memory.risingFrom lo m' = true) (hread : ∀ a, Memory.read m a = Memory.read m' a) : m = m' := by
  induction m generalizing lo m' with
  | nil =>
    cases m' with
    | nil => rfl
    | cons kv' rest' =>
      obtain ⟨-, hv', -⟩ := Memory.risingFrom_cons_iff.mp hm'
      exact absurd ((hread kv'.1).trans (Memory.read_head ..)).symm hv'
  | cons kv rest ih =>
    obtain ⟨k, v⟩ := kv
    obtain ⟨-, hv, hrest⟩ := Memory.risingFrom_cons_iff.mp hm
    cases m' with
    | nil => exact absurd ((Memory.read_head ..).symm.trans (hread k)) hv
    | cons kv' rest' =>
      obtain ⟨k', v'⟩ := kv'
      obtain ⟨-, -, hrest'⟩ := Memory.risingFrom_cons_iff.mp hm'
      obtain rfl : k = k' := Nat.le_antisymm (Memory.head_le_of_read_eq hm' hm (hread k').symm)
        (Memory.head_le_of_read_eq hm hm' (hread k))
      obtain rfl : v = v' := (Memory.read_head ..).symm.trans ((hread k).trans (Memory.read_head ..))
      rw [ih hrest hrest' fun a => ?_]
      by_cases ha : a = k
      · rw [Memory.read_below hrest (Nat.le_of_eq ha), Memory.read_below hrest' (Nat.le_of_eq ha)]
      · have h := hread a
        rwa [Memory.read, Memory.read, if_neg ha, if_neg ha] at h

/-- Settles O59: entry by entry, the lowest listed address of both being the same. -/
theorem memoryCanonical : Obligations.MemoryCanonical := by
  unfold Obligations.MemoryCanonical
  exact fun m m' hm hm' hread => Memory.eq_of_read_eq hm hm' hread

end Sys2Proof.Machine
end

section
/-! The alphabets and the padding tables (30_encoding.md sections 5 to 7). -/

namespace Sys2Proof.Machine

theorem lt_of_fwd_eq_some {base : Base} {alt : Bool} {v : Nat} {c : Byte} (h : fwd base alt v = some c) :
    v < 2 ^ symbolWidth base := by
  cases base <;> cases alt <;> simp only [fwd] at h <;> simp only [symbolWidth] <;> split_ifs at h <;> omega

theorem fwd_isSome_iff {base : Base} {alt : Bool} {v : Nat} :
    (fwd base alt v).isSome = true ↔ v < 2 ^ symbolWidth base := by
  rw [Option.isSome_iff_exists]
  exact ⟨fun ⟨_, h⟩ => lt_of_fwd_eq_some h, fwd_some base alt⟩

/-- A test that holds of every entry of a table holds of its characters. -/
theorem forall_fwd {base : Base} {alt : Bool} {p : Nat → Byte → Bool}
    (htable : ∀ v < 2 ^ symbolWidth base, (fwd base alt v).all (p v) = true) {v : Nat} {c : Byte}
    (h : fwd base alt v = some c) : p v c = true := by
  have hv := htable v (lt_of_fwd_eq_some h)
  rwa [h, Option.all_some] at hv

/-- REV reads back every symbol value, base16's from the characters of either case (R109). -/
theorem rev_of_fwd {base : Base} {alt alt' : Bool} {v : Nat} {c : Byte} (halt : alt' = alt ∨ base = .b16)
    (h : fwd base alt' v = some c) : (rev base alt c).toNat = v := by
  have hsame : ((rev base alt' c).toNat == v) = true :=
    forall_fwd (p := fun v c => (rev base alt' c).toNat == v) (by cases base <;> cases alt' <;> decide) h
  rcases halt with rfl | rfl
  · exact eq_of_beq hsame
  · rwa [show rev .b16 alt = rev .b16 alt' from rfl, ← beq_iff_eq]

/-- No alphabet character is `=`, whitespace or above 0x7F. -/
theorem fwd_char {base : Base} {alt : Bool} {v : Nat} {c : Byte} (h : fwd base alt v = some c) :
    c ≠ 0x3D ∧ isWhitespace c = false ∧ c.toNat < 0x80 := by
  have hchar : (c != 0x3D && !isWhitespace c && decide (c.toNat < 0x80)) = true :=
    forall_fwd (p := fun _ c => c != 0x3D && !isWhitespace c && decide (c.toNat < 0x80))
      (by cases base <;> cases alt <;> decide) h
  simpa [and_assoc] using hchar

/-- Settles O33: REV, which undoes FWD, makes it one-to-one. -/
theorem alphabetsOneToOne : Obligations.AlphabetsOneToOne := by
  unfold Obligations.AlphabetsOneToOne
  intro base alt v
  refine ⟨fwd_isSome_iff, fun c hc => ?_⟩
  obtain ⟨hpad, hspace, -⟩ := fwd_char hc
  exact ⟨hpad, hspace, fun w hw => by rw [← rev_of_fwd (.inl rfl) hw, rev_of_fwd (.inl rfl) hc]⟩

theorem fwd_eq_none {base : Base} {alt : Bool} {v : Nat} (h : 2 ^ symbolWidth base ≤ v) : fwd base alt v = none :=
  Option.not_isSome_iff_eq_none.mp (mt fwd_isSome_iff.mp (Nat.not_lt.mpr h))

/-- Settles O34: each range of each table, and the end of every table at `2 ^ sw`. -/
theorem alphabetTables : Obligations.AlphabetTables := by
  unfold Obligations.AlphabetTables
  refine ⟨fun alt v h => ?_, fun v h h' => ?_, fun v h => ?_, fun v h h' => ?_, fun v h => ?_, fun v h h' => ?_,
    fun alt => ⟨fun v h => ?_, fun v h h' => ?_, fun v h h' => ?_, rfl, rfl, fun base v h => fwd_eq_none h⟩⟩
  · cases alt <;> exact if_pos h
  · exact ⟨(if_neg (by omega)).trans (if_pos h'), (if_neg (by omega)).trans (if_pos h')⟩
  · exact if_pos h
  · exact (if_neg (by omega)).trans (if_pos h')
  · exact if_pos h
  · exact (if_neg (by omega)).trans (if_pos h')
  · exact if_pos h
  · exact (if_neg (by omega)).trans (if_pos h')
  · exact (if_neg (by omega)).trans ((if_neg (by omega)).trans (if_pos h'))

/-- A byte REV gives a value is the character of that value, base16's in one of the cases (R109). -/
theorem fwd_of_rev {base : Base} {alt : Bool} {c : Byte} (h : rev base alt c ≠ Config.invalid) :
    ∃ alt', (alt' = alt ∨ base = .b16) ∧ fwd base alt' (rev base alt c).toNat = some c := by
  have htable : ∀ c, rev base alt c = Config.invalid ∨ fwd base alt (rev base alt c).toNat = some c
      ∨ base = .b16 ∧ fwd base (!alt) (rev base alt c).toNat = some c := by
    cases base <;> cases alt <;> decide +kernel
  rcases htable c with hc | hc | ⟨hb, hc⟩
  · exact absurd hc h
  · exact ⟨alt, .inl rfl, hc⟩
  · exact ⟨!alt, .inr hb, hc⟩

/-- Settles O35: the two tables undo each other, and no character is `=` or above 0x7F. -/
theorem reverseTables : Obligations.ReverseTables := by
  unfold Obligations.ReverseTables
  intro base alt c
  refine ⟨fun v alt' halt h => rev_of_fwd halt h, fun h => ?_, ?_, fun h => ?_⟩
  · by_contra hrev
    obtain ⟨alt', halt, hc⟩ := fwd_of_rev hrev
    exact h _ alt' halt hc
  · cases base <;> cases alt <;> decide
  · by_contra hrev
    obtain ⟨alt', -, hc⟩ := fwd_of_rev hrev
    obtain ⟨-, -, hlow⟩ := fwd_char hc
    exact absurd hlow (Nat.not_lt.mpr h)

/-- A whole group of bytes is a whole group of symbols. -/
theorem symbolCount_group_add (base : Base) (q r : Nat) :
    symbolCount base (bytesPerGroup base * q + r) = charsPerGroup base * q + symbolCount base r := by
  cases base <;> simp only [symbolCount, ceilDiv, symbolWidth, bytesPerGroup, charsPerGroup] <;> omega

/-- The padding of `n` bytes completes the group of their symbols (R110). -/
theorem padCount_eq (base : Base) (n : Nat) : padCount base (n % bytesPerGroup base)
    = (charsPerGroup base - symbolCount base n % charsPerGroup base) % charsPerGroup base := by
  have htable : ∀ r < bytesPerGroup base, padCount base r
      = (charsPerGroup base - symbolCount base r % charsPerGroup base) % charsPerGroup base := by
    cases base <;> decide
  rw [htable _ (Nat.mod_lt n (by cases base <;> decide)), ← Nat.div_add_mod n (bytesPerGroup base),
    symbolCount_group_add, Nat.mul_add_mod, Nat.mul_add_mod, Nat.mod_mod]

/-- Settles O36: the table by its entries, the closed form group by group. -/
theorem padCountTable : Obligations.PadCountTable := by
  unfold Obligations.PadCountTable
  refine ⟨by decide, fun base n => ?_⟩
  rw [padCount_eq, symbolCount, Nat.mul_comm n]

theorem required_eq {base : Base} {g : Nat} (h : g < charsPerGroup base) :
    required base g = if g * symbolWidth base % 8 < symbolWidth base
      then some ((charsPerGroup base - g) % charsPerGroup base) else none := by
  have htable : ∀ g < charsPerGroup base, required base g = if g * symbolWidth base % 8 < symbolWidth base
      then some ((charsPerGroup base - g) % charsPerGroup base) else none := by
    cases base <;> decide
  exact htable g h

/-- Settles O37: the table position by position. -/
theorem requiredTable : Obligations.RequiredTable := by
  unfold Obligations.RequiredTable
  exact fun base g h => required_eq h

end Sys2Proof.Machine
end

section
/-! The invariant of the states a host sees (10_state.md R29 to R39, R45): every outcome of a step keeps it. -/

namespace Sys2Proof.Machine

/-! The bounds of the whole functions: sizes within SIZE_MAX, texts and decoded bytes within the capacity. -/

theorem wellFormed_bounds {sizeW : Nat} {d : Operands} (h : d.wellFormed sizeW = true) :
    d.leLen ≤ 2 ∧ d.lineLength < 2 ^ sizeW ∧ d.inLen < 2 ^ sizeW ∧ d.outCap < 2 ^ sizeW := by
  simpa [Operands.wellFormed, and_assoc] using h

theorem lt_of_le_sizeMax {sizeW n : Nat} (h : ¬ sizeMax sizeW < n) : n < 2 ^ sizeW := by
  have := Nat.two_pow_pos sizeW
  unfold sizeMax at h
  omega

theorem encSize_lt {sizeW : Nat} {d : Latched} {n : Nat} (h : d.encSize sizeW = some n) : n < 2 ^ sizeW := by
  simp only [Latched.encSize, encSize] at h
  split_ifs at h with h1 h2
  cases h
  exact lt_of_le_sizeMax h2

theorem decSize_lt {sizeW : Nat} {d : Latched} {n : Nat} (h : d.decSize sizeW = some n) : n < 2 ^ sizeW := by
  simp only [Latched.decSize, decSize] at h
  split_ifs at h with h1
  cases h
  have := lt_of_le_sizeMax h1
  have := (symbolWidth_bounds d.base).2
  have : d.inLen * symbolWidth d.base + 7 < 8 * (d.inLen * symbolWidth d.base) + 8 := by omega
  unfold ceilDiv
  omega

section
variable {d : Latched} {s : State}

/-- A launch that breaks no duty, and passes CHECK, supplies its whole input. -/
theorem length_inputBytes_of_pass {size : Option Nat} (hc : Complies d.toOperands s)
    (hpass : checkStatus size d.toOperands = none) : (inputBytes s d.inLen).length = d.inLen := by
  obtain ⟨r, hr, -⟩ := hc.input (checkStatus_eq_none.mp hpass).1
  exact length_inputBytes hr _

/-- The text of an encode past CHECK, with its null marker, is no longer than the capacity (40_size.md R141). -/
theorem length_encText_le (hle : d.leLen ≤ 2) (hc : Complies d.toOperands s)
    (hpass : checkStatus (d.encSize s.sizeW) d.toOperands = none) :
    (encText d (inputBytes s d.inLen)).length + bitOf d.nulTerm ≤ d.outCap := by
  obtain ⟨-, -, t, ht, hcap⟩ := checkStatus_eq_none.mp hpass
  rw [encSize_eq_some hle (length_inputBytes_of_pass hc hpass) ht]
  exact hcap

/-- The bytes of a decode past CHECK are within every size the bound computes (R142). -/
theorem length_scanResult_le {sizeW n : Nat} (h : d.decSize sizeW = some n) {cs : List ByteClass}
    (hcs : cs.length ≤ d.inLen) : (scanResult d (scan cs)).written.length ≤ n := by
  have hbytes (cs' : List ByteClass) (h' : cs'.length ≤ cs.length) :
      (decodedBytes (symbolWidth d.base) (symValues cs')).length ≤ n :=
    length_decodedBytes_le rfl h (Nat.le_refl n) ((length_symValues_le cs').trans (h'.trans hcs))
  cases he : firstStop cs with
  | some e =>
    rw [scan_of_firstStop he]
    have := hbytes (cs.take e) (by simp)
    cases hx : cs[e]? <;> exact this
  | none =>
    rw [scan_of_no_stop he]
    exact hbytes cs (Nat.le_refl _)

/-! The working registers. -/

theorem encodeWork_bounded (hwf : d.wellFormed s.sizeW = true) (hc : Complies d.toOperands s)
    (hpass : checkStatus (d.encSize s.sizeW) d.toOperands = none) (hw : s.work.Bounded s.sizeW) :
    (encodeWork d (inputBytes s d.inLen) s.work).Bounded s.sizeW := by
  obtain ⟨hle, hline, hin, hout⟩ := wellFormed_bounds hwf
  have htext := length_encText_le hle hc hpass
  refine ⟨Nat.zero_le _, Nat.one_pos, hin, ?_, ?_, hw.gpos, hw.npad⟩
  · exact Nat.lt_of_le_of_lt (Nat.le_of_add_right_le htext) hout
  · simp only [encodeWork]
    split
    · exact Nat.two_pow_pos _
    · next hL => exact (Nat.mod_lt _ (Nat.pos_of_ne_zero hL)).trans hline

theorem decodeWork_bounded {sizeW i : Nat} {cs : List ByteClass} {w : Working} (hi : i < 2 ^ sizeW)
    (hbytes : (decodedBytes (symbolWidth d.base) (symValues cs)).length < 2 ^ sizeW) (hcol : w.col < 2 ^ sizeW) :
    (decodeWork d i cs w).Bounded sizeW := by
  have hbits : (leftoverBits (symbolWidth d.base) (symValues cs)).length < 8 := by
    rw [length_leftoverBits]
    exact Nat.mod_lt _ (by decide)
  refine ⟨by simp only [decodeWork]; omega, ?_, hi, hbytes, hcol, ?_, Nat.min_le_right _ _⟩
  · simp only [decodeWork, BitVec.toNat_ofNat]
    exact Nat.lt_of_le_of_lt (Nat.mod_le _ _) (valueOf_lt _)
  · have hg : charsPerGroup d.base ≤ 8 := by cases d.base <;> decide
    have := Nat.mod_lt (symValues cs).length (show 0 < charsPerGroup d.base by cases d.base <;> decide)
    simp only [decodeWork]
    omega

theorem decodeWorkEnd_bounded (hwf : d.wellFormed s.sizeW = true) {cs : List ByteClass} (hcs : cs.length = d.inLen)
    (hpass : checkStatus (d.decSize s.sizeW) d.toOperands = none) (hw : s.work.Bounded s.sizeW) :
    (decodeWorkEnd d cs s.work).Bounded s.sizeW := by
  obtain ⟨-, -, hin, hout⟩ := wellFormed_bounds hwf
  obtain ⟨-, -, t, ht, hcap⟩ := checkStatus_eq_none.mp hpass
  have hbytes (cs' : List ByteClass) (h : cs'.length ≤ d.inLen) :
      (decodedBytes (symbolWidth d.base) (symValues cs')).length < 2 ^ s.sizeW :=
    Nat.lt_of_le_of_lt (length_decodedBytes_le rfl ht hcap ((length_symValues_le cs').trans h)) hout
  unfold decodeWorkEnd
  split
  · next e he =>
    have hlt := (firstStop_eq_some.mp he).1
    refine decodeWork_bounded (by omega) (hbytes _ ?_) hw.col
    rw [List.length_take]
    omega
  · have h := decodeWork_bounded (i := d.inLen) (w := s.work) hin (hbytes cs (by omega)) hw.col
    split
    · exact ⟨Nat.zero_le _, Nat.one_pos, h.inPos, h.outPos, h.col, h.gpos, h.npad⟩
    · exact h

end

/-! The whole commands. -/

section
variable {d : Latched} {s : State}

theorem wholeEnd_work_bounded (hwf : d.wellFormed s.sizeW = true)
    (hc : d.op = .enc ∨ d.op = .dec → Complies d.toOperands s) (hw : s.work.Bounded s.sizeW) : (wholeEnd d s).work.Bounded s.sizeW := by
  unfold wholeEnd
  cases hop : d.op <;> simp only
  case encSize => exact hw
  case decSize => exact hw
  case enc =>
    cases hcheck : checkStatus (d.encSize s.sizeW) d.toOperands with
    | some st => rw [encodeEnd_of_raise hcheck]; exact hw
    | none => rw [encodeEnd_of_pass hcheck]; exact encodeWork_bounded hwf (hc (.inl hop)) hcheck hw
  case dec =>
    cases hcheck : checkStatus (d.decSize s.sizeW) d.toOperands with
    | some st => rw [decodeEnd_of_raise hcheck]; exact hw
    | none =>
      rw [decodeEnd_of_pass hcheck]
      refine decodeWorkEnd_bounded hwf ?_ hcheck hw
      rw [List.length_map, length_inputBytes_of_pass (hc (.inr hop)) hcheck]

theorem sizeWhole_count_lt {r : Option Nat} {n : Nat} (hn : 0 < n) (h : ∀ k, r = some k → k < n) :
    (sizeWhole r).count < n := by
  cases r with
  | none => exact hn
  | some k => exact h k rfl

theorem commandResult_count_lt (hwf : d.wellFormed s.sizeW = true)
    (hc : d.op = .enc ∨ d.op = .dec → Complies d.toOperands s) : (commandResult d s).count < 2 ^ s.sizeW := by
  have hpos := Nat.two_pow_pos s.sizeW
  obtain ⟨hle, -, -, hout⟩ := wellFormed_bounds hwf
  unfold commandResult
  cases hop : d.op <;> simp only
  case encSize => exact sizeWhole_count_lt hpos fun k hk => encSize_lt hk
  case decSize => exact sizeWhole_count_lt hpos fun k hk => decSize_lt hk
  case enc =>
    cases hcheck : checkStatus (d.encSize s.sizeW) d.toOperands with
    | some st => rw [wholeEncode_of_raise hcheck]; exact hpos
    | none =>
      have htext := length_encText_le hle (hc (.inl hop)) hcheck
      simp only [wholeEncode, hcheck]
      omega
  case dec =>
    cases hcheck : checkStatus (d.decSize s.sizeW) d.toOperands with
    | some st => rw [wholeDecode_of_raise hcheck]; exact hpos
    | none =>
      obtain ⟨-, -, t, ht, hcap⟩ := checkStatus_eq_none.mp hcheck
      have hlen : ((inputBytes s d.inLen).map (classify d)).length ≤ d.inLen := by
        rw [List.length_map, length_inputBytes_of_pass (hc (.inr hop)) hcheck]
      have hbytes := length_scanResult_le ht hlen
      rw [wholeDecode_eq_scanResult hcheck, scanResult_count]
      split <;> omega

theorem wf_outWritten {bs : List Byte} (h : Memory.wf s.mem = true) : Memory.wf (outWritten s bs) = true := by
  unfold outWritten
  split
  · exact h
  · exact Memory.wf_writeList _ _ h

end

/-- A command that answers leaves the invariant, of which it reads the width, the storage and the working registers (R29, R45,
R249, R252). -/
theorem inv_of_exec {i : Instr} {s t : State} (hsize : 8 ≤ s.sizeW) (hm : Memory.wf s.mem = true)
    (hw : s.work.Bounded s.sizeW) (h : exec i s = .next t) : Inv t := by
  obtain ⟨hsizes, henc, hdec⟩ := statusesByFamily.1 i s t h
  obtain ⟨hphase, hdone, hdesc, hfailed⟩ := completedCommandResult i s t h
  obtain ⟨hi, hc, rfl⟩ := exec_inv h
  refine ⟨?_, ?_, ?_, ?_, ?_, ?_, ?_, hfailed, fun hst => ?_⟩
  · rw [wholeEnd_sizeW]
    exact hsize
  · rw [wholeEnd_mem]
    exact wf_outWritten hm
  · rw [hphase]
    rfl
  · rw [hphase, hdone]
    rfl
  · rw [hdesc, wholeEnd_sizeW]
    exact hi.fits
  · rw [wholeEnd_sizeW]
    exact wholeEnd_work_bounded hi.fits hc hw
  · rw [wholeEnd_count, wholeEnd_sizeW]
    exact commandResult_count_lt hi.fits hc
  · cases hop : i.op with
    | encSize => exact absurd (hst ▸ hsizes (.inl hop)) (by decide)
    | decSize => exact absurd (hst ▸ hsizes (.inr hop)) (by decide)
    | enc => exact absurd (hst ▸ henc hop) (by decide)
    | dec => exact (hdec hop).1 hst

/-! Power-on reset. -/

theorem atReset_bounded (sizeW : Nat) : Working.atReset.Bounded sizeW :=
  have hpos := Nat.two_pow_pos sizeW
  ⟨by decide, by decide, hpos, hpos, hpos, by decide, by decide⟩

/-- The registers after a power-on reset meet the invariant at every width (log 3). -/
theorem powerOnReset_inv {s : State} (hw : 8 ≤ s.sizeW) (hm : Memory.wf s.mem = true) : Inv (powerOnReset s) where
  sizeW := hw
  mem := hm
  phase := rfl
  done := rfl
  desc := by simp [Operands.wellFormed, Latched.atReset]
  work := atReset_bounded s.sizeW
  count := Nat.two_pow_pos _
  failed := fun _ => rfl
  noAlloc := nofun

/-- Settles O56: the machine after reset is a power-on reset of itself. -/
theorem resetKeepsInv : Obligations.ResetKeepsInv :=
  powerOnReset_inv (s := State.reset) (by decide) rfl

/-- A reset during a command writes free bytes where the command would have written its own (log 8). -/
theorem abandonedMem_eq (s : State) : abandonedMem s
    = outWritten s ((List.range (issuedOutput s).length).map (Config.abandonedByte s.freeCtr)) := by
  unfold abandonedMem outWritten
  cases s.outBuf <;> rfl

/-- Settles O57: the outcomes of a step, of which a command and a reset rest on the lemmas above and the others change storage
alone. -/
theorem stepKeepsInv : Obligations.StepKeepsInv := by
  unfold Obligations.StepKeepsInv
  intro s t hinv hstep
  rcases step_cases hinv.phase with
    ⟨r, h⟩ | h | ⟨i, ri, ro, rest, r, -, h⟩ | ⟨rest, h⟩ | ⟨rest, a, b, h⟩ | ⟨rest, h⟩ | ⟨i, ri, ro, rest, h⟩
    <;> rw [h] at hstep
  · cases hstep
  · cases hstep
    exact hinv
  · exact inv_of_exec (s := (s.withHost rest).withBuffers ri ro) hinv.sizeW hinv.mem hinv.work hstep
  · cases hstep
    exact { hinv with }
  · cases hstep
    exact { hinv with mem := Memory.wf_write a b hinv.mem }
  · cases hstep
    exact powerOnReset_inv hinv.sizeW hinv.mem
  · rcases abandon_cases i ((s.withHost rest).withBuffers ri ro) with ⟨r, ha⟩ | ha <;> rw [ha] at hstep <;> cases hstep
    exact powerOnReset_inv hinv.sizeW (abandonedMem_eq _ ▸ wf_outWritten hinv.mem)

end Sys2Proof.Machine
end

section
/-! The round trip (42_decode.md section 5): the text of an encode, its line endings skipped, is the symbols and the padding of
its input, and these decode to the input. -/

namespace Sys2Proof.Machine

/-! Bits: cutting into symbols and putting together again. -/

/-- The symbols of a bit string, written one after the other, are the bit string and the zeros that fill its last symbol. -/
theorem bitString_pieces {w : Nat} (hw : 0 < w) (bits : List Bool) :
    ∃ n < w, bitString w (pieces w bits) = bits ++ List.replicate n false := by
  induction h : bits.length using Nat.strong_induction_on generalizing bits with
  | _ m ih =>
    subst h
    by_cases hfull : w ≤ bits.length
    · obtain ⟨n, hn, hrest⟩ := ih (bits.drop w).length (by rw [List.length_drop]; omega) (bits.drop w) rfl
      have hfirst : bitsOf w (valueOf (bits.take w)) = bits.take w := by
        have := bitsOf_valueOf (bits.take w)
        rwa [List.length_take, Nat.min_eq_left hfull] at this
      refine ⟨n, hn, ?_⟩
      rw [pieces_step hw hfull, bitString_cons, hfirst, hrest, ← List.append_assoc, List.take_append_drop]
    · obtain rfl | hne := eq_or_ne bits []
      · exact ⟨0, hw, by rw [pieces_nil w hw]; rfl⟩
      · refine ⟨w - bits.length, Nat.sub_lt hw (List.length_pos_iff.mpr hne), ?_⟩
        have hlast := bitsOf_valueOf (bits ++ List.replicate (w - bits.length) false)
        rw [List.length_append, List.length_replicate, show bits.length + (w - bits.length) = w by omega] at hlast
        rw [pieces_short hne (Nat.not_le.mp hfull), bitString_cons, hlast, bitString_nil, List.append_nil]

/-- Values of `w` bits each are the pieces of their bit string. -/
theorem pieces_bitString {w : Nat} (hw : 0 < w) {vs : List Nat} (h : ∀ v ∈ vs, v < 2 ^ w) :
    pieces w (bitString w vs) = vs := by
  induction vs with
  | nil => exact pieces_nil w hw
  | cons v vs ih =>
    have hlen := length_bitsOf w v
    rw [bitString_cons, pieces_step hw (by rw [List.length_append]; omega), List.take_left' hlen, List.drop_left' hlen,
      valueOf_bitsOf, Nat.mod_eq_of_lt (h v (by simp)), ih fun u hu => h u (by simp [hu])]

/-- The bytes of an input are the pieces of eight bits of its bit string. -/
theorem pieces_input (input : List Byte) :
    (pieces 8 (bitString 8 (input.map BitVec.toNat))).map (BitVec.ofNat 8) = input := by
  rw [pieces_bitString (by decide), List.map_map]
  · simp [Function.comp_def]
  · simp only [List.mem_map]
    rintro _ ⟨b, -, rfl⟩
    exact b.isLt

section
variable (d : Latched) (input : List Byte)

/-- The symbols of an encode hold the bits of the input and fewer than a symbol's zeros behind them (41_encode.md R159). -/
theorem bitString_encSymbols : ∃ n < symbolWidth d.base,
    bitString (symbolWidth d.base) (encSymbols d input)
      = bitString 8 (input.map BitVec.toNat) ++ List.replicate n false
    ∧ (encSymbols d input).length * symbolWidth d.base = 8 * input.length + n := by
  have hw := (symbolWidth_bounds d.base).1
  obtain ⟨n, hn, hbits⟩ := bitString_pieces (w := symbolWidth d.base) (by omega) (bitString 8 (input.map BitVec.toNat))
  refine ⟨n, hn, hbits, ?_⟩
  have hlen := congrArg List.length hbits
  rw [length_bitString, List.length_append, length_bitString, List.length_map, List.length_replicate] at hlen
  rw [encSymbols, hlen, Nat.mul_comm]

/-- The whole bytes of the symbols of an encode are its input. -/
theorem decodedBytes_encSymbols : decodedBytes (symbolWidth d.base) (encSymbols d input) = input := by
  obtain ⟨n, hn, hbits, hlen⟩ := bitString_encSymbols d input
  have hw := (symbolWidth_bounds d.base).2
  have hbytes : decodedBytes (symbolWidth d.base) (encSymbols d input)
      = (pieces 8 (bitString 8 (input.map BitVec.toNat))).map (BitVec.ofNat 8) := by
    rw [decodedBytes, hbits, hlen, pieces, List.map_map, length_bitString, List.length_map,
      show (8 * input.length + n) / 8 = input.length by omega,
      show ceilDiv (input.length * 8) 8 = input.length by unfold ceilDiv; omega]
    refine List.map_congr_left fun j hj => ?_
    rw [List.mem_range] at hj
    rw [piece_append_left 8 _ _ (by rw [length_bitString, List.length_map]; omega)]
    rfl
  rw [hbytes, pieces_input]

/-- No bit that an encode leaves over is set. -/
theorem leftoverBits_encSymbols : true ∉ leftoverBits (symbolWidth d.base) (encSymbols d input) := by
  obtain ⟨n, hn, hbits, hlen⟩ := bitString_encSymbols d input
  have hw := (symbolWidth_bounds d.base).2
  rw [leftoverBits, hbits, hlen, List.drop_left' (by rw [length_bitString, List.length_map]; omega)]
  simp

/-- Fewer bits are left over than a symbol has. -/
theorem encSymbols_length_mod :
    (encSymbols d input).length * symbolWidth d.base % 8 < symbolWidth d.base := by
  obtain ⟨n, hn, -, hlen⟩ := bitString_encSymbols d input
  have hw := (symbolWidth_bounds d.base).2
  omega

end

/-! The classes of an encode's text for a decode that skips its line endings. -/

/-- A skipped byte is whitespace or a byte of the line ending (30_encoding.md R113). -/
theorem mem_lineEnding_of_isSkip {d : Operands} {c : Byte} (h : isSkip d c = true) (hw : isWhitespace c = false) :
    c ∈ lineEnding d := by
  simp only [isSkip, hw, Bool.false_or, Bool.or_eq_true, Bool.and_eq_true, decide_eq_true_eq, beq_iff_eq] at h
  unfold lineEnding
  rcases h with ⟨hle, rfl⟩ | ⟨hle, rfl⟩
  · obtain ⟨n, hn⟩ := Nat.exists_eq_add_of_le' hle
    simp [hn]
  · simp [hle]

/-- Dropping the bytes of the line endings leaves the characters. -/
theorem filter_wrapFrom {p : Byte → Bool} {e : List Byte} (he : ∀ c ∈ e, p c = false) (L col : Nat) (C : List Byte) :
    (wrapFrom L e col C).filter p = C.filter p := by
  have hskip : e.filter p = [] := List.filter_eq_nil_iff.mpr fun c hc => by simp [he c hc]
  induction C generalizing col with
  | nil => rfl
  | cons c C ih =>
    rw [wrapFrom]
    split_ifs <;> simp [List.filter_cons, List.filter_append, hskip, ih]

/-- The classes of symbols with padding behind them. -/
def symsPads (vs : List Nat) (n : Nat) : List ByteClass := vs.map .sym ++ List.replicate n .pad

/-- `d'` reads the text of `d`: the tables agree, the line endings are skipped, no character of the text is (42_decode.md
section 5). -/
structure Reads (d d' : Latched) : Prop where
  base : d'.base = d.base
  alt : d.alt = d'.alt ∨ d.base = .b16
  padding : d'.usePadding = d.usePadding
  ending : ∀ c ∈ lineEnding d.toOperands, isSkip d'.toOperands c = true
  chars : ∀ c ∈ lineEnding d'.toOperands, c ≠ 0x3D ∧ ∀ v, fwd d.base d.alt v ≠ some c

section
variable {d d' : Latched} (h : Reads d d')
include h

theorem Reads.classify_pad : classify d' Config.padChar = .pad := by
  have hskip : isSkip d'.toOperands Config.padChar ≠ true := fun hs =>
    (h.chars _ (mem_lineEnding_of_isSkip hs (by decide))).1 rfl
  rw [classify, if_neg hskip, if_pos rfl]

theorem Reads.classify_sym {v : Nat} {c : Byte} (hc : fwd d.base d.alt v = some c) : classify d' c = .sym v := by
  obtain ⟨hpad, hspace, -⟩ := fwd_char hc
  have hskip : isSkip d'.toOperands c ≠ true := fun hs => (h.chars _ (mem_lineEnding_of_isSkip hs hspace)).2 v hc
  have hrev : (rev d'.base d'.alt c).toNat = v := by
    rw [h.base]
    exact rev_of_fwd h.alt hc
  have hvalid : rev d'.base d'.alt c ≠ Config.invalid := fun hinv => by
    have hv : v < 2 ^ symbolWidth d.base := lt_of_fwd_eq_some hc
    have := Nat.pow_le_pow_right (show 0 < 2 by decide) (symbolWidth_bounds d.base).2
    rw [hinv] at hrev
    have hff : Config.invalid.toNat = 255 := rfl
    omega
  rw [classify, if_neg hskip, if_neg (show c ≠ Config.padChar from hpad), if_pos hvalid, hrev]

/-- The classes of the characters of an encode: its symbols, then its padding. -/
theorem Reads.map_classify_encChars (input : List Byte) : (encChars d input).map (classify d')
    = symsPads (encSymbols d input) d.pads := by
  have hsym (vs : List Nat) (hvs : ∀ v ∈ vs, v < 2 ^ symbolWidth d.base) :
      (symChars d.base d.alt vs).map (classify d') = vs.map .sym := by
    induction vs with
    | nil => rfl
    | cons v vs ih =>
      obtain ⟨c, hc⟩ := fwd_some d.base d.alt (hvs v (by simp))
      rw [symChars_cons hc, List.map_cons, List.map_cons, h.classify_sym hc, ih fun u hu => hvs u (by simp [hu])]
  rw [encChars_eq, List.map_append, List.map_replicate, hsym _ lt_of_mem_encSymbols, h.classify_pad, symsPads]

/-- The classes of a text that are not SKIP. -/
theorem Reads.dropSkips_encText (input : List Byte) : dropSkips ((encText d input).map (classify d'))
    = symsPads (encSymbols d input) d.pads := by
  have hnoskip : ∀ c ∈ encChars d input, (!isSkip d'.toOperands c) = true := by
    intro c hc
    have hclass : classify d' c ∈ (encChars d input).map (classify d') := List.mem_map_of_mem hc
    rw [h.map_classify_encChars] at hclass
    have hne : classify d' c ≠ .skip := fun hs => by
      rw [hs] at hclass
      simp [symsPads] at hclass
    simpa using mt classify_eq_skip_iff.mpr hne
  rw [dropSkips_map_classify, encText, wrapText_eq, filter_wrapFrom (fun c hc => by rw [h.ending c hc]; rfl),
    List.filter_eq_self.mpr hnoskip, h.map_classify_encChars]

end

/-! The scan of symbols with padding behind them. -/

theorem scan_snoc_of_accepted {cs : List ByteClass} {c : ByteClass} (h : scan cs = (cs, none)) (hc : c.stops cs = false) :
    scan (cs ++ [c]) = (cs ++ [c], none) := by
  rw [(scan_snoc_of_running (by rw [h]) c).2, if_neg (by simp [hc])]

theorem scan_syms (vs : List Nat) : scan (vs.map .sym) = (vs.map .sym, none) := by
  induction vs using List.reverseRecOn with
  | nil => rfl
  | append_singleton vs v ih =>
    rw [List.map_append, List.map_singleton]
    exact scan_snoc_of_accepted ih (by simp [ByteClass.stops])

theorem scan_symsPads (vs : List Nat) (n : Nat) : scan (symsPads vs n) = (symsPads vs n, none) := by
  induction n with
  | zero => rw [symsPads, List.replicate_zero, List.append_nil, scan_syms]
  | succ n ih =>
    rw [symsPads, List.replicate_succ', ← List.append_assoc]
    exact scan_snoc_of_accepted ih rfl

theorem symValues_symsPads (vs : List Nat) (n : Nat) : symValues (symsPads vs n) = vs := by
  have hsyms : symValues (vs.map .sym) = vs := by simp [symValues, List.filterMap_map]
  have hpads : symValues (List.replicate n .pad) = [] := by simp [symValues]
  rw [symsPads, symValues, List.filterMap_append]
  exact (congrArg₂ _ hsyms hpads).trans (List.append_nil vs)

theorem count_pad_symsPads (vs : List Nat) (n : Nat) : (symsPads vs n).count .pad = n := by
  rw [symsPads, List.count_append, List.count_replicate_self, List.count_eq_zero.mpr (by simp), Nat.zero_add]

/-! The end-of-input tests on an encode's text. -/

/-- The padding an encode appends is the one its last group requires (30_encoding.md R110, R111). -/
theorem required_encSymbols {d : Latched} {input : List Byte} (hn : input.length = d.inLen) (hpad : d.usePadding = true) :
    required d.base ((encSymbols d input).length % charsPerGroup d.base) = some d.pads := by
  have hcpg : 0 < charsPerGroup d.base := by cases d.base <;> decide
  have hbits := encSymbols_length_mod d input
  have hsame : (encSymbols d input).length % charsPerGroup d.base * symbolWidth d.base % 8
      = (encSymbols d input).length * symbolWidth d.base % 8 := by
    conv_rhs => rw [← Nat.div_add_mod (encSymbols d input).length (charsPerGroup d.base), Nat.add_mul,
      Nat.mul_right_comm, charsPerGroup_mul_symbolWidth, Nat.mul_assoc, Nat.mul_add_mod]
  rw [required_eq (Nat.mod_lt _ hcpg), if_pos (hsame ▸ hbits), Latched.pads, if_pos hpad, padCount_eq,
    length_encSymbols, hn]

theorem pads_lt (d : Latched) : d.pads < 7 := by
  unfold Latched.pads
  split
  · have hrem : d.inLen % bytesPerGroup d.base < bytesPerGroup d.base := Nat.mod_lt _ (by cases d.base <;> decide)
    have htable : ∀ r < bytesPerGroup d.base, padCount d.base r < 7 := by cases d.base <;> decide
    exact htable _ hrem
  · decide

theorem Reads.endStatus_encText {d d' : Latched} (h : Reads d d') {input : List Byte} (hn : input.length = d.inLen) :
    endStatus d' (symsPads (encSymbols d input) d.pads) = .success := by
  have hnpad : min d.pads 7 = d.pads := Nat.min_eq_left (Nat.le_of_lt (pads_lt d))
  have hpadding : ¬ ((0 < d.pads ∨ d'.usePadding = true)
      ∧ some d.pads ≠ required d.base ((encSymbols d input).length % charsPerGroup d.base)) := by
    rintro ⟨hseen, hne⟩
    cases hpad : d.usePadding with
    | true => exact hne (required_encSymbols hn hpad).symm
    | false => simp [Latched.pads, h.padding, hpad] at hseen
  simp only [endStatus, symValues_symsPads, count_pad_symsPads, h.base, hnpad]
  rw [if_neg (Nat.not_le.mpr (encSymbols_length_mod d input)), if_neg hpadding,
    if_neg (fun hs => leftoverBits_encSymbols d input hs.2)]

/-- A decode that reads the text of an encode gives its input back. -/
theorem Reads.scanResult_encText {d d' : Latched} (h : Reads d d') {input : List Byte} (hn : input.length = d.inLen) :
    scanResult d' (scan ((encText d input).map (classify d'))) = ⟨input, input.length, .success⟩ := by
  rw [← scanResult_dropSkips, h.dropSkips_encText, scan_symsPads]
  simp only [scanResult, symValues_symsPads, h.endStatus_encText hn, h.base, decodedBytes_encSymbols, if_true]

/-! The commands. -/

theorem exec_ofSelector {op : Op} {d : Operands} {s : State} (hi : Issuable d s) (hl : launchDuty op d s = none)
    (base : Base) (alt : Bool) : exec (Instr.ofSelector op base alt d) s = .next (wholeEnd (latch op base alt d) s) := by
  rw [exec_eq_runCommand, ofSelector_op, ofSelector_base, ofSelector_alt, ofSelector_operands, runCommand_eq_wholeEnd hi hl]

section
variable {base : Base} {alt : Bool} {d : Operands} {s : State}

/-- An encode past CHECK writes its text and the null marker asked for, and counts the text (41_encode.md R158, R159). -/
theorem exec_enc_of_pass (hi : Issuable d s) (hc : Complies d s)
    (hpass : checkStatus (encSize s.sizeW base d.usePadding d.nulTerm d.leLen d.lineLength d.inLen) d = none) :
    exec (Instr.ofSelector .enc base alt d) s = .next (commandEnd (latch .enc base alt d)
      ⟨encText (latch .enc base alt d) (inputBytes s d.inLen) ++ (if d.nulTerm then [0x00] else []),
        (encText (latch .enc base alt d) (inputBytes s d.inLen)).length, .success⟩
      (encodeWork (latch .enc base alt d) (inputBytes s d.inLen) s.work) s) :=
  (exec_ofSelector (op := .enc) hi (launchRefusal_eq_none.mpr hc) base alt).trans
    (congrArg Host.Outcome.next (encodeEnd_of_pass (d := latch .enc base alt d) hpass))

/-- A decode past CHECK ends as the scan of its classes says (42_decode.md R199). -/
theorem exec_dec_of_pass (hi : Issuable d s) (hc : Complies d s)
    (hpass : checkStatus (decSize s.sizeW base d.inLen) d = none) :
    exec (Instr.ofSelector .dec base alt d) s = .next (commandEnd (latch .dec base alt d)
      (scanResult (latch .dec base alt d) (scan ((inputBytes s d.inLen).map (classify (latch .dec base alt d)))))
      (decodeWorkEnd (latch .dec base alt d) ((inputBytes s d.inLen).map (classify (latch .dec base alt d))) s.work) s) :=
  (exec_ofSelector (op := .dec) hi (launchRefusal_eq_none.mpr hc) base alt).trans
    (congrArg Host.Outcome.next (decodeEnd_of_pass (d := latch .dec base alt d) hpass))

end

/-- The bytes a command has written read back from the output buffer. -/
theorem outByte_commandEnd {d : Latched} {r : WholeResult} {w : Working} {s : State} {ro : Region} (hro : s.outBuf = some ro)
    (hwf : Memory.wf s.mem = true) {i : Nat} (hi : i < r.written.length) :
    outByte (commandEnd d r w s) i = r.written[i]? :=
  outByte_outWritten (t := commandEnd d r w s) hro hro hwf rfl hi

/-- Settles O32: the input of the decode is the text of the encode, and that text decodes to the encode's input. -/
theorem roundTrip : Obligations.RoundTrip := by
  unfold Obligations.RoundTrip
  intro base alt alt' d d' s u halt hpad hskip hchars hi hc hi' hc' hwf hwf' hcheck hcheck'
  have hreads : Reads (latch .enc base alt d) (latch .dec base alt' d') := ⟨rfl, halt, hpad.symm, hskip, hchars⟩
  refine ⟨_, _, exec_enc_of_pass hi hc hcheck, exec_dec_of_pass hi' hc' hcheck', fun hcount hinput => ?_⟩
  replace hcount : d'.inLen = (encText (latch .enc base alt d) (inputBytes s d.inLen)).length := hcount
  have hlen : (inputBytes s d.inLen).length = d.inLen :=
    length_inputBytes_of_pass (d := latch .enc base alt d) hc hcheck
  have hlen' : (inputBytes u d'.inLen).length = d'.inLen :=
    length_inputBytes_of_pass (d := latch .dec base alt' d') hc' hcheck'
  obtain ⟨-, hout, -⟩ := checkStatus_eq_none.mp hcheck
  obtain ⟨-, hout', -⟩ := checkStatus_eq_none.mp hcheck'
  obtain ⟨r, hr, -⟩ := hc.output hout
  obtain ⟨r', hr', -⟩ := hc'.output hout'
  have htext : inputBytes u d'.inLen = encText (latch .enc base alt d) (inputBytes s d.inLen) := by
    refine List.ext_getElem? fun j => ?_
    by_cases hj : j < (encText (latch .enc base alt d) (inputBytes s d.inLen)).length
    · rw [hinput j hj, outByte_commandEnd hr hwf (by rw [List.length_append]; omega), List.getElem?_append_left hj]
    · rw [List.getElem?_eq_none (Nat.not_lt.mp hj), List.getElem?_eq_none (by omega)]
  rw [htext, hreads.scanResult_encText hlen]
  refine ⟨rfl, hlen, fun j hj => outByte_commandEnd hr' hwf' ?_⟩
  rwa [hlen]

end Sys2Proof.Machine
end

section
/-! The encode commands: size, CHECK, frame and text (40_size.md sections 1 and 2, 41_encode.md sections 2 and 5). -/

namespace Sys2Proof.Machine

/-! The size functions (40_size.md R131 to R133). -/

theorem encSize_eq_none_iff {sizeW leLen : Nat} (hw : 8 ≤ sizeW) (hle : leLen ≤ 2) (base : Base) (pad nul : Bool)
    (lineLength n : Nat) : encSize sizeW base pad nul leLen lineLength n = none ↔ sizeMax sizeW / 8 < n := by
  rw [encSize_eq hw hle, Nat.div_lt_iff_lt_mul (by decide)]
  split_ifs with h <;> simp [h]

theorem decSize_eq_none_iff (sizeW : Nat) (base : Base) (n : Nat) :
    decSize sizeW base n = none ↔ sizeMax sizeW / symbolWidth base < n := by
  rw [decSize, Nat.div_lt_iff_lt_mul (Nat.lt_of_lt_of_le (by decide) (symbolWidth_bounds base).1)]
  split_ifs with h <;> simp [h]

theorem isSome_iff_le {α : Type} {o : Option α} {m n : Nat} (h : o = none ↔ m < n) : o.isSome = true ↔ n ≤ m := by
  rw [Option.isSome_iff_ne_none, ne_eq, h, Nat.not_lt]

/-- Settles O9: the first test of each size function, as a bound on `n`; the second test of `EncSize` never fires. -/
theorem sizeOverflowBoundary : Obligations.SizeOverflowBoundary := by
  unfold Obligations.SizeOverflowBoundary
  refine ⟨fun sizeW base pad nul leLen lineLength n hw hle =>
    ⟨encSize_eq_none_iff hw hle base pad nul lineLength n, decSize_eq_none_iff sizeW base n⟩,
    fun base pad nul leLen lineLength n hle => ?_⟩
  exact ⟨isSome_iff_le (encSize_eq_none_iff (by decide) hle base pad nul lineLength n),
    isSome_iff_le (decSize_eq_none_iff 32 .b16 n), isSome_iff_le (decSize_eq_none_iff 32 .b32 n),
    isSome_iff_le (decSize_eq_none_iff 32 .b64 n)⟩

section
variable {base : Base} {alt : Bool} {d : Operands} {s : State}

/-! CHECK (41_encode.md R151, R152). -/

theorem exec_enc_of_raise (hi : Issuable d s) (hc : Complies d s) {st : Status}
    (hraise : checkStatus (encSize s.sizeW base d.usePadding d.nulTerm d.leLen d.lineLength d.inLen) d = some st) :
    exec (Instr.ofSelector .enc base alt d) s
      = .next { s with phase := .done, desc := latch .enc base alt d, done := true, count := 0, status := st } := by
  rw [exec_ofSelector (op := .enc) hi (launchRefusal_eq_none.mpr hc), ← commandEnd_of_raise]
  exact congrArg Host.Outcome.next (encodeEnd_of_raise (d := latch .enc base alt d) hraise)

/-- CHECK initialises ENC's working registers and moves to BODY (R152). -/
theorem tick_enc_of_pass
    (hpass : checkStatus (encSize s.sizeW base d.usePadding d.nulTerm d.leLen d.lineLength d.inLen) d = none) :
    tick (issue .enc base alt d s) = .ok { s with
      desc := latch .enc base alt d
      done := false
      phase := .body
      work := { s.work with acc := 0, nbits := 0, inPos := 0, outPos := 0, col := 0 } } := by
  have hcheck : encCheck (issue .enc base alt d s) = (encInit (issue .enc base alt d s)).withPhase .body := by
    have hpass' : checkStatus ((issue .enc base alt d s).desc.encSize (issue .enc base alt d s).sizeW)
        (issue .enc base alt d s).desc.toOperands = none := hpass
    rw [encCheck, hpass']
  exact congrArg Except.ok hcheck

/-- The four ways CHECK of ENC goes. -/
theorem enc_check_order (base : Base) (alt : Bool) (hi : Issuable d s) (hc : Complies d s) :
    let i := Instr.ofSelector .enc base alt d
    let size := encSize s.sizeW base d.usePadding d.nulTerm d.leLen d.lineLength d.inLen
    let raised (st : Status) : State :=
      { s with phase := .done, desc := latch .enc base alt d, done := true, count := 0, status := st }
    (d.inPresent = false ∨ d.outPresent = false → exec i s = .next (raised .nullOrMissingArgument))
    ∧ (d.inPresent = true → d.outPresent = true → size = none → exec i s = .next (raised .inputTooLarge))
    ∧ (d.inPresent = true → d.outPresent = true → ∀ t, size = some t → d.outCap < t →
      exec i s = .next (raised .bufferTooSmall))
    ∧ (d.inPresent = true → d.outPresent = true → ∀ t, size = some t → t ≤ d.outCap →
      tick (issue .enc base alt d s) = .ok { s with
          desc := latch .enc base alt d
          done := false
          phase := .body
          work := { s.work with acc := 0, nbits := 0, inPos := 0, outPos := 0, col := 0 } }
      ∧ ∃ u, exec i s = .next u ∧ u.status = .success) := by
  intro i size raised
  refine ⟨fun h => exec_enc_of_raise hi hc (checkStatus_of_absent h), fun hin hout hsize => ?_,
    fun hin hout t hsize hlt => ?_, fun hin hout t hsize hle => ?_⟩
  · exact exec_enc_of_raise hi hc (by rw [show encSize .. = _ from hsize, checkStatus_none hin hout])
  · exact exec_enc_of_raise hi hc (by rw [show encSize .. = _ from hsize, checkStatus_some hin hout, if_pos hlt])
  · have hpass : checkStatus size d = none := checkStatus_eq_none.mpr ⟨hin, hout, t, hsize, hle⟩
    exact ⟨tick_enc_of_pass hpass, _, exec_enc_of_pass hi hc hpass, rfl⟩

end

/-- Settles O11: the four ways CHECK goes, for each command. -/
theorem encodeCheckOrder : Obligations.EncodeCheckOrder := by
  unfold Obligations.EncodeCheckOrder
  intro d s hi hc check
  exact ⟨enc_check_order .b16 false hi hc, enc_check_order .b16 true hi hc, enc_check_order .b32 false hi hc,
    enc_check_order .b32 true hi hc, enc_check_order .b64 false hi hc, enc_check_order .b64 true hi hc⟩

/-- An encode into a buffer of its size succeeds, and its text is the size less the null marker (40_size.md R141). -/
theorem exec_enc_exact {base : Base} {d : Operands} {s : State} {t : Nat} (alt : Bool) (hi : Issuable d s)
    (hc : Complies d s) (hin : d.inPresent = true) (hout : d.outPresent = true)
    (ht : encSize s.sizeW base d.usePadding d.nulTerm d.leLen d.lineLength d.inLen = some t) (hcap : t ≤ d.outCap) :
    ∃ u, exec (Instr.ofSelector .enc base alt d) s = .next u ∧ u.status = .success
      ∧ u.count = t - (if d.nulTerm then 1 else 0)
      ∧ u.count = charCount base d.usePadding d.inLen
        + lineBreaks d.lineLength (charCount base d.usePadding d.inLen) * d.leLen := by
  have hpass := checkStatus_eq_none.mpr ⟨hin, hout, t, ht, hcap⟩
  have hle : d.leLen ≤ 2 := leLen_le_of_wellFormed hi.fits
  have hlen : (inputBytes s d.inLen).length = d.inLen :=
    length_inputBytes_of_pass (d := latch .enc base alt d) hc hpass
  have htext := length_encText (latch .enc base alt d) _ hle hlen
  rw [hlen] at htext
  have htotal := encSize_eq_some (sizeW := s.sizeW) (d := latch .enc base alt d) hle hlen ht
  exact ⟨_, exec_enc_of_pass hi hc hpass, rfl, Nat.eq_sub_of_add_eq htotal, htext⟩

/-- Settles O12: the length of the text is the size less the null marker. -/
theorem encodeSizeExact : Obligations.EncodeSizeExact := by
  unfold Obligations.EncodeSizeExact
  intro d s hi hc hin hout exact
  have hexact (base : Base) (alt : Bool) : exact (Instr.ofSelector .enc base alt d) base :=
    fun _ ht hcap => exec_enc_exact alt hi hc hin hout ht hcap
  exact ⟨hexact .b16 false, hexact .b16 true, hexact .b32 false, hexact .b32 true, hexact .b64 false, hexact .b64 true⟩

/-! The frame (10_state.md R46, 20_memory.md R62). -/

theorem read_outWritten_of_not_inOutput {s : State} {bs : List Byte} {a : Nat} (h : ¬ InOutput s bs.length a) :
    Memory.read (outWritten s bs) a = Memory.read s.mem a := by
  unfold outWritten
  cases hr : s.outBuf with
  | none => rfl
  | some r =>
    refine Memory.read_writeList_outside _ _ _ _ ?_
    by_contra hin
    exact h ⟨r, hr, by omega, by omega⟩

theorem length_append_marker (text : List Byte) (nul : Bool) :
    (text ++ if nul then [0x00] else []).length = text.length + if nul then 1 else 0 := by
  cases nul <;> simp

/-- Settles O13: nothing is written unless CHECK passes, and then the text and its marker. -/
theorem encodeFrame : Obligations.EncodeFrame := by
  unfold Obligations.EncodeFrame
  intro d s hi hc frame
  have hframe (base : Base) (alt : Bool) : frame (Instr.ofSelector .enc base alt d) := by
    cases hcheck : checkStatus (encSize s.sizeW base d.usePadding d.nulTerm d.leLen d.lineLength d.inLen) d with
    | some st => exact ⟨_, exec_enc_of_raise hi hc hcheck, fun _ _ => rfl, rfl, rfl, rfl, rfl, rfl, rfl, rfl⟩
    | none =>
      refine ⟨_, exec_enc_of_pass hi hc hcheck, fun a ha => ?_, rfl, rfl, rfl, rfl, rfl, rfl, rfl⟩
      simp only [commandEnd, if_true] at ha
      refine read_outWritten_of_not_inOutput ?_
      rwa [length_append_marker]
  exact ⟨hframe .b16 false, hframe .b16 true, hframe .b32 false, hframe .b32 true, hframe .b64 false, hframe .b64 true⟩

/-! The placing of the line endings (41_encode.md R153). -/

/-- The text up to a character, and the text from it on, which starts in the column the characters before it leave. -/
theorem wrapText_split (L : Nat) (e : List Byte) {C : List Byte} {j : Nat} (hj : j < C.length) : wrapText L e C
    = wrapFrom L e 0 (C.take j) ++ wrapFrom L e (colAfter L 0 (C.take j)) (C[j] :: C.drop (j + 1)) := by
  rw [wrapText_eq, ← wrapFrom_append, ← List.drop_eq_getElem_cons hj, List.take_append_drop]

/-- Behind a character that fills its line stands the line ending. -/
theorem getElem?_wrapText_ending {L : Nat} (hL : 0 < L) {e C : List Byte} {j k : Nat} (hj : j < C.length)
    (hfull : j % L + 1 = L) (hk : k < e.length) : (wrapText L e C)[j + lineBreaks L j * e.length + (k + 1)]? = e[k]? := by
  have hbefore : (C.take j).length = j := by rw [List.length_take]; omega
  have hlen := length_wrapFrom L e 0 (by omega) (C.take j)
  rw [hbefore, Nat.zero_add] at hlen
  have hcol : colAfter L 0 (C.take j) + 1 = L := by rw [colAfter_eq L hL 0 hL, hbefore, Nat.zero_add, hfull]
  rw [wrapText_split L e hj, ← hlen, List.getElem?_append_right (Nat.le_add_right ..), Nat.add_sub_cancel_left, wrapFrom,
    if_neg (Nat.ne_of_gt hL), if_pos hcol, List.getElem?_cons_succ, List.getElem?_append_left hk]

/-- Settles O15: the length law, the place of a character, and the place behind the last character of a full line. -/
theorem lineEndingsPlaced : Obligations.LineEndingsPlaced := by
  unfold Obligations.LineEndingsPlaced
  intro L e C hL
  have hbreaks (j : Nat) : lineBreaks L j = j / L := if_pos hL
  refine ⟨?_, fun j hj => ?_, fun m k hm hC hk => ?_⟩
  · rw [wrapText_eq, length_wrapFrom L e 0 (.inr hL), Nat.zero_add, hbreaks]
  · rw [← hbreaks, getElem?_wrapText L e hj]
  · obtain ⟨n, rfl⟩ := Nat.exists_eq_add_one.mpr hm
    have hpos : (n + 1) * L = L * n + (L - 1) + 1 := by rw [Nat.add_mul, Nat.mul_comm]; omega
    have hmod : (L * n + (L - 1)) % L + 1 = L := by
      rw [Nat.mul_add_mod, Nat.mod_eq_of_lt (by omega)]
      omega
    have hdiv : (L * n + (L - 1)) / L = n := by
      rw [Nat.mul_add_div hL, Nat.div_eq_of_lt (by omega), Nat.add_zero]
    have hend := getElem?_wrapText_ending hL (C := C) (j := L * n + (L - 1)) (by omega) hmod hk
    rw [hbreaks, hdiv] at hend
    rw [← hend, hpos]
    congr 1
    simp only [Nat.add_sub_cancel]
    omega

/-! The null marker (41_encode.md R158, 60_exceptions.md R241). -/

/-- The byte behind the text of an encode is the null marker, or as before. -/
theorem Encoded.marker {d : Latched} {s t : State} {r : Region} (h : Encoded d s t r) (hwf : Memory.wf s.mem = true) :
    outByte t t.count = if d.nulTerm then some 0x00 else outByte s t.count := by
  have hmem := h.mem
  rw [h.count]
  cases hnul : d.nulTerm with
  | true =>
    rw [hnul] at hmem
    rw [outByte_outWritten h.outBuf h.outBuf_kept hwf hmem (by simp)]
    simp
  | false =>
    simp only [hnul, Bool.false_eq_true, if_false, List.append_nil] at hmem
    simp only [outByte, h.outBuf, h.outBuf_kept, hmem, outWritten, Option.map_some, Bool.false_eq_true, if_false]
    rw [Memory.read_writeList_outside _ _ _ _ (.inr (Nat.le_refl _))]

/-- Settles O20: the byte behind the text of every encode. -/
theorem nullMarkerBehindText : Obligations.NullMarkerBehindText := by
  unfold Obligations.NullMarkerBehindText
  intro d s hi hc hwf marker
  have hmarker {i : Instr} (hop : i.op = .enc) (hd : i.operands = d) : marker i := by
    subst hd
    intro t h hs
    obtain ⟨r, he⟩ := encoded_of_exec hop hi hc h hs
    exact he.marker hwf
  exact ⟨hmarker rfl rfl, hmarker rfl rfl, hmarker rfl rfl, hmarker rfl rfl, hmarker rfl rfl, hmarker rfl rfl⟩

/-! The text of the first bytes of an input (41_encode.md section 5). -/

theorem encChars_getElem? {d : Latched} {input : List Byte} {j : Nat} (hj : j < (encSymbols d input).length) :
    (encChars d input)[j]? = (encSymbols d input)[j]?.bind (fwd d.base d.alt) := by
  rw [length_encSymbols] at hj
  rw [encChars_eq, List.getElem?_append_left (by rwa [length_symChars_encSymbols]), getElem?_symChars lt_of_mem_encSymbols]

/-- A symbol that lies within the first `n` bytes does not read the bytes behind them. -/
theorem encSymbols_take (d : Latched) {input : List Byte} {n j : Nat} (hn : n ≤ input.length)
    (hj : (j + 1) * symbolWidth d.base ≤ 8 * n) :
    j < (encSymbols d (input.take n)).length ∧ j < (encSymbols d input).length
    ∧ (encSymbols d (input.take n))[j]? = (encSymbols d input)[j]? := by
  have hw := symbolWidth_bounds d.base
  have hlen : (input.take n).length = n := by rw [List.length_take]; omega
  have hlt (m : Nat) (hm : n ≤ m) : j < symbolCount d.base m := by
    rw [lt_symbolCount_iff, Nat.div_lt_iff_lt_mul (by decide)]
    rw [Nat.add_mul] at hj
    omega
  have h1 : j < (encSymbols d (input.take n)).length := by
    rw [length_encSymbols, hlen]
    exact hlt n (Nat.le_refl n)
  have h2 : j < (encSymbols d input).length := by
    rw [length_encSymbols]
    exact hlt _ hn
  have hbits : bitString 8 (input.map BitVec.toNat)
      = bitString 8 ((input.take n).map BitVec.toNat) ++ bitString 8 ((input.drop n).map BitVec.toNat) := by
    rw [← bitString_append, ← List.map_append, List.take_append_drop]
  refine ⟨h1, h2, ?_⟩
  rw [List.getElem?_eq_getElem h1, List.getElem?_eq_getElem h2]
  simp only [encSymbols, pieces, List.getElem_map, List.getElem_range]
  rw [hbits, piece_append_left _ _ _ (by rw [length_bitString, List.length_map, hlen]; omega)]

/-- Without wrapping and padding a shorter input has no greater size. -/
theorem encSize_mono {sizeW leLen n m t : Nat} {base : Base} {nul : Bool} (h : n ≤ m)
    (ht : encSize sizeW base false nul leLen 0 m = some t) :
    ∃ t', encSize sizeW base false nul leLen 0 n = some t' ∧ t' ≤ t := by
  have hcount : symbolCount base n ≤ symbolCount base m :=
    Nat.div_le_div_right (by have := Nat.mul_le_mul_right 8 h; omega)
  simp only [encSize, charCount, lineBreaks, Nat.lt_irrefl, if_false, Nat.zero_mul, Nat.add_zero,
    Bool.false_eq_true] at ht ⊢
  split_ifs at ht with h1 h2
  cases ht
  rw [if_neg (by omega), if_neg (by omega)]
  exact ⟨_, rfl, by omega⟩

theorem inputBytes_take {s : State} {n m : Nat} (h : n ≤ m) : inputBytes s n = (inputBytes s m).take n := by
  unfold inputBytes
  split
  · rw [List.take_nil]
  · rw [Memory.readList, Memory.readList, ← List.map_take, List.take_range, Nat.min_eq_left h]

section
variable {base : Base} {alt : Bool} {d : Operands} {s t : State}

/-- Without wrapping and padding CHECK passes for fewer bytes where it passes for all. -/
theorem check_of_shorter {n : Nat} (hline : d.lineLength = 0) (hpad : d.usePadding = false) (hn : n ≤ d.inLen)
    (hpass : checkStatus (encSize s.sizeW base d.usePadding d.nulTerm d.leLen d.lineLength d.inLen) d = none) :
    checkStatus (encSize s.sizeW base d.usePadding d.nulTerm d.leLen d.lineLength n) { d with inLen := n } = none := by
  obtain ⟨hin, hout, total, htotal, hcap⟩ := checkStatus_eq_none.mp hpass
  rw [hline, hpad] at htotal ⊢
  obtain ⟨total', htotal', hle⟩ := encSize_mono hn htotal
  exact checkStatus_eq_none.mpr ⟨hin, hout, total', htotal', hle.trans hcap⟩

theorem success_of_check (hi : Issuable d s) (hc : Complies d s)
    (hpass : checkStatus (encSize s.sizeW base d.usePadding d.nulTerm d.leLen d.lineLength d.inLen) d = none)
    (h : exec (Instr.ofSelector .enc base alt d) s = .next t) : t.status = .success := by
  rw [exec_enc_of_pass hi hc hpass] at h
  cases h
  rfl

theorem check_of_success (hi : Issuable d s) (hc : Complies d s)
    (h : exec (Instr.ofSelector .enc base alt d) s = .next t) (hs : t.status = .success) :
    checkStatus (encSize s.sizeW base d.usePadding d.nulTerm d.leLen d.lineLength d.inLen) d = none := by
  cases hcheck : checkStatus (encSize s.sizeW base d.usePadding d.nulTerm d.leLen d.lineLength d.inLen) d with
  | none => rfl
  | some st =>
    rw [exec_enc_of_raise hi hc hcheck] at h
    cases h
    exact absurd (hcheck.trans (congrArg some hs)) checkStatus_ne_success

/-- Without wrapping, the characters of the text stand in the output buffer one after the other. -/
theorem outByte_of_unwrapped (hi : Issuable d s) (hc : Complies d s) (hwf : Memory.wf s.mem = true)
    (hline : d.lineLength = 0) (h : exec (Instr.ofSelector .enc base alt d) s = .next t) (hs : t.status = .success) {j : Nat}
    (hj : j < (encSymbols (latch .enc base alt d) (inputBytes s d.inLen)).length) :
    outByte t j = (encSymbols (latch .enc base alt d) (inputBytes s d.inLen))[j]?.bind (fwd base alt) := by
  obtain ⟨r, he⟩ := encoded_of_exec (ofSelector_op ..) (by rwa [ofSelector_operands]) (by rwa [ofSelector_operands]) h hs
  rw [ofSelector_base, ofSelector_alt, ofSelector_operands] at he
  have hchar := he.textChar_eq hwf (j := j) (by
    rw [encChars_eq, List.length_append, length_symChars_encSymbols, ← length_encSymbols]
    exact Nat.lt_add_right _ hj)
  rw [latch_toOperands, textChar, hline, lineBreaks, if_neg (Nat.lt_irrefl 0), Nat.zero_mul, Nat.add_zero] at hchar
  rw [hchar]
  exact encChars_getElem? hj

end

/-- Settles O21: the symbols within the first `n` bytes are those of the whole input, and no padding or line ending moves
them. -/
theorem encodePrefix : Obligations.EncodePrefix := by
  unfold Obligations.EncodePrefix
  intro d s n hi hc hwf hline hpad hn agree
  have hagree (base : Base) (alt : Bool) :
      agree (Instr.ofSelector .enc base alt d) (Instr.ofSelector .enc base alt { d with inLen := n }) base := by
    intro t t' ht ht' hs
    obtain ⟨hi', hc', -⟩ := exec_inv ht'
    replace hc' := hc' (.inl (ofSelector_op ..))
    rw [ofSelector_operands] at hi' hc'
    have hpass := check_of_success hi hc ht hs
    have hs' := success_of_check hi' hc' (check_of_shorter (d := d) hline hpad hn hpass) ht'
    refine ⟨hs', fun j hj => ?_⟩
    have hw := (symbolWidth_bounds base).1
    have hbits : (j + 1) * symbolWidth base ≤ 8 * n := (Nat.le_div_iff_mul_le (by omega)).mp hj
    have hlen : n ≤ (inputBytes s d.inLen).length :=
      hn.trans (length_inputBytes_of_pass (d := latch .enc base alt d) hc hpass).ge
    obtain ⟨h1, h2, hsym⟩ := encSymbols_take (latch .enc base alt d) hlen hbits
    rw [outByte_of_unwrapped hi hc hwf hline ht hs h2, ← hsym]
    rw [← inputBytes_take hn] at h1 ⊢
    exact outByte_of_unwrapped hi' hc' hwf hline ht' hs' h1
  exact ⟨hagree .b16 false, hagree .b16 true, hagree .b32 false, hagree .b32 true, hagree .b64 false, hagree .b64 true⟩

/-- Settles O22: after CHECK and `n` bytes the pending bits are the remainder of `8 n` by `sw`, and the symbols before them are
written. -/
theorem encodeStepInvariant : Obligations.EncodeStepInvariant := by
  unfold Obligations.EncodeStepInvariant
  intro base alt d s hi hc hpass n hn
  have hle : d.leLen ≤ 2 := leLen_le_of_wellFormed hi.fits
  have hl : launchRefusal d (issue .enc base alt d s) = none := (launchRefusal_eq_none (s := s)).mpr hc
  obtain ⟨ri, ro, total, hb, ht, hcap⟩ := supplied_of_checks hl hpass
  obtain ⟨Q, vs, hQ, hbits, hvs, hfits, hrun⟩ :=
    enc_run_body (s := issue .enc base alt d s) rfl rfl hb hle ht hcap n hn 0
  simp only [issue_desc, latch_base] at hQ hbits
  have hdiv : 8 * n / symbolWidth base = vs.length := by
    rw [hbits, Nat.mul_add_div (by omega), Nat.div_eq_of_lt hQ, Nat.add_zero]
  have hmod : 8 * n % symbolWidth base = Q.length := by rw [hbits, Nat.mul_add_mod, Nat.mod_eq_of_lt hQ]
  have hchars : (symChars base alt vs).length = vs.length := length_symChars _ _ _ hvs
  have hout : (encAt ro (encStart (issue .enc base alt d s)) .body n Q (symChars base alt vs)).work.outPos
      = vs.length + lineBreaks d.lineLength vs.length * d.leLen := by
    rw [encAt_outPos]
    have := length_wrapFrom d.lineLength (lineEnding d) 0 (by omega) (symChars base alt vs)
    rw [hchars, Nat.zero_add, length_lineEnding d hle] at this
    exact (Nat.zero_add _).trans this
  rw [hdiv, hmod]
  refine ⟨_, hrun, rfl, rfl, ?_, rfl, hout, ?_, ?_⟩
  · rw [encAt_acc, encAt_nbits, BitVec.toNat_ofNat]
    exact Nat.lt_of_le_of_lt (Nat.mod_le _ _) (valueOf_lt Q)
  · rw [encAt_outPos]
    exact hfits
  · rw [encAt_col]
    change colAfter d.lineLength 0 (symChars base alt vs) = _
    split
    · next hL => rw [hL, colAfter_zero]
    · next hL =>
      have hpos := Nat.pos_of_ne_zero hL
      rw [colAfter_eq _ hpos 0 hpos, hchars, Nat.zero_add]

end Sys2Proof.Machine
end

section
/-! The decode commands: CHECK, frame, strict mode and the working registers (40_size.md R142, 42_decode.md section 2). -/

namespace Sys2Proof.Machine

section
variable {base : Base} {alt : Bool} {d : Operands} {s : State}

theorem exec_dec_of_raise (hi : Issuable d s) (hc : Complies d s) {st : Status}
    (hraise : checkStatus (decSize s.sizeW base d.inLen) d = some st) :
    exec (Instr.ofSelector .dec base alt d) s
      = .next { s with phase := .done, desc := latch .dec base alt d, done := true, count := 0, status := st } := by
  rw [exec_ofSelector (op := .dec) hi (launchRefusal_eq_none.mpr hc), ← commandEnd_of_raise]
  exact congrArg Host.Outcome.next (decodeEnd_of_raise (d := latch .dec base alt d) hraise)

/-- CHECK initialises DEC's working registers and moves to BODY (R192). -/
theorem tick_dec_of_pass (hpass : checkStatus (decSize s.sizeW base d.inLen) d = none) :
    tick (issue .dec base alt d s) = .ok { s with
      desc := latch .dec base alt d
      done := false
      phase := .body
      work := { s.work with acc := 0, nbits := 0, inPos := 0, outPos := 0, gpos := 0, npad := 0 } } := by
  have hcheck : decCheck (issue .dec base alt d s) = (decInit (issue .dec base alt d s)).withPhase .body := by
    have hpass' : checkStatus ((issue .dec base alt d s).desc.decSize (issue .dec base alt d s).sizeW)
        (issue .dec base alt d s).desc.toOperands = none := hpass
    rw [decCheck, hpass']
  exact congrArg Except.ok hcheck

/-- Past CHECK a decode ends with no status of CHECK. -/
theorem not_ofCheck_scanResult (d : Latched) (r : List ByteClass × Option ByteClass) :
    ¬ (scanResult d r).status.ofCheck := by
  intro h
  rcases scanResult_status_cases d r with hst | ⟨hst, -⟩
  · rcases h with h | h | h <;> exact absurd (h ▸ hst) (by decide)
  · rcases h with h | h | h <;> exact absurd (hst.symm.trans h) nofun

/-- The four ways CHECK of DEC goes. -/
theorem dec_check_order (base : Base) (alt : Bool) (hi : Issuable d s) (hc : Complies d s) :
    let i := Instr.ofSelector .dec base alt d
    let raised (st : Status) : State :=
      { s with phase := .done, desc := latch .dec base alt d, done := true, count := 0, status := st }
    (d.inPresent = false ∨ d.outPresent = false → exec i s = .next (raised .nullOrMissingArgument))
    ∧ (d.inPresent = true → d.outPresent = true → decSize s.sizeW base d.inLen = none →
      exec i s = .next (raised .inputTooLarge))
    ∧ (d.inPresent = true → d.outPresent = true → ∀ t, decSize s.sizeW base d.inLen = some t → d.outCap < t →
      exec i s = .next (raised .bufferTooSmall))
    ∧ (d.inPresent = true → d.outPresent = true → ∀ t, decSize s.sizeW base d.inLen = some t → t ≤ d.outCap →
      tick (issue .dec base alt d s) = .ok { s with
          desc := latch .dec base alt d
          done := false
          phase := .body
          work := { s.work with acc := 0, nbits := 0, inPos := 0, outPos := 0, gpos := 0, npad := 0 } }
      ∧ ∃ u, exec i s = .next u ∧ u.status ≠ .nullOrMissingArgument ∧ u.status ≠ .inputTooLarge
        ∧ u.status ≠ .bufferTooSmall) := by
  intro i raised
  refine ⟨fun h => exec_dec_of_raise hi hc (checkStatus_of_absent h), fun hin hout hsize => ?_,
    fun hin hout t hsize hlt => ?_, fun hin hout t hsize hle => ?_⟩
  · exact exec_dec_of_raise hi hc (by rw [hsize, checkStatus_none hin hout])
  · exact exec_dec_of_raise hi hc (by rw [hsize, checkStatus_some hin hout, if_pos hlt])
  · have hpass := checkStatus_eq_none.mpr ⟨hin, hout, t, hsize, hle⟩
    have hst := not_ofCheck_scanResult (latch .dec base alt d)
      (scan ((inputBytes s d.inLen).map (classify (latch .dec base alt d))))
    exact ⟨tick_dec_of_pass hpass, _, exec_dec_of_pass hi hc hpass, fun h => hst (.inl h), fun h => hst (.inr (.inr h)),
      fun h => hst (.inr (.inl h))⟩

end

/-- Settles O24: the four ways CHECK goes, for each command. -/
theorem decodeCheckOrder : Obligations.DecodeCheckOrder := by
  unfold Obligations.DecodeCheckOrder
  intro d s hi hc check
  exact ⟨dec_check_order .b16 false hi hc, dec_check_order .b16 true hi hc, dec_check_order .b32 false hi hc,
    dec_check_order .b32 true hi hc, dec_check_order .b64 false hi hc, dec_check_order .b64 true hi hc⟩

/-! The frame (10_state.md R46, 20_memory.md R62) and the bound (40_size.md R142). -/

/-- The output cursor of a decode past CHECK is the number of bytes it wrote. -/
theorem decodeWorkEnd_outPos (d : Latched) (cs : List ByteClass) (w : Working) :
    (decodeWorkEnd d cs w).outPos = (scanResult d (scan cs)).written.length := by
  unfold decodeWorkEnd
  cases he : firstStop cs with
  | some e =>
    have hlt : e < cs.length := (firstStop_eq_some.mp he).1
    rw [scan_of_firstStop he, List.getElem?_eq_getElem hlt]
    rfl
  | none =>
    rw [scan_of_no_stop he]
    simp only
    split <;> rfl

theorem decodeWorkEnd_col (d : Latched) (cs : List ByteClass) (w : Working) : (decodeWorkEnd d cs w).col = w.col := by
  unfold decodeWorkEnd
  split
  · rfl
  · split <;> rfl

/-- Settles O25: nothing is written unless CHECK passes, and then the bytes of the whole function. -/
theorem decodeFrame : Obligations.DecodeFrame := by
  unfold Obligations.DecodeFrame
  intro d s hi hc frame
  have hframe (base : Base) (alt : Bool) : frame (Instr.ofSelector .dec base alt d) base := by
    cases hcheck : checkStatus (decSize s.sizeW base d.inLen) d with
    | some st =>
      refine ⟨_, exec_dec_of_raise hi hc hcheck, ?_, rfl, rfl, rfl, rfl, rfl, rfl⟩
      rw [hcheck, if_neg nofun]
      exact ⟨Nat.zero_le _, fun _ _ => Nat.zero_le _, fun _ => rfl, fun _ _ => rfl⟩
    | none =>
      refine ⟨_, exec_dec_of_pass hi hc hcheck, ?_, decodeWorkEnd_col .., rfl, rfl, rfl, rfl, rfl⟩
      set dl := latch .dec base alt d
      set cs := (inputBytes s d.inLen).map (classify dl) with hcs
      have hlen : cs.length ≤ dl.inLen := by
        rw [hcs, List.length_map]
        exact (length_inputBytes_of_pass (d := dl) hc hcheck).le
      have hbound (n : Nat) (hn : decSize s.sizeW base d.inLen = some n) :
          (scanResult dl (scan cs)).written.length ≤ n := length_scanResult_le (d := dl) hn hlen
      obtain ⟨-, -, t, ht, hcap⟩ := checkStatus_eq_none.mp hcheck
      rw [hcheck, if_pos rfl, show (commandEnd dl (scanResult dl (scan cs)) (decodeWorkEnd dl cs s.work) s).work.outPos = _
        from decodeWorkEnd_outPos dl cs s.work]
      refine ⟨(hbound t ht).trans hcap, hbound, fun hs => ?_, fun a ha => read_outWritten_of_not_inOutput ha⟩
      exact (scanResult_count dl (scan cs)).trans (if_pos hs)
  exact ⟨hframe .b16 false, hframe .b16 true, hframe .b32 false, hframe .b32 true, hframe .b64 false, hframe .b64 true⟩

/-! Strict mode (42_decode.md R198, 60_exceptions.md R248). -/

/-- The strict test comes last: it turns Success into InvalidInput, when a leftover bit is set. -/
theorem endStatus_strict (d : Latched) (cs : List ByteClass) : endStatus { d with strict := true } cs
    = if endStatus { d with strict := false } cs = .success ∧ true ∈ leftoverBits (symbolWidth d.base) (symValues cs)
      then .invalidInput else endStatus { d with strict := false } cs := by
  simp only [endStatus, Bool.false_eq_true, false_and, if_false, true_and]
  split_ifs <;> simp_all

/-- Strict mode changes the result in no other way. -/
theorem scanResult_strict (d : Latched) (r : List ByteClass × Option ByteClass) :
    let strict := scanResult { d with strict := true } r
    let lenient := scanResult { d with strict := false } r
    strict.written = lenient.written
    ∧ (strict.status = .invalidInput ∧ lenient.status = .success
      ∨ strict.status = lenient.status ∧ strict.count = lenient.count) := by
  obtain ⟨cs, _ | c⟩ := r
  · refine ⟨rfl, ?_⟩
    have hstrict := endStatus_strict d cs
    by_cases h : endStatus { d with strict := false } cs = .success
      ∧ true ∈ leftoverBits (symbolWidth d.base) (symValues cs)
    · rw [if_pos h] at hstrict
      exact .inl ⟨hstrict, h.1⟩
    · rw [if_neg h] at hstrict
      exact .inr ⟨hstrict, by simp only [scanResult, hstrict]⟩
  · exact ⟨rfl, .inr ⟨rfl, rfl⟩⟩

/-- Lenient mode never answers InvalidInput. -/
theorem scanResult_ne_invalidInput {d : Latched} (h : d.strict = false) (r : List ByteClass × Option ByteClass) :
    (scanResult d r).status ≠ .invalidInput := by
  intro hst
  rcases scanResult_status_cases d r with hmem | ⟨-, hstrict⟩
  · exact absurd (hst ▸ hmem) (by decide)
  · exact absurd (h.symm.trans hstrict) nofun

/-- Settles O27: CHECK does not read `strict`; past it the results differ as `scanResult_strict` says. -/
theorem strictRejectsOnly : Obligations.StrictRejectsOnly := by
  unfold Obligations.StrictRejectsOnly
  intro d s hi hc differ
  have hdiffer (base : Base) (alt : Bool) : differ (Instr.ofSelector .dec base alt { d with strict := true })
      (Instr.ofSelector .dec base alt { d with strict := false }) := by
    have hi' (b : Bool) : Issuable { d with strict := b } s := ⟨hi.phase, hi.fits⟩
    have hc' (b : Bool) : Complies { d with strict := b } s := ⟨hc.input, hc.output, hc.apart⟩
    cases hcheck : checkStatus (decSize s.sizeW base d.inLen) d with
    | some st =>
      refine ⟨_, _, exec_dec_of_raise (hi' true) (hc' true) hcheck, exec_dec_of_raise (hi' false) (hc' false) hcheck, rfl,
        .inr ⟨rfl, rfl⟩, fun hst => ?_⟩
      exact absurd (mem_of_checkStatus_eq_some (hcheck.trans (congrArg some hst))) (by decide)
    | none =>
      have hstrict := scanResult_strict (latch .dec base alt d)
        (scan ((inputBytes s d.inLen).map (classify (latch .dec base alt d))))
      obtain ⟨hwritten, hresult⟩ := hstrict
      refine ⟨_, _, exec_dec_of_pass (hi' true) (hc' true) hcheck, exec_dec_of_pass (hi' false) (hc' false) hcheck,
        congrArg (outWritten s) hwritten, hresult, scanResult_ne_invalidInput rfl _⟩
  exact ⟨hdiffer .b16 false, hdiffer .b16 true, hdiffer .b32 false, hdiffer .b32 true, hdiffer .b64 false,
    hdiffer .b64 true⟩

/-- Settles O31: after CHECK and `n` accepted bytes the registers are those of `decAt`, which counts symbols. -/
theorem decodeStepInvariant : Obligations.DecodeStepInvariant := by
  unfold Obligations.DecodeStepInvariant
  intro base alt d s hi hc hpass classes n hn hstop k
  have hl : launchRefusal d (issue .dec base alt d s) = none := (launchRefusal_eq_none (s := s)).mpr hc
  obtain ⟨ri, ro, total, hb, ht, hcap⟩ := supplied_of_checks hl hpass
  have hclasses : inputClasses ri (issue .dec base alt d s) = classes :=
    (map_classify_inputBytes (s := issue .dec base alt d s) hb.inBuf).symm
  have hrun := dec_run_body (s := issue .dec base alt d s) rfl rfl hb ht hcap n hn (hclasses ▸ hstop) 0
  rw [hclasses] at hrun
  have hout : (decAt ro (decStart (issue .dec base alt d s)) .body n (classes.take n)).work.outPos
      = k * symbolWidth base / 8 := by
    rw [decAt_outPos, decStart_outPos, Nat.zero_add, length_decodedBytes]
    rfl
  have hk : k ≤ d.inLen :=
    (length_symValues_le _).trans ((List.length_take_le n classes).trans hn)
  refine ⟨_, hrun, rfl, rfl, ?_, ?_, hout, ?_, rfl, rfl⟩
  · rw [decAt_acc, decAt_nbits, BitVec.toNat_ofNat]
    exact Nat.lt_of_le_of_lt (Nat.mod_le _ _) (valueOf_lt _)
  · rw [decAt_nbits, length_leftoverBits]
    rfl
  · have hbytes := length_decodedBytes_le (w := symbolWidth base) rfl ht hcap hk
    rw [length_decodedBytes] at hbytes
    exact hout.le.trans hbytes

end Sys2Proof.Machine
end

section
/-! The host's side (10_state.md R40, R44, 30_encoding.md R102, 70_reset_and_hazards.md R280 to R289). -/

namespace Sys2Proof.Machine

/-! The host's moves. -/

theorem step_eq_of_run {s t : State} {i : Instr} (hp : s.phase = .idle ∨ s.phase = .done) (hr : hostRequest s = .run i t) :
    step s = exec i t := by
  rw [step, if_neg (by simp [inFlight_eq_false.mpr hp]), hr]

theorem present_of_decode {l : Launch} {s : State} {i : Instr} (h : decode s.sizeW l.desc = .ok i) :
    present l s = .run i (s.withBuffers l.inBuf l.outBuf) := by
  rw [present, h]

/-- Settles O49: each issuing move presents its launch, which decodes to the command that runs. -/
theorem stepRunsDecoded : Obligations.StepRunsDecoded := by
  unfold Obligations.StepRunsDecoded
  intro s l rest i hp
  refine ⟨fun hhost hd => ?_, fun hhost hdone hst hd => ?_⟩
  · exact step_eq_of_run hp ((hostRequest_issue hhost).trans (present_of_decode (s := s.withHost rest) hd))
  · exact step_eq_of_run hp ((hostRequest_issueWithCount hhost hdone hst).trans
      (present_of_decode (l := l.withCapacity s.count) (s := s.withHost rest) hd))

theorem hostRequest_nil {s : State} (h : s.host = []) : hostRequest s = .settled (.next s) := by
  simp only [hostRequest, h]

theorem hostRequest_store {s : State} {a : Nat} {b : Byte} {rest : List HostMove} (h : s.host = .store a b :: rest) :
    hostRequest s = .settled (.next { s with host := rest, mem := Memory.write s.mem a b }) := by
  simp only [hostRequest, h]
  rfl

theorem hostRequest_reset {s : State} {rest : List HostMove} (h : s.host = .reset :: rest) :
    hostRequest s = .settled (.next (powerOnReset (s.withHost rest))) := by
  simp only [hostRequest, h]

/-- The second half of a pseudo-command issues nothing after an error (R283 step 2). -/
theorem hostRequest_issueWithCount_failed {s : State} {l : Launch} {rest : List HostMove}
    (h : s.host = .issueWithCount l :: rest) (hdone : s.done = true) (hst : s.status ≠ .success) :
    hostRequest s = .settled (.next (s.withHost rest)) := by
  simp only [hostRequest, h, presentWithCount, readResult, hdone, if_true]
  cases hs : s.status
  case success => exact absurd hs hst
  all_goals rfl

/-- The second half of a pseudo-command waits for `done = 1` (R283 step 5). -/
theorem hostRequest_issueWithCount_waiting {s : State} {l : Launch} {rest : List HostMove}
    (h : s.host = .issueWithCount l :: rest) (hdone : s.done = false) : hostRequest s = .settled (.next s) := by
  simp only [hostRequest, h, presentWithCount, readResult, hdone, Bool.false_eq_true, if_false]

/-- Settles O50: what each move without a command asks for is the whole step. -/
theorem movesWithoutCommand : Obligations.MovesWithoutCommand := by
  unfold Obligations.MovesWithoutCommand
  intro s rest hp
  refine ⟨fun h => step_eq_of_settled hp (hostRequest_nil h), fun a b h => step_eq_of_settled hp (hostRequest_store h),
    fun h => ⟨_, step_eq_of_settled hp (hostRequest_reset h), rfl, rfl, rfl, rfl⟩, fun l h => ⟨fun hdone hst => ?_,
    fun hdone => ?_⟩⟩
  · exact step_eq_of_settled hp (hostRequest_issueWithCount_failed h hdone hst)
  · exact step_eq_of_settled hp (hostRequest_issueWithCount_waiting h hdone)

/-- Settles O54: after reset no move is ahead. -/
theorem resetState : Obligations.ResetState := by
  unfold Obligations.ResetState
  exact ⟨rfl, rfl, rfl, step_eq_of_settled (.inl rfl) (hostRequest_nil rfl), fun d hd => ⟨.inl rfl, hd⟩⟩

/-! The duties of the host (R286, R287, R289). -/

theorem bufferRefusal_eq_some {p : Bool} {buf : Option Region} {len : Nat} {r : Refusal}
    (h : bufferRefusal p buf len = some r) : p = true
      ∧ (r = .missingBuffer ∧ buf = none ∨ r = .overstatedLength ∧ ∃ g, buf = some g ∧ g.size < len) := by
  unfold bufferRefusal at h
  split at h
  · next hp =>
    refine ⟨hp, ?_⟩
    split at h
    · cases h
      exact .inl ⟨rfl, rfl⟩
    · next g =>
      split at h
      · next hlt =>
        cases h
        exact .inr ⟨rfl, g, rfl, hlt⟩
      · cases h
  · cases h

/-- Two regions that overlap share the higher of their first bytes. -/
theorem exists_mem_of_overlaps {a b : Region} (h : Region.overlaps a b = true) :
    ∃ x, a.base ≤ x ∧ x < a.base + a.size ∧ b.base ≤ x ∧ x < b.base + b.size := by
  simp only [Region.overlaps, Bool.and_eq_true, decide_eq_true_eq] at h
  exact ⟨max a.base b.base, by omega⟩

theorem aliasRefusal_eq_some {d : Operands} {i o : Option Region} {r : Refusal} (h : aliasRefusal d i o = some r) :
    r = .aliasedBuffers ∧ ∃ a b x, i = some a ∧ o = some b ∧ a.base ≤ x ∧ x < a.base + d.inLen ∧ b.base ≤ x
      ∧ x < b.base + d.outCap := by
  unfold aliasRefusal at h
  split at h
  · next a b =>
    split at h
    · next hover =>
      cases h
      rw [Bool.and_eq_true] at hover
      obtain ⟨x, hx⟩ := exists_mem_of_overlaps hover.2
      exact ⟨rfl, a, b, x, rfl, rfl, hx⟩
    · cases h
  · cases h

/-- A launch is outside the spec by the name of the duty it breaks. -/
theorem launchRefusal_eq_some {d : Operands} {s : State} {r : Refusal} (h : launchRefusal d s = some r) :
    (r = .missingBuffer ∧ (d.inPresent = true ∧ s.inBuf = none ∨ d.outPresent = true ∧ s.outBuf = none))
    ∨ (r = .overstatedLength ∧ ((∃ g, d.inPresent = true ∧ s.inBuf = some g ∧ g.size < d.inLen)
      ∨ ∃ g, d.outPresent = true ∧ s.outBuf = some g ∧ g.size < d.outCap))
    ∨ (r = .aliasedBuffers ∧ ∃ a b x, s.inBuf = some a ∧ s.outBuf = some b ∧ a.base ≤ x ∧ x < a.base + d.inLen
      ∧ b.base ≤ x ∧ x < b.base + d.outCap) := by
  unfold launchRefusal at h
  split at h
  · next hin =>
    cases h
    obtain ⟨hp, ⟨hr, hb⟩ | ⟨hr, g, hb, hlt⟩⟩ := bufferRefusal_eq_some hin
    · exact .inl ⟨hr, .inl ⟨hp, hb⟩⟩
    · exact .inr (.inl ⟨hr, .inl ⟨g, hp, hb, hlt⟩⟩)
  · split at h
    · next hout =>
      cases h
      obtain ⟨hp, ⟨hr, hb⟩ | ⟨hr, g, hb, hlt⟩⟩ := bufferRefusal_eq_some hout
      · exact .inl ⟨hr, .inr ⟨hp, hb⟩⟩
      · exact .inr (.inl ⟨hr, .inr ⟨g, hp, hb, hlt⟩⟩)
    · exact .inr (.inr (aliasRefusal_eq_some h))

/-- An ENC or DEC that can be issued is refused for a broken duty alone. -/
theorem exec_eq_refused_iff {i : Instr} {s : State} (hop : i.op = .enc ∨ i.op = .dec) (hi : Issuable i.operands s)
    {r : Refusal} : exec i s = .refused r ↔ launchRefusal i.operands s = some r := by
  cases hl : launchRefusal i.operands s with
  | none =>
    rw [exec_eq_wholeEnd hi fun _ => launchRefusal_eq_none.mp hl]
    exact ⟨nofun, nofun⟩
  | some r' =>
    have hduty : launchDuty i.op i.operands s = some r' := by rcases hop with h | h <;> rw [h] <;> exact hl
    simp [exec_eq_runCommand, runCommand, inFlight_eq_false.mpr hi.phase, reject_eq_none.mpr hi.fits, hduty]

/-- Settles O51: the refusal is `launchRefusal`'s, whose names are those of the duties. -/
theorem hostDutiesEnforced : Obligations.HostDutiesEnforced := by
  unfold Obligations.HostDutiesEnforced
  intro i s hop hi
  have hcases {r : Refusal} (h : exec i s = .refused r) := launchRefusal_eq_some ((exec_eq_refused_iff hop hi).mp h)
  refine ⟨?_, fun h => ?_, fun h => ?_, fun h => ?_, fun r h => ?_⟩
  · rw [← launchRefusal_eq_none, ← ne_eq, Option.ne_none_iff_exists']
    exact exists_congr fun r => exec_eq_refused_iff hop hi
  · rcases hcases h with ⟨-, h⟩ | ⟨⟨⟩, -⟩ | ⟨⟨⟩, -⟩
    exact h
  · rcases hcases h with ⟨⟨⟩, -⟩ | ⟨-, h⟩ | ⟨⟨⟩, -⟩
    exact h
  · rcases hcases h with ⟨⟨⟩, -⟩ | ⟨⟨⟩, -⟩ | ⟨-, h⟩
    exact h
  · exact (hcases h).imp And.left (Or.imp And.left And.left)

/-! The pseudo-commands (30_encoding.md R102). -/

section
variable {op : Op} {base : Base} {alt : Bool} {d : Operands} {s : State} {rest : List HostMove}

/-- The issue of a well-formed command's descriptor runs the command. -/
theorem step_issue_encode {ib ob : Option Region} (hi : Issuable d s)
    (hhost : s.host = .issue ⟨encode (Instr.ofSelector op base alt d), ib, ob⟩ :: rest) :
    step s = exec (Instr.ofSelector op base alt d) { s with host := rest, inBuf := ib, outBuf := ob } := by
  have hwf : (Instr.ofSelector op base alt d).wellFormed s.sizeW = true := by
    rw [Instr.wellFormed, ofSelector_operands]
    exact hi.fits
  exact (stepRunsDecoded s _ rest _ hi.phase).1 hhost (decodeEncodeAgree s.sizeW _ hwf)

theorem encode_with_outCap (n : Nat) : { encode (Instr.ofSelector op base alt d) with outCap := n }
    = encode (Instr.ofSelector op base alt { d with outCap := n }) := by
  simp only [encode, ofSelector_op, ofSelector_base, ofSelector_alt, ofSelector_operands]
  rfl

/-- The issue of a well-formed command with the count just read runs the command with that capacity. -/
theorem step_issueWithCount_encode {ib : Option Region} {ro : Region} (hi : Issuable { d with outCap := s.count } s)
    (hhost : s.host = .issueWithCount ⟨encode (Instr.ofSelector op base alt d), ib, some ro⟩ :: rest)
    (hdone : s.done = true) (hst : s.status = .success) :
    step s = exec (Instr.ofSelector op base alt { d with outCap := s.count })
      { s with host := rest, inBuf := ib, outBuf := some ⟨ro.base, s.count⟩ } := by
  have hwf : (Instr.ofSelector op base alt { d with outCap := s.count }).wellFormed s.sizeW = true := by
    rw [Instr.wellFormed, ofSelector_operands]
    exact hi.fits
  refine (stepRunsDecoded s _ rest _ hi.phase).2 hhost hdone hst ?_
  rw [encode_with_outCap]
  exact decodeEncodeAgree s.sizeW _ hwf

theorem wellFormed_with_outCap {sizeW n : Nat} (hd : d.wellFormed sizeW = true) (hn : n < 2 ^ sizeW) :
    Operands.wellFormed sizeW { d with outCap := n } = true := by
  obtain ⟨hle, hline, hin, -⟩ := wellFormed_bounds hd
  simp [Operands.wellFormed, hle, hline, hin, hn]

/-- The state the size query of a pseudo-command runs on: the second half ahead, no buffer supplied. -/
def querying (second : Launch) (rest : List HostMove) (s : State) : State :=
  { s with host := .issueWithCount second :: rest, inBuf := none, outBuf := none }

/-- The state the size query leaves: the size or the error in the result registers. -/
def queried (sizeOp : Op) (base : Base) (d : Operands) (size : Option Nat) (second : Launch) (rest : List HostMove)
    (s : State) : State := sizeNext (latch sizeOp base false d) size (querying second rest s)

/-- The state the second half runs on, with a buffer of the size read. -/
def launched (ri ro : Region) (n : Nat) (rest : List HostMove) (s : State) : State :=
  { s with host := rest, inBuf := some ri, outBuf := some ⟨ro.base, n⟩ }

/-- The first move of ENCODE. -/
theorem step_pseudoEncode {i o : Option Region} (hi : Issuable d s) (hhost : s.host = pseudoEncode base alt d i o ++ rest) :
    step s = .next (queried .encSize base d (encSize s.sizeW base d.usePadding d.nulTerm d.leLen d.lineLength d.inLen)
      ⟨encode (Instr.ofSelector .enc base alt d), i, o⟩ rest s) := by
  rw [step_issue_encode hi hhost, queried, ← commandEnd_sizeWhole]
  exact exec_ofSelector (op := .encSize) (s := querying _ rest s) ⟨hi.phase, hi.fits⟩ rfl base false

/-- The first move of DECODE. -/
theorem step_pseudoDecode {i o : Option Region} (hi : Issuable d s) (hhost : s.host = pseudoDecode base alt d i o ++ rest) :
    step s = .next (queried .decSize base d (decSize s.sizeW base d.inLen)
      ⟨encode (Instr.ofSelector .dec base alt d), i, o⟩ rest s) := by
  rw [step_issue_encode hi hhost, queried, ← commandEnd_sizeWhole]
  exact exec_ofSelector (op := .decSize) (s := querying _ rest s) ⟨hi.phase, hi.fits⟩ rfl base false

/-- After a size that is too large the second move issues nothing (R283 step 2). -/
theorem step_queried_none (sizeOp : Op) (second : Launch) : step (queried sizeOp base d none second rest s)
    = .next { queried sizeOp base d none second rest s with host := rest } :=
  step_eq_of_settled (.inr rfl) (hostRequest_issueWithCount_failed rfl rfl nofun)

/-- After a size the second move issues the command into a buffer of that size. -/
theorem step_queried_some {n : Nat} (sizeOp op : Op) (base : Base) (alt : Bool) (ri ro : Region) (rest : List HostMove)
    (hd : d.wellFormed s.sizeW = true) (hn : n < 2 ^ s.sizeW) :
    let t := queried sizeOp base d (some n) ⟨encode (Instr.ofSelector op base alt d), some ri, some ro⟩ rest s
    step t = exec (Instr.ofSelector op base alt { d with outCap := n }) (launched ri ro n rest t) :=
  step_issueWithCount_encode ⟨.inr rfl, wellFormed_with_outCap hd hn⟩ rfl rfl rfl

theorem issuable_launched {n : Nat} {sizeOp : Op} {size : Option Nat} {second : Launch} {ri ro : Region}
    (hd : d.wellFormed s.sizeW = true) (hn : n < 2 ^ s.sizeW) :
    Issuable { d with outCap := n } (launched ri ro n rest (queried sizeOp base d size second rest s)) :=
  ⟨.inr rfl, wellFormed_with_outCap hd hn⟩

/-- A launch into a buffer of its capacity, apart from its input, breaks no duty. -/
theorem complies_launched {n : Nat} {ri ro : Region} (hin : d.inLen ≤ ri.size)
    (hapart : ∀ x, ¬ (ri.base ≤ x ∧ x < ri.base + d.inLen ∧ ro.base ≤ x ∧ x < ro.base + n)) :
    Complies { d with outCap := n } (launched ri ro n rest s) where
  input := fun _ => ⟨ri, rfl, hin⟩
  output := fun _ => ⟨⟨ro.base, n⟩, rfl, Nat.le_refl n⟩
  apart := fun _ _ a b ha hb => by
    cases ha
    cases hb
    exact hapart

end

/-- Settles O52: the size query, then an encode into a buffer of exactly the size. -/
theorem pseudoEncodeRuns : Obligations.PseudoEncodeRuns := by
  unfold Obligations.PseudoEncodeRuns
  intro base alt d ri ro rest s hi hhost size
  have hfirst := step_pseudoEncode hi hhost
  refine ⟨fun n hn hin hout hlen hapart => ?_, fun hnone => ?_⟩
  · rw [show encSize .. = some n from hn] at hfirst
    have hlt : n < 2 ^ s.sizeW := encSize_lt (d := latch .enc base alt d) hn
    have hsecond := step_queried_some .encSize .enc base alt ri ro rest hi.fits hlt
    have hcomplies := complies_launched (s := queried .encSize base d (some n)
      ⟨encode (Instr.ofSelector .enc base alt d), some ri, some ro⟩ rest s) (rest := rest) hlen hapart
    obtain ⟨u, hu, hst, hcount, -⟩ := exec_enc_exact (d := { d with outCap := n }) alt
      (issuable_launched hi.fits hlt) hcomplies hin hout hn (Nat.le_refl n)
    refine ⟨_, u, hfirst, rfl, rfl, hsecond.trans hu, hst, hcount, ?_⟩
    obtain ⟨-, -, rfl⟩ := exec_inv hu
    exact ⟨wholeEnd_outBuf .., wholeEnd_host ..⟩
  · rw [show encSize .. = none from hnone] at hfirst
    exact ⟨_, hfirst, rfl, rfl, step_queried_none ..⟩

/-- Settles O53: the size query, then a decode into a buffer of exactly the size. -/
theorem pseudoDecodeRuns : Obligations.PseudoDecodeRuns := by
  unfold Obligations.PseudoDecodeRuns
  intro base alt d ri ro rest s hi hhost size
  have hfirst := step_pseudoDecode hi hhost
  refine ⟨fun n hn hin hout hlen hapart => ?_, fun hnone => ?_⟩
  · rw [show decSize .. = some n from hn] at hfirst
    have hlt : n < 2 ^ s.sizeW := decSize_lt (d := latch .dec base alt d) hn
    have hsecond := step_queried_some .decSize .dec base alt ri ro rest hi.fits hlt
    have hcomplies := complies_launched (s := queried .decSize base d (some n)
      ⟨encode (Instr.ofSelector .dec base alt d), some ri, some ro⟩ rest s) (rest := rest) hlen hapart
    obtain ⟨-, -, -, hpass⟩ := dec_check_order (d := { d with outCap := n }) base alt (issuable_launched hi.fits hlt)
      hcomplies
    obtain ⟨-, u, hu, hnull, hlarge, hsmall⟩ := hpass hin hout n hn (Nat.le_refl n)
    refine ⟨_, u, hfirst, rfl, rfl, hsecond.trans hu, hnull, hsmall, hlarge, ?_⟩
    obtain ⟨-, -, rfl⟩ := exec_inv hu
    exact ⟨wholeEnd_outBuf .., wholeEnd_host ..⟩
  · rw [show decSize .. = none from hnone] at hfirst
    exact ⟨_, hfirst, rfl, rfl, step_queried_none ..⟩

/-! Reset during a command (R280, U18). -/

/-- The bytes an issued command writes are those of its whole function. -/
theorem issuedOutput_eq (d : Latched) (s : State) : issuedOutput { s with desc := d } = (commandResult d s).written := by
  unfold issuedOutput commandResult
  cases d.op <;> simp only
  case encSize => cases d.encSize s.sizeW <;> rfl
  case decSize => cases d.decSize s.sizeW <;> rfl
  case enc => rfl
  case dec => rfl

theorem hostRequest_issueThenReset_of_decode {s : State} {l : Launch} {rest : List HostMove} {i : Instr}
    (h : s.host = .issueThenReset l :: rest) (hd : decode s.sizeW l.desc = .ok i) :
    hostRequest s = .settled (abandon i { s with host := rest, inBuf := l.inBuf, outBuf := l.outBuf }) := by
  simp only [hostRequest, h, present_of_decode (s := s.withHost rest) hd]
  rfl

/-- Settles O55: the reset leaves the registers of power-on and free bytes where the command would have written its own. -/
theorem resetDuringCommand : Obligations.ResetDuringCommand := by
  unfold Obligations.ResetDuringCommand
  intro s l rest i hp hhost hd u hc output
  have hfits : i.operands.wellFormed s.sizeW = true := (encodeDecodeAgree s.sizeW l.desc i hd).1
  have hwhole := exec_eq_wholeEnd (i := i) (s := u) ⟨hp, hfits⟩ hc
  have hstep : step s = abandon i u := step_eq_of_settled hp (hostRequest_issueThenReset_of_decode hhost hd)
  rw [abandon, launchDuty_eq_none.mpr hc] at hstep
  refine ⟨_, _, hstep, rfl, rfl, rfl, rfl, hwhole, ?_, fun a ha => ?_⟩
  · rw [wholeEnd_mem, ← issuedOutput_eq]
  · change Memory.read (abandonedMem (issue i.op i.base i.alt i.operands u)) a = _
    rw [abandonedMem_eq]
    refine read_outWritten_of_not_inOutput (s := issue i.op i.base i.alt i.operands u) ?_
    rw [List.length_map, List.length_range]
    exact ha

end Sys2Proof.Machine
end
